-- ==== Sys2Proof/Word.lean ====
section
/-! DEFINITION. The widths of spec/00_scope.md rule R8: every value of the block is an unsigned bit vector of a stated
width. Bit 0 is the least significant bit. -/

namespace Sys2Proof

/-- `u8` of R8: one byte on the wire, one byte of memory. -/
abbrev Byte := BitVec 8

/-- `u32` of R8: one register word of the controller or the GPIO block, one `u32` operand. -/
abbrev Word := BitVec 32

/-- `u64` of R8: a diagnostic code (R71), or a cause register value (R74). -/
abbrev Code := BitVec 64

end Sys2Proof
end

