-- ==== Sys2Proof/Syntax.lean ====
section
/-! DEFINITION. The syntax layer of spec/30_encoding.md rules R77 and R80: an operation is a term, one constructor per row
of spec/opcode_table.json, its operands typed fields. -/

namespace Sys2Proof

/-- The ten operations of R77. `isTrap` is a byte and not one bit, because R78 and R125 give the values other than
0 and 1 a meaning of their own (the refusal `RF_TRAP_FLAG`); WellFormed.lean says which values are legal
(notes/assumptions/21.md, DESIGN CHOICE). -/
inductive Instr where
  /-- `tx b` (R90). -/
  | tx (b : Byte)
  /-- `rx` (R93). -/
  | rx
  /-- `txrx b` (R96). -/
  | txrx (b : Byte)
  /-- `frame_begin` (R100). -/
  | frameBegin
  /-- `frame_end` (R101). -/
  | frameEnd
  /-- `copy dst, addr, size` (R102). -/
  | copy (dst addr size : Word)
  /-- `clkdiv input, target` (R112). -/
  | clkdiv (input target : Word)
  /-- `diag_encode stage, is_trap, code` (R126). -/
  | diagEncode (stage : BitVec 4) (isTrap : Byte) (code : Code)
  /-- `diag_decode D` (R129). -/
  | diagDecode (d : Code)
  /-- `fail code, is_trap` (R133). -/
  | fail (code : Code) (isTrap : Byte)
deriving DecidableEq, Repr

end Sys2Proof
end

