-- ==== Sys2Proof/WellFormed.lean ====
section
/-! DEFINITION. Which terms have every operand inside the type that spec/30_encoding.md rule R77 gives it. All widths but
one are the widths of the fields; `is_trap : u1` is the one operand whose field is wider than its type. -/

namespace Sys2Proof

/-- R77, R78: the operand `is_trap` is 0 or 1. -/
def trapFlagOk (isTrap : Byte) : Bool := isTrap == 0 || isTrap == 1

/-- A term whose operands all lie in the types of R77. An ill-formed term still has a meaning (R125, R133): the lead
core refuses it by name, and a core that composes no code does not look at it. -/
def WellFormed : Instr → Bool
  | .tx _ => true
  | .rx => true
  | .txrx _ => true
  | .frameBegin => true
  | .frameEnd => true
  | .copy _ _ _ => true
  | .clkdiv _ _ => true
  | .diagEncode _ isTrap _ => trapFlagOk isTrap
  | .diagDecode _ => true
  | .fail _ isTrap => trapFlagOk isTrap

end Sys2Proof
end

