-- ==== Sys2Proof/Decode.lean ====
section
/-! DEFINITION. Operations as bytes. spec/30_encoding.md R77 gives each operation an 8-bit selector and R79 refuses every other
selector; the operands are term fields with no bits of their own (R78, R80). This model stores them after the selector, in
the order R77 lists them, each in whole bytes, least significant byte first (notes/assumptions/7.md, DESIGN CHOICE). -/

namespace Sys2Proof

/-- Why a slot decodes to no operation. -/
inductive DecodeError where
  /-- `RF_UNKNOWN_OP` (R79): the selector is not in R77's table. -/
  | unknownOp (selector : Byte)
deriving DecidableEq, Repr

/-- The byte at position `k` of a slot; a byte the slot does not have reads as zero, so decoding is total. -/
def byteAt (bs : List Byte) (k : Nat) : Byte := bs.getD k 0

/-- The 32-bit operand whose first byte is at position `k`. -/
def wordAt (bs : List Byte) (k : Nat) : Word :=
  ((byteAt bs (k + 3) ++ byteAt bs (k + 2)) ++ byteAt bs (k + 1)) ++ byteAt bs k

/-- The 64-bit operand whose first byte is at position `k`. -/
def codeAt (bs : List Byte) (k : Nat) : Code := wordAt bs (k + 4) ++ wordAt bs k

/-- The decoder: total on every list of bytes, the selector alone decides (R80). -/
def decode (bs : List Byte) : Except DecodeError Instr :=
  match (byteAt bs 0).toNat with
  | 0x01 => .ok (.tx (byteAt bs 1))
  | 0x02 => .ok .rx
  | 0x03 => .ok (.txrx (byteAt bs 1))
  | 0x04 => .ok .frameBegin
  | 0x05 => .ok .frameEnd
  | 0x06 => .ok (.copy (wordAt bs 1) (wordAt bs 5) (wordAt bs 9))
  | 0x07 => .ok (.clkdiv (wordAt bs 1) (wordAt bs 5))
  | 0x10 => .ok (.diagEncode ((byteAt bs 1).extractLsb' 0 4) (byteAt bs 2) (codeAt bs 3))
  | 0x11 => .ok (.diagDecode (codeAt bs 1))
  | 0x20 => .ok (.fail (codeAt bs 1) (byteAt bs 9))
  | _ => .error (.unknownOp (byteAt bs 0))

/-- The bytes of a 32-bit operand, least significant first. -/
def wordBytes (w : Word) : List Byte :=
  [w.extractLsb' 0 8, w.extractLsb' 8 8, w.extractLsb' 16 8, w.extractLsb' 24 8]

/-- The bytes of a 64-bit operand, least significant first. -/
def codeBytes (c : Code) : List Byte := wordBytes (c.extractLsb' 0 32) ++ wordBytes (c.extractLsb' 32 32)

/-- The selector of each operation (R77). -/
def selector : Instr → Byte
  | .tx _ => 0x01
  | .rx => 0x02
  | .txrx _ => 0x03
  | .frameBegin => 0x04
  | .frameEnd => 0x05
  | .copy _ _ _ => 0x06
  | .clkdiv _ _ => 0x07
  | .diagEncode _ _ _ => 0x10
  | .diagDecode _ => 0x11
  | .fail _ _ => 0x20

/-- The operand bytes of each operation, in R77's order. -/
def operandBytes : Instr → List Byte
  | .tx b => [b]
  | .rx => []
  | .txrx b => [b]
  | .frameBegin => []
  | .frameEnd => []
  | .copy dst addr size => wordBytes dst ++ wordBytes addr ++ wordBytes size
  | .clkdiv input target => wordBytes input ++ wordBytes target
  | .diagEncode stage isTrap code => [stage.setWidth 8, isTrap] ++ codeBytes code
  | .diagDecode d => codeBytes d
  | .fail code isTrap => codeBytes code ++ [isTrap]

/-- The encoder. -/
def encode (i : Instr) : List Byte := selector i :: operandBytes i

/-- The bytes of the longest operation, `copy`. -/
def slotBytes : Nat := 13

/-- The slot that stores an operation whose lowest `nbits` bits are `w` and whose bits above are zero, bit 0 the least
significant bit of the first byte. -/
def layout (nbits w : Nat) : List Byte :=
  (List.range slotBytes).map fun k => BitVec.ofNat 8 (w % 2 ^ nbits / 2 ^ (8 * k))

/-- The operation the decoder reads from an operation whose bits are `w`. -/
def decodeTableWord (nbits w : Nat) : Option Instr :=
  match decode (layout nbits w) with
  | .ok i => some i
  | .error _ => none

/-- A hexadecimal digit. -/
def hexDigit (n : Nat) : Char := "0123456789ABCDEF".toList.getD n '0'

/-- The `k` lowest hexadecimal digits of a number, most significant first. -/
def hexDigits : Nat → Nat → List Char
  | 0, _ => []
  | k + 1, n => hexDigits k (n / 16) ++ [hexDigit (n % 16)]

/-- A number in hexadecimal with `k` digits. -/
def hexText (k n : Nat) : String := "0x" ++ String.ofList (hexDigits k n)

/-- The textual syntax of R81: the mnemonic, then the operands separated by commas, here all in hexadecimal. -/
def instrText : Instr → String
  | .tx b => "tx " ++ hexText 2 b.toNat
  | .rx => "rx"
  | .txrx b => "txrx " ++ hexText 2 b.toNat
  | .frameBegin => "frame_begin"
  | .frameEnd => "frame_end"
  | .copy dst addr size => "copy " ++ hexText 8 dst.toNat ++ ", " ++ hexText 8 addr.toNat ++ ", " ++ hexText 8 size.toNat
  | .clkdiv input target => "clkdiv " ++ hexText 8 input.toNat ++ ", " ++ hexText 8 target.toNat
  | .diagEncode stage isTrap code =>
      "diag_encode " ++ hexText 1 stage.toNat ++ ", " ++ hexText 2 isTrap.toNat ++ ", " ++ hexText 16 code.toNat
  | .diagDecode d => "diag_decode " ++ hexText 16 d.toNat
  | .fail code isTrap => "fail " ++ hexText 16 code.toNat ++ ", " ++ hexText 2 isTrap.toNat

end Sys2Proof
end

