-- ==== Sys2Proof/Config.lean ====
section
/-! DEFINITION. The implementation parameters of spec/00_scope.md rule R6, as one record of plain data that State carries
and no operation changes, and the free values of the model. Which records are in range (`LP_CONFIG_OK`) is
Machine/Launch.lean. -/

namespace Sys2Proof

/-- The two levels of the model (R24, decision D1): every controller read a draw, or the reference controller of
R30 to R38. -/
inductive Iface where
  /-- The generic interface: exact to the source, nothing known of the controller (R24). -/
  | generic
  /-- The reference controller: FIFOs, engine, TXCNT function (R30 to R38). -/
  | reference
deriving DecidableEq, Repr

/-- The two read-modify-write operations of R62. -/
inductive AmoOp where
  | or
  | xor
deriving DecidableEq, Repr

/-- The twelve boot-level error enumerants of R118. -/
inductive BootError where
  | unhandledMedium
  | unhandledBootRoutine
  | partitionNotFound
  | mediumCopy
  | sdCmd0
  | sdCmd8
  | sdAcmd41
  | sdCmd58
  | sdCmd16
  | sdCmd18
  | sdCmd18Crc
  | unexpected
deriving DecidableEq, Repr

/-- One exchange on the wire (R34): the inhibit level at which it started, the byte out, the byte in. -/
structure Exchange where
  level : Bool
  mosi : Byte
  miso : Byte
deriving DecidableEq, Repr

/-- The parameters of R6 that are not fixed by the source. Addresses and offsets are natural numbers, because the width of a
physical address is not in source (R45); notes/assumptions/22.md (DESIGN CHOICE). -/
structure Config where
  /-- Which of the two levels of D1 the run is at. -/
  iface : Iface
  /-- `P_SPI_BASE` -/
  spiBase : Nat
  /-- `P_OFF_TXCNT` -/
  offTxcnt : Nat
  /-- `P_OFF_TXDATA` -/
  offTxdata : Nat
  /-- `P_OFF_RXRDY` -/
  offRxrdy : Nat
  /-- `P_OFF_RXDATA` -/
  offRxdata : Nat
  /-- `P_OFF_INH` -/
  offInh : Nat
  /-- the offsets of the controller's other registers (R25): control, status and the one that takes the clock divisor
  (notes/assumptions/29.md, DESIGN CHOICE) -/
  otherOffs : List Nat
  /-- the extent of the controller's register block in bytes (R57; notes/assumptions/9.md, DESIGN CHOICE) -/
  spiBytes : Nat
  /-- `P_TX_BYTE_LSB` -/
  txByteLsb : Nat
  /-- `P_RXRDY_MASK` -/
  rxrdyMask : Word
  /-- `P_RX_BYTE_LSB` -/
  rxByteLsb : Nat
  /-- `P_RX_SAME_READ` -/
  rxSameRead : Bool
  /-- `P_INHIBIT_BIT` -/
  inhibitBit : Nat
  /-- `P_INH_BEGIN`, the level 1 as true -/
  inhBegin : Bool
  /-- `P_READ_OPCODE` -/
  readOpcode : Byte
  /-- `P_TX_DEPTH` -/
  txDepth : Nat
  /-- `P_RX_DEPTH` -/
  rxDepth : Nat
  /-- `P_TXCNT_FN` as a table: entry n is the top byte at occupancy n (notes/assumptions/16.md, DESIGN CHOICE) -/
  txcntFn : List Byte
  /-- `P_BOOTSTAGE` -/
  bootstage : BitVec 4
  /-- `P_ERRCODE` as a table in the order of `BootError` -/
  errCodes : List Code
  /-- `P_LEAD_HART` -/
  leadHart : Nat
  /-- `P_NCORES`: the cores are numbered from 0 (notes/assumptions/17.md, DESIGN CHOICE) -/
  nCores : Nat
  /-- `P_GPIO_BASE` -/
  gpioBase : Nat
  /-- `P_GPIO_OFF_VAL` -/
  gpioOffVal : Nat
  /-- `P_GPIO_OFF_EN` -/
  gpioOffEn : Nat
  /-- `P_GPIO_OFF_INV` -/
  gpioOffInv : Nat
  /-- the extent of the GPIO register block in bytes (R57; notes/assumptions/9.md, DESIGN CHOICE) -/
  gpioBytes : Nat
  /-- `P_GPIO_FAULT_BIT` -/
  gpioFaultBit : Nat
  /-- `P_GPIO_INVERT_OP` -/
  gpioInvertOp : AmoOp
  /-- `P_RESET_VECTOR` (R42, D39): no operation of the block reads it -/
  resetVector : Nat
  /-- `P_PAYLOAD_DST` (R57, D39): no operation of the block reads it -/
  payloadDst : Nat
deriving DecidableEq, Repr

/-- The test configuration REF of R7. Its base addresses, offsets, block extents, core count, enumerant values, reset vector
and payload address are not part of REF (R7 keeps them symbolic): they are this model's, notes/assumptions/2.md (DESIGN CHOICE). -/
def Config.ref : Config where
  iface := .reference
  spiBase := 0x10000000
  offTxcnt := 0x00
  offTxdata := 0x04
  offRxrdy := 0x08
  offRxdata := 0x0C
  offInh := 0x10
  otherOffs := [0x14, 0x18, 0x1C]
  spiBytes := 0x1000
  txByteLsb := 0
  rxrdyMask := 0x00000001
  rxByteLsb := 0
  rxSameRead := false
  inhibitBit := 0
  inhBegin := true
  readOpcode := 0x03
  txDepth := 16
  rxDepth := 16
  txcntFn := [0, 1, 2, 3, 4, 5, 6, 7, 8, 9, 10, 11, 12, 13, 14, 15, 16]
  bootstage := 0xA
  errCodes := [1, 2, 3, 4, 5, 6, 7, 8, 9, 10, 11, 12]
  leadHart := 0
  nCores := 2
  gpioBase := 0x10001000
  gpioOffVal := 0x00
  gpioOffEn := 0x04
  gpioOffInv := 0x08
  gpioBytes := 0x1000
  gpioFaultBit := 5
  gpioInvertOp := .xor
  resetVector := 0
  payloadDst := 0

/-- FREE VALUE (notes/assumptions/5.md): the n-th 32-bit draw from the controller that no list of State supplies. The
generic interface reads it (R24), and so do the bits of TXCNT, RXRDY and RXDATA that R32 and R36 leave to a draw. -/
opaque Config.freeWord : Nat → Word

/-- FREE VALUE (notes/assumptions/6.md): the SPI device's answer where State lists none. R33: it may depend on the byte
sent, the inhibit level and the whole wire trace, and the source places no law on it. -/
opaque Config.deviceAnswer : Bool → Byte → List Exchange → Byte

end Sys2Proof
end

