-- ==== Sys2Proof/Machine/State.lean ====
section
/-! DEFINITION. The machine's state as plain data (spec/10_state.md), the faults of R145, the refusals of R146, and the
state right after reset (R42, with the values notes/assumptions/1.md names where the source states none). -/

namespace Sys2Proof.Machine

/-- R29: the fail status of a core. The code is absent on a core other than the lead, which composes none. -/
inductive FStat where
  | running
  | failing (code : Option Code)
  | halted (code : Option Code)
deriving DecidableEq, Repr

/-- R28: the two events the block hands to the console sink. -/
inductive ConEvent where
  /-- `ConsoleTxReset` (R135) -/
  | txReset
  /-- `Hex32(w)` (R134) -/
  | hex32 (w : Word)
deriving DecidableEq, Repr

/-- R27: the three GPIO words. -/
inductive GpioReg where
  | val
  | en
  | inv
deriving DecidableEq, Repr

/-- R41: the events of a run's history. `h` is the core that performs the primitive. -/
inductive Event where
  /-- a controller read: offset, word read -/
  | ioR (h off : Nat) (v : Word)
  /-- a controller write: offset, word written -/
  | ioW (h off : Nat) (v : Word)
  /-- a byte write to system memory -/
  | mem (h addr : Nat) (v : Byte)
  /-- an atomic GPIO operation: operation, offset, mask, the word before it -/
  | gpio (h : Nat) (op : AmoOp) (off : Nat) (mask old : Word)
  /-- a console event -/
  | con (h : Nat) (e : ConEvent)
  /-- an engine exchange: byte out, byte in -/
  | ex (mosi miso : Byte)
deriving DecidableEq, Repr

/-- R129: how `diag_decode` classifies a code. -/
inductive DiagClass where
  | logic
  | trap
  | notEncoderOutput
deriving DecidableEq, Repr

/-- R129: the record `diag_decode` returns. -/
structure DiagFields where
  stage : BitVec 4
  trap : BitVec 4
  payload : BitVec 56
  intr : Option (BitVec 1)
  causeLow : Option (BitVec 55)
  cls : DiagClass
deriving DecidableEq, Repr

/-- R15, R77: the value an operation returns to its caller. -/
inductive Result where
  /-- the operation has no result (`tx`, `frame_begin`, `frame_end`) -/
  | unit
  /-- `rx`, `txrx` -/
  | byte (b : Byte)
  /-- `copy`: the unit-like value `Ok` (R108) -/
  | ok
  /-- `clkdiv` -/
  | divisor (d : Word)
  /-- `diag_encode` -/
  | code (d : Code)
  /-- `diag_decode` -/
  | fields (r : DiagFields)
deriving DecidableEq, Repr

/-- One primitive of the pseudocode (R9) in what is left of an operation. A poll is one primitive: it stays at the head of
the list until a read shows the awaited value (R85, R87). notes/assumptions/10.md (DESIGN CHOICE). -/
inductive Prim where
  /-- one read of `poll_tx_space` (R85) -/
  | pollTx
  /-- the TXDATA write of `tx` (R90) -/
  | send (b : Byte)
  /-- one RXRDY read of `poll_rx` (R87) -/
  | pollRx
  /-- the RXDATA read that follows the ready read when `P_RX_SAME_READ` is false (R87) -/
  | readRx
  /-- the INH read of `frame_begin` and `frame_end` (R100, R101) -/
  | readInh
  /-- the INH write: `true` for `frame_begin`, `false` for `frame_end` -/
  | writeInh (begins : Bool)
  /-- `MemWrite(addr, 1, x)` of `copy`, x the byte just received (R102) -/
  | store (addr : Nat)
  /-- what is left of `copy`'s loop: n data bytes, the next one for `addr` (R102); unfolding it is no access -/
  | copyBytes (addr n : Nat)
  /-- a console event of `fail` (R134) -/
  | con (e : ConEvent)
  /-- an atomic GPIO operation of `fail` (R137) -/
  | gpio (r : GpioReg)
  /-- `halt` (R139) -/
  | halt
  /-- the operation returns this result -/
  | ret (r : Result)
  /-- the operation returns the byte just received -/
  | retByte
deriving DecidableEq, Repr

/-- The faults of R145. Each ends the run of the agent that faulted, and is recorded in its state (notes/assumptions/12.md,
DESIGN CHOICE); what R145 records is the constructor's arguments. All are SAFE: the spec gives the agent no behaviour
there. -/
inductive Fault where
  /-- `F_FOREIGN_ACCESS`, raised by any controller access of a core that is not the lead (R26): core, operation. Safe. -/
  | foreignAccess (core : Nat) (op : Option Instr)
  /-- `F_TX_OVERFLOW`, raised by a TXDATA write into a full `txq` (R35): the byte. Safe. -/
  | txOverflow (b : Byte)
  /-- `F_RX_OVERFLOW`, raised by an engine step into a full `rxq` (R37): the MISO byte. Safe. -/
  | rxOverflow (miso : Byte)
  /-- `F_RX_UNDERFLOW`, raised by an RXDATA read of an empty `rxq` (R36). Safe. -/
  | rxUnderflow
  /-- `F_NESTED_FAIL`, raised by `fail` or a trap on a core that is failing or halted (R152): core, new cause. Safe. -/
  | nestedFail (core : Nat) (cause : Code)
deriving DecidableEq, Repr

/-- The refusals of R146, and two of this model. A refused operation performs no access, and its core keeps the mark. All are
SAFE. -/
inductive Refusal where
  /-- an operation without a meaning in this model: raised by exec's arm, by none now. Safe. -/
  | notModelled (mnemonic : String)
  /-- `RF_UNKNOWN_OP`, raised by the decoder on a selector outside R77. Safe. -/
  | unknownOp (selector : Byte)
  /-- `RF_CONFIG`, raised by a step of a machine whose launch state fails `LP_CONFIG_OK` (R43). Safe. -/
  | config
  /-- `RF_DST_WRAP`, raised by `copy` when `dst + size > 2^32` (R106). Safe. -/
  | dstWrap
  /-- raised by `copy` when its range meets the controller's or the GPIO's register block, which R57 and R106 forbid and
  give no effect (notes/assumptions/9.md). Safe. -/
  | dstOverlap
  /-- `RF_CLKDIV_DOMAIN`, raised by `clkdiv` outside the domain of R115. Safe. -/
  | clkdivDomain
  /-- `RF_TRAP_FLAG`, raised by `diag_encode` and by `fail` on the lead core when `is_trap` is not 0 or 1 (R125). Safe. -/
  | trapFlag
  /-- `RF_PAYLOAD_WIDTH`, raised by `diag_encode` and by `fail` on the lead core when a logic code needs more than 56
  bits (R130). Safe. -/
  | payloadWidth
deriving DecidableEq, Repr

/-- How an agent's run has ended, where the spec gives it no further behaviour (R9). Nothing ever clears it. -/
inductive Stop where
  /-- in a fault (R145) -/
  | fault (r : Fault)
  /-- in a refusal: the mark of R146 -/
  | refused (r : Refusal)
deriving DecidableEq, Repr

/-- One core (R29), with the operation it is in: what the pseudocode holds in its local variables while it runs
(notes/assumptions/13.md, DESIGN CHOICE). -/
structure Core where
  /-- `fstat[h]` of R29 -/
  fstat : FStat
  /-- the operation in progress, if any (R99: at most one) -/
  op : Option Instr
  /-- the primitives left of it, in program order (R59); empty when no operation is in progress -/
  todo : List Prim
  /-- the pseudocode's `w` of R100 and R101: the INH word last read -/
  inhWord : Word
  /-- the pseudocode's `x` of R93 and R102: the byte last received -/
  rxByte : Byte
  /-- the hardware cause register (R144, R150), written when the core takes a trap (notes/assumptions/14.md,
  DESIGN CHOICE) -/
  cause : Code
  /-- the fault or the refusal in which the core's run has ended (R145, R146), if it has -/
  stop : Option Stop
deriving DecidableEq, Repr

/-- R13: whose turn comes next. The order of turns is open, so it is data of the state and every order is a state
(notes/assumptions/10.md, DESIGN CHOICE). -/
inductive Turn where
  /-- core `h` performs its next primitive; an idle executing core starts its next operation -/
  | core (h : Nat)
  /-- the engine takes one step (R31) -/
  | engine
  /-- the trap source starts the trap entry on core `h` (R150) -/
  | trap (h : Nat) (cause : Code)
  /-- a core other than the lead calls `fail` (R13, R136) -/
  | call (h : Nat) (code : Code) (isTrap : Byte)
deriving DecidableEq, Repr

/-- One operation of a program as it is stored: the selector byte of R77, then the operands' bytes (Decode.lean). -/
abbrev Slot := List Byte

/-- The whole machine. Every field is plain data. -/
structure State where
  /-- the parameters of R6; no operation changes them -/
  cfg : Config
  -- the reference controller (R30)
  /-- TX FIFO, head first -/
  txq : List Byte
  /-- RX FIFO, head first -/
  rxq : List Byte
  /-- the INH word -/
  inh : Word
  /-- the word last written to TXDATA (R20); nothing reads it -/
  txdata : Word
  /-- the wire trace (R34), oldest first -/
  wire : List Exchange
  /-- the words of the controller's other registers (R25), in the order of `cfg.otherOffs`; nothing reads or writes them -/
  otherRegs : List Word
  /-- the fault in which the engine's run has ended (R145), if it has -/
  engineFault : Option Fault
  -- the GPIO block (R27)
  /-- VAL, output value -/
  gpioVal : Word
  /-- EN, output enable -/
  gpioEn : Word
  /-- INV, output invert -/
  gpioInv : Word
  /-- the console sink's record (R28), oldest first -/
  console : List ConEvent
  /-- system memory (R44) in the canonical form of Machine/Memory.lean -/
  mem : List Host.Cell
  /-- the cores (R13, R29), core `h` at position `h` -/
  cores : List Core
  /-- the core that runs the program: the lead core in every run of R13 -/
  cur : Nat
  /-- the program of operations (R16) -/
  prog : List Slot
  /-- the position in it (R16) -/
  idx : Nat
  /-- what its operations have returned (R15), oldest first -/
  results : List Result
  /-- the run's history (R41), oldest first -/
  hist : List Event
  -- the model's own inputs: what the spec leaves to the environment
  /-- the turns to come (R13); once it is empty the executing core goes on alone -/
  sched : List Turn
  /-- `A_ENGINE_LIVE` (R180) as data: with no turn listed, the engine steps whenever a poll waits and `txq` is non-empty
  (notes/assumptions/11.md, DESIGN CHOICE) -/
  engineLive : Bool
  /-- the SPI device's next answers (R33); when none is listed the answer is `Config.deviceAnswer` -/
  miso : List Byte
  /-- the next controller draws (R24, R32, R36); when none is listed the draw is `Config.freeWord nDraws` -/
  draws : List Word
  /-- how many unlisted draws were taken -/
  nDraws : Nat
deriving DecidableEq, Repr

/-- What one turn of one agent comes to. -/
inductive Micro where
  /-- the agent moved, or its run ended, or its turn was not enabled -/
  | moved (s : State)
  /-- the core read a poll's register and the awaited value was not there -/
  | spun (s : State)
deriving DecidableEq, Repr

/-- A core at reset: `Running` (R42), no operation in progress. The cause register and the two local words are zero
(notes/assumptions/1.md, DESIGN CHOICE). -/
def Core.reset : Core where
  fstat := .running
  op := none
  todo := []
  inhWord := 0
  rxByte := 0
  cause := 0
  stop := none

/-- The machine right after reset. R42 states `wire`, the console record and `fstat`; every other value is
notes/assumptions/1.md's or 2.md's (DESIGN CHOICE). No program is loaded (notes/assumptions/3.md). -/
def State.reset : State where
  cfg := Config.ref
  txq := []
  rxq := []
  inh := 0
  txdata := 0
  wire := []
  otherRegs := [0, 0, 0]
  engineFault := none
  gpioVal := 0
  gpioEn := 0
  gpioInv := 0
  console := []
  mem := []
  cores := [Core.reset, Core.reset]
  cur := 0
  prog := []
  idx := 0
  results := []
  hist := []
  sched := []
  engineLive := true
  miso := []
  draws := []
  nDraws := 0

end Sys2Proof.Machine
end

