-- ==== Sys2Proof/Machine/Memory.lean ====
section
/-! DEFINITION. System memory (spec/20_memory.md R45, spec/10_state.md R44): bytes at physical addresses, held as a list of
cells with strictly rising addresses. A byte nothing has written has no value (R44: contents at launch unspecified;
notes/assumptions/4.md), so no cell can equal what an unlisted address reads as, and the rising order alone is the canonical
form. -/

namespace Sys2Proof.Machine

/-- The byte at `a`, none where nothing has written. -/
def readMem : List Host.Cell → Nat → Option Byte
  | [], _ => none
  | (k, v) :: m, a => if a = k then some v else readMem m a

/-- Write `b` at `a`, keeping the addresses strictly rising. -/
def writeMem : List Host.Cell → Nat → Byte → List Host.Cell
  | [], a, b => [(a, b)]
  | (k, v) :: m, a, b =>
    if a < k then (a, b) :: (k, v) :: m
    else if a = k then (a, b) :: m
    else (k, v) :: writeMem m a b

/-- The canonical form: strictly rising addresses. -/
def Memory.wf : List Host.Cell → Bool
  | [] => true
  | [_] => true
  | (a, _) :: (b, w) :: m => decide (a < b) && Memory.wf ((b, w) :: m)

end Sys2Proof.Machine
end

