-- ==== Sys2Proof/Machine/Flags.lean ====
section
/-! DEFINITION. The block has no status flags and no condition codes (spec/10_state.md R17). What it tests instead are
fields of register words: this file holds every such test. -/

namespace Sys2Proof.Machine

/-- `TXCNT_LIMIT` of R6: fixed at 0x0F. -/
def txcntLimit : Byte := 0x0F

/-- R85, R86: the top byte lets the write go ahead (unsigned compare). -/
def txSpace (top : Byte) : Bool := decide (top < txcntLimit)

/-- R67: the top byte of a TXCNT word. -/
def txcntTop (w : Word) : Byte := w.extractLsb' 24 8

/-- R68: the receive-ready indicator of an RXRDY word. -/
def rxReady (mask w : Word) : Bool := (w &&& mask) != 0

/-- R70: the transaction-inhibit bit of an INH word. -/
def inhLevel (bit : Nat) (w : Word) : Bool := w.getLsbD bit

/-- R137: the one-bit mask of the fault indicator. -/
def faultMask (bit : Nat) : Word := 1#32 <<< bit

end Sys2Proof.Machine
end

