-- ==== Sys2Proof/Machine/Operands.lean ====
section
/-! DEFINITION. How operands and words are put together and taken apart: the register words of spec/30_encoding.md R66 to R70,
the address bytes of `copy` (R75), the clock divisor (R112), the payload and the code (R121 to R126), and the fields of a
code (R84). -/

namespace Sys2Proof.Machine

/-- The byte field of a register word at position `lsb` (R66, R69). -/
def getField (lsb : Nat) (w : Word) : Byte := w.extractLsb' lsb 8

/-- A register word with its byte field replaced, every other bit kept. -/
def setField (lsb : Nat) (w : Word) (b : Byte) : Word :=
  (w &&& ~~~(0xFF#32 <<< lsb)) ||| (b.setWidth 32 <<< lsb)

/-- R66: the word `tx` writes: the byte in its field, every other bit 0. -/
def txWord (lsb : Nat) (b : Byte) : Word := b.setWidth 32 <<< lsb

/-- R32: a TXCNT word of the reference controller: its top byte, its other bits a draw. -/
def txcntWord (top : Byte) (draw : Word) : Word := top ++ draw.setWidth 24

/-- R32: an RXRDY word of the reference controller: the indicator says `ready`, every other bit is a draw. With a mask of
several bits, which of them are set when ready is the draw's, unless the draw sets none
(notes/assumptions/15.md, DESIGN CHOICE). -/
def rxrdyWord (mask : Word) (ready : Bool) (draw : Word) : Word :=
  if ready then (if rxReady mask draw then draw else draw ||| mask) else draw &&& ~~~mask

/-- R100, R101: the INH word with the inhibit bit at the given level, every other bit as read. -/
def withInhibit (bit : Nat) (level : Bool) (w : Word) : Word :=
  if level then w ||| (1#32 <<< bit) else w &&& ~~~(1#32 <<< bit)

/-- R100, R101: the level a frame's begin (`true`) or end (`false`) writes. -/
def frameLevel (cfg : Config) (begins : Bool) : Bool := if begins then cfg.inhBegin else !cfg.inhBegin

/-- R47, R75, R103: the three address bytes on the wire, most significant first; bits 31 to 24 are not sent. -/
def addrBytes (addr : Word) : List Byte :=
  [addr.extractLsb' 16 8, addr.extractLsb' 8 8, addr.extractLsb' 0 8]

/-- R112, R115: the clock divisor, none outside the domain. All of it is in the naturals, so nothing wraps. -/
def clkdivValue (input target : Word) : Option Word :=
  if target.toNat = 0 then none
  else if input.toNat + 2 * target.toNat - 1 > 2 ^ 32 - 1 then none
  else
    let q := (input.toNat + 2 * target.toNat - 1) / (2 * target.toNat)
    some (BitVec.ofNat 32 (if q = 0 then 0 else q - 1))

/-- R121: the compressed trap cause. -/
def trapPayload (cause : Code) : BitVec 56 := cause.extractLsb' 63 1 ++ cause.extractLsb' 0 55

/-- R122: the payload of a logic code, refused when the code needs more than 56 bits. -/
def logicPayload (code : Code) : Except Refusal (BitVec 56) :=
  if code.toNat ≥ 2 ^ 56 then .error .payloadWidth else .ok (code.extractLsb' 0 56)

/-- R123: which of the two. -/
def payloadOf (isTrap : Byte) (code : Code) : Except Refusal (BitVec 56) :=
  if isTrap = 1 then .ok (trapPayload code) else logicPayload code

/-- R126: stage, trap flag and payload, most significant first. -/
def packCode (stage : BitVec 4) (isTrap : Byte) (payload : BitVec 56) : Code :=
  (stage ++ isTrap.setWidth 4) ++ payload

/-- R126: `diag_encode`. -/
def composeCode (stage : BitVec 4) (isTrap : Byte) (code : Code) : Except Refusal Code :=
  if isTrap = 0 ∨ isTrap = 1 then
    match payloadOf isTrap code with
    | .ok p => .ok (packCode stage isTrap p)
    | .error r => .error r
  else .error .trapFlag

/-- R84, R129: `diag_decode`. -/
def decodeCode (d : Code) : DiagFields :=
  let stage := d.extractLsb' 60 4
  let trap := d.extractLsb' 56 4
  let payload := d.extractLsb' 0 56
  if trap = 0 then ⟨stage, trap, payload, none, none, .logic⟩
  else if trap = 1 then ⟨stage, trap, payload, some (d.extractLsb' 55 1), some (d.extractLsb' 0 55), .trap⟩
  else ⟨stage, trap, payload, none, none, .notEncoderOutput⟩

/-- R50, R134: the high half of a code, emitted first. -/
def hiHalf (d : Code) : Word := d.extractLsb' 32 32

/-- R50, R134: the low half of a code. -/
def loHalf (d : Code) : Word := d.extractLsb' 0 32

/-- The place of an enumerant in the table of its values. -/
def errIndex : BootError → Nat
  | .unhandledMedium => 0
  | .unhandledBootRoutine => 1
  | .partitionNotFound => 2
  | .mediumCopy => 3
  | .sdCmd0 => 4
  | .sdCmd8 => 5
  | .sdAcmd41 => 6
  | .sdCmd58 => 7
  | .sdCmd16 => 8
  | .sdCmd18 => 9
  | .sdCmd18Crc => 10
  | .unexpected => 11

/-- R119: `P_ERRCODE(e)`. -/
def errCode (cfg : Config) (e : BootError) : Code := cfg.errCodes.getD (errIndex e) 0

end Sys2Proof.Machine
end

