-- ==== Sys2Proof/Machine/Ops.lean ====
section
/-! DEFINITION. The named operations over the state: cores, history, controller, GPIO, console and memory
(spec/00_scope.md R9, spec/10_state.md R24 to R36), what the operations are made of (R82), and the failure and trap
entry (R133, R150). -/

namespace Sys2Proof.Machine

/-! ## Cores and history -/

/-- Core `h` (R29). -/
def State.core (s : State) (h : Nat) : Core := s.cores.getD h Core.reset

/-- The state with core `h` replaced. -/
def State.setCore (s : State) (h : Nat) (c : Core) : State := { s with cores := s.cores.set h c }

/-- The state with core `h` left with these primitives. -/
def State.setTodo (s : State) (h : Nat) (ps : List Prim) : State := s.setCore h { s.core h with todo := ps }

/-- R9, R145, R146: core `h`'s run ends in a fault or a refusal. Nothing of its operation is left to do; everything else stays
as it is, and the other agents go on. -/
def State.stopCore (s : State) (h : Nat) (x : Stop) : State :=
  s.setCore h { s.core h with stop := some x, todo := [] }

/-- R41: the history with one event more. -/
def State.record (s : State) (e : Event) : State := { s with hist := s.hist ++ [e] }

/-- The next controller draw (R24, R32): the first listed one, or the free value. -/
def State.draw (s : State) : Word :=
  match s.draws with
  | w :: _ => w
  | [] => Config.freeWord s.nDraws

/-- The state once that draw is taken. -/
def State.drawn (s : State) : State :=
  match s.draws with
  | _ :: ws => { s with draws := ws }
  | [] => { s with nDraws := s.nDraws + 1 }

/-- The device's next answer (R33): the first listed one, or the free value. -/
def State.answer (s : State) (level : Bool) (mosi : Byte) : Byte :=
  match s.miso with
  | r :: _ => r
  | [] => Config.deviceAnswer level mosi s.wire

/-- The state once that answer is given. -/
def State.answered (s : State) : State := { s with miso := s.miso.tail }

/-! ## Controller reads and writes

Each read gives the field the driver looks at, the whole word the history records, and the state after. Laws/Ops.lean
shows that the field is the word's field. -/

/-- R19, R32: a TXCNT read: the top byte and the word. -/
def readTxcnt (h : Nat) (s : State) : Byte × State :=
  let w := match s.cfg.iface with
    | .generic => s.draw
    | .reference => txcntWord (s.cfg.txcntFn.getD s.txq.length 0xFF) s.draw
  let top := match s.cfg.iface with
    | .generic => txcntTop w
    | .reference => s.cfg.txcntFn.getD s.txq.length 0xFF
  (top, s.drawn.record (.ioR h s.cfg.offTxcnt w))

/-- The RXRDY word a read sees (R32): a draw under the generic interface. Under the reference controller the indicator
says whether `rxq` is non-empty, and with `P_RX_SAME_READ` a ready word carries the head of `rxq`. -/
def rxrdyRead (s : State) : Word :=
  match s.cfg.iface with
  | .generic => s.draw
  | .reference =>
    match s.rxq with
    | [] => rxrdyWord s.cfg.rxrdyMask false s.draw
    | b :: _ =>
      let w := rxrdyWord s.cfg.rxrdyMask true s.draw
      if s.cfg.rxSameRead then setField s.cfg.rxByteLsb w b else w

/-- R21, R32: an RXRDY read: whether a byte is available, the byte such a read carries when `P_RX_SAME_READ` holds, and
the state after (R36: then the ready read pops `rxq`). Where RXRDY and RXDATA are one word and `P_RX_SAME_READ` is false, a
poll's read has no side effect. notes/assumptions/30.md (DESIGN CHOICE). -/
def readRxrdy (h : Nat) (s : State) : Bool × Byte × State :=
  let w := rxrdyRead s
  let s' := s.drawn.record (.ioR h s.cfg.offRxrdy w)
  match s.cfg.iface with
  | .generic => (rxReady s.cfg.rxrdyMask w, getField s.cfg.rxByteLsb w, s')
  | .reference =>
    match s.rxq with
    | [] => (false, 0, s')
    | b :: q => (true, b, if s.cfg.rxSameRead then { s' with rxq := q } else s')

/-- R22, R36: an RXDATA read: the byte and the state after, or none where the reference controller's `rxq` is empty.
Where RXRDY and RXDATA are one word and `P_RX_SAME_READ` is false, the read that follows the poll is the one that pops `rxq`.
notes/assumptions/30.md (DESIGN CHOICE). -/
def readRxdata (h : Nat) (s : State) : Option (Byte × State) :=
  match s.cfg.iface with
  | .generic => some (getField s.cfg.rxByteLsb s.draw, s.drawn.record (.ioR h s.cfg.offRxdata s.draw))
  | .reference =>
    match s.rxq with
    | [] => none
    | b :: q =>
      let w := setField s.cfg.rxByteLsb s.draw b
      some (b, { s.drawn.record (.ioR h s.cfg.offRxdata w) with rxq := q })

/-- R24: the word last written to an offset in a history. -/
def lastWritten (off : Nat) : List Event → Option Word
  | [] => none
  | e :: es =>
    match lastWritten off es with
    | some w => some w
    | none =>
      match e with
      | .ioW _ o w => if o = off then some w else none
      | _ => none

/-- R24, R32: an INH read: the word and the state after. The generic interface reads back what the block last wrote, and
draws until it has written. -/
def readInhWord (h : Nat) (s : State) : Word × State :=
  match s.cfg.iface with
  | .reference => (s.inh, s.record (.ioR h s.cfg.offInh s.inh))
  | .generic =>
    match lastWritten s.cfg.offInh s.hist with
    | some w => (w, s.record (.ioR h s.cfg.offInh w))
    | none => (s.draw, s.drawn.record (.ioR h s.cfg.offInh s.draw))

/-- R20, R35: the TXDATA write, none where the reference controller's `txq` is full. -/
def writeTxdata (h : Nat) (b : Byte) (s : State) : Option State :=
  let w := txWord s.cfg.txByteLsb b
  let s' := { s.record (.ioW h s.cfg.offTxdata w) with txdata := w }
  match s.cfg.iface with
  | .generic => some s'
  | .reference =>
    if s.txq.length = s.cfg.txDepth then none
    else some { s' with txq := s.txq ++ [getField s.cfg.txByteLsb w] }

/-- R23, R35: the INH write. -/
def writeInhWord (h : Nat) (w : Word) (s : State) : State :=
  let s' := s.record (.ioW h s.cfg.offInh w)
  match s.cfg.iface with
  | .generic => s'
  | .reference => { s' with inh := w }

/-- R31: one exchange of the engine; not enabled while `txq` is empty or once the engine has faulted, and under the generic
interface there is no engine to step (R24). Into a full `rxq` the exchange goes over the wire and the engine faults (R37;
notes/assumptions/28.md, DEDUCED). -/
def engineStep (s : State) : State :=
  match s.cfg.iface, s.engineFault, s.txq with
  | .reference, none, b :: q =>
    let lvl := inhLevel s.cfg.inhibitBit s.inh
    let r := s.answer lvl b
    let s' : State := { s.answered.record (.ex b r) with txq := q, wire := s.wire ++ [⟨lvl, b, r⟩] }
    if s.rxq.length = s.cfg.rxDepth then { s' with engineFault := some (.rxOverflow r) }
    else { s' with rxq := s.rxq ++ [r] }
  | _, _, _ => s

/-! ## GPIO, console and memory -/

/-- The GPIO word (R27). -/
def State.gpio (s : State) : GpioReg → Word
  | .val => s.gpioVal
  | .en => s.gpioEn
  | .inv => s.gpioInv

/-- The state with one GPIO word replaced. -/
def State.setGpio (s : State) (r : GpioReg) (w : Word) : State :=
  match r with
  | .val => { s with gpioVal := w }
  | .en => { s with gpioEn := w }
  | .inv => { s with gpioInv := w }

/-- The offset of a GPIO word (R27). -/
def gpioOff (cfg : Config) : GpioReg → Nat
  | .val => cfg.gpioOffVal
  | .en => cfg.gpioOffEn
  | .inv => cfg.gpioOffInv

/-- R137: the operation the fail path does on each GPIO word. -/
def gpioOp (cfg : Config) : GpioReg → AmoOp
  | .val => .or
  | .en => .or
  | .inv => cfg.gpioInvertOp

/-- R62: what an atomic operation writes. -/
def amoResult (op : AmoOp) (old mask : Word) : Word :=
  match op with
  | .or => old ||| mask
  | .xor => old ^^^ mask

/-- R62, R137: `GpioAmo` on one word with the fault indicator's mask, in one indivisible step. -/
def gpioAmo (h : Nat) (r : GpioReg) (s : State) : State :=
  let m := faultMask s.cfg.gpioFaultBit
  let op := gpioOp s.cfg r
  (s.record (.gpio h op (gpioOff s.cfg r) m (s.gpio r))).setGpio r (amoResult op (s.gpio r) m)

/-- R28: hand an event to the console sink. -/
def consoleOut (h : Nat) (e : ConEvent) (s : State) : State :=
  { s.record (.con h e) with console := s.console ++ [e] }

/-- R9, R44: `MemWrite(a, 1, b)`. -/
def storeByte (h a : Nat) (b : Byte) (s : State) : State :=
  { s.record (.mem h a b) with mem := writeMem s.mem a b }

/-- R16: an operation returns: its result goes to the caller and the position advances by one. -/
def State.retire (s : State) (r : Result) : State := { s with results := s.results ++ [r], idx := s.idx + 1 }

/-! ## What the operations are made of -/

/-- R90: `tx b`. -/
def txPlan (b : Byte) : List Prim := [.pollTx, .send b]

/-- R87, R93: the byte's arrival: with `P_RX_SAME_READ` the ready read carries it. -/
def rxPlan (cfg : Config) : List Prim := if cfg.rxSameRead then [.pollRx] else [.pollRx, .readRx]

/-- R82, R96: `txrx b` is `tx b` and then `rx`. -/
def txrxPlan (cfg : Config) (b : Byte) : List Prim := txPlan b ++ rxPlan cfg

/-- R100 (`true`) and R101 (`false`): the read-modify-write of INH. -/
def framePlan (begins : Bool) : List Prim := [.readInh, .writeInh begins]

/-- R102: the command bytes of `copy`: the read opcode, then the address (R75). -/
def commandPlan (cfg : Config) (addr : Word) : List Prim :=
  (cfg.readOpcode :: addrBytes addr).flatMap (txrxPlan cfg)

/-- R82, R102: `copy`. -/
def copyPlan (cfg : Config) (dst addr size : Word) : List Prim :=
  framePlan true ++ commandPlan cfg addr ++ [.copyBytes dst.toNat size.toNat] ++ framePlan false

/-- R133: what is left of `fail` once the code is composed; a core without a code emits none (R136). -/
def failPlan (code : Option Code) : List Prim :=
  (match code with
    | some d => [.con .txReset, .con (.hex32 (hiHalf d)), .con (.hex32 (loHalf d))]
    | none => []) ++ [.gpio .val, .gpio .en, .gpio .inv, .halt]

/-! ## Failing and taking a trap -/

/-- R133: core `h` enters `fail`. The lead core composes the code first, which may refuse; any other core composes none and
checks nothing. Whatever operation the core was in is abandoned as it stands (R151). On a core that is failing or halted
it is the fault of R152. -/
def enterFail (h : Nat) (code : Code) (isTrap : Byte) (s : State) : State :=
  let c := s.core h
  match c.fstat with
  | .running =>
    if h = s.cfg.leadHart then
      match composeCode s.cfg.bootstage isTrap code with
      | .ok d => s.setCore h { c with
          fstat := .failing (some d), op := some (.fail code isTrap), todo := failPlan (some d) }
      | .error r => s.stopCore h (.refused r)
    else s.setCore h { c with
      fstat := .failing none, op := some (.fail code isTrap), todo := failPlan none }
  | _ => s.stopCore h (.fault (.nestedFail h code))

/-- TAKING A TRAP (R150): the cause register takes the cause, and the one trap vector calls the fail path with
`is_trap = 1`. Nothing else is saved: the spec names no other saved state. On a core that is failing or halted it is a
nested failure (R152). THE RETURN FROM A TRAP: there is none (R154). notes/assumptions/18.md (DESIGN CHOICE). -/
def takeTrap (h : Nat) (cause : Code) (s : State) : State :=
  enterFail h cause 1 (s.setCore h { s.core h with cause := cause })

end Sys2Proof.Machine
end

