-- ==== Sys2Proof/Machine/Turn.lean ====
section
/-! DEFINITION. How the agents of spec/00_scope.md R13 take turns: one primitive of a core (R9), one turn of an agent, and
the run of an operation in progress until it has returned, or its core waits in a poll with no turn listed. -/

namespace Sys2Proof.Machine

/-- R26: a controller access by a core other than the lead is a fault and is not performed. -/
def onController (h : Nat) (s : State) (k : Micro) : Micro :=
  if h = s.cfg.leadHart then k else .moved (s.stopCore h (.fault (.foreignAccess h (s.core h).op)))

/-- Core `h` performs the primitive `p` at the head of its list; `ps` is what follows it, of which an operation that
returns leaves nothing. A primitive that faults accesses nothing and ends the core's run (notes/assumptions/28.md, DEDUCED).
`halt` records no event in the history, since R41 lists none for it. notes/assumptions/33.md (DESIGN CHOICE). -/
def prim (h : Nat) (p : Prim) (ps : List Prim) (s : State) : Micro :=
  match p with
  | .pollTx => onController h s <|
      let r := readTxcnt h s
      if txSpace r.1 then .moved (r.2.setTodo h ps) else .spun r.2
  | .send b => onController h s <|
      match writeTxdata h b s with
      | some s' => .moved (s'.setTodo h ps)
      | none => .moved (s.stopCore h (.fault (.txOverflow b)))
  | .pollRx => onController h s <|
      let r := readRxrdy h s
      if r.1 then
        let c := r.2.2.core h
        .moved (r.2.2.setCore h { c with
          todo := ps, rxByte := if s.cfg.rxSameRead then r.2.1 else c.rxByte })
      else .spun r.2.2
  | .readRx => onController h s <|
      match readRxdata h s with
      | some r => .moved (r.2.setCore h { r.2.core h with todo := ps, rxByte := r.1 })
      | none => .moved (s.stopCore h (.fault .rxUnderflow))
  | .readInh => onController h s <|
      let r := readInhWord h s
      .moved (r.2.setCore h { r.2.core h with todo := ps, inhWord := r.1 })
  | .writeInh begins => onController h s <|
      .moved ((writeInhWord h
        (withInhibit s.cfg.inhibitBit (frameLevel s.cfg begins) (s.core h).inhWord) s).setTodo h ps)
  | .store a => .moved ((storeByte h a (s.core h).rxByte s).setTodo h ps)
  | .copyBytes _ 0 => .moved (s.setTodo h ps)
  | .copyBytes a (n + 1) =>
      .moved (s.setTodo h (txrxPlan s.cfg 0 ++ ([.store a, .copyBytes (a + 1) n] ++ ps)))
  | .con e => .moved ((consoleOut h e s).setTodo h ps)
  | .gpio r => .moved ((gpioAmo h r s).setTodo h ps)
  | .halt =>
      let c := s.core h
      let d := match c.fstat with
        | .running => none
        | .failing d => d
        | .halted d => d
      .moved (s.setCore h { c with fstat := .halted d, todo := [] })
  | .ret r => .moved ((s.retire r).setCore h { s.core h with op := none, todo := [] })
  | .retByte => .moved ((s.retire (.byte (s.core h).rxByte)).setCore h { s.core h with op := none, todo := [] })

/-- The turn of core `h`: its next primitive. A core with no operation in progress has none; a `Halted` core never
does anything (R139). -/
def coreTurn (h : Nat) (s : State) : Micro :=
  match (s.core h).todo with
  | [] => .moved s
  | p :: ps => prim h p ps s

/-- The core is one of the machine's and its run has not ended in a fault or a refusal. -/
def State.goesOn (s : State) (h : Nat) : Bool := decide (h < s.cores.length) && (s.core h).stop.isNone

/-- One listed turn (R13). A core the machine does not have, or whose run has ended, takes none; the lead core calls `fail`
only from its own program, and a core inside an operation calls nothing (R99). notes/assumptions/20.md (DESIGN CHOICE). -/
def turn (t : Turn) (s : State) : Micro :=
  match t with
  | .core h => coreTurn h s
  | .engine => .moved (engineStep s)
  | .trap h cause => if s.goesOn h then .moved (takeTrap h cause s) else .moved s
  | .call h code isTrap =>
      if s.goesOn h ∧ h ≠ s.cfg.leadHart ∧ ((s.core h).fstat ≠ .running ∨ (s.core h).todo = []) then
        .moved (enterFail h code isTrap s)
      else .moved s

/-- With no turn listed, the reference controller's engine is live and has a byte to send (R180). -/
def engineDue (s : State) : Bool :=
  s.cfg.iface == .reference && s.engineLive && s.engineFault.isNone && !s.txq.isEmpty

/-- A poll read did not show the awaited value and no turn is listed. Does anything happen before the next read? Under
the reference controller the engine steps if it is live and has a byte to send (R180); under the generic interface another
listed draw may satisfy the poll. Otherwise `none`: the core waits here, and reads again at its next step (R89).
notes/assumptions/11.md and 27.md (DESIGN CHOICE). -/
def waitTurn (s : State) : Option State :=
  match s.cfg.iface with
  | .generic => if s.draws = [] then none else some s
  | .reference => if engineDue s then some (engineStep s) else none

/-- The state a turn leaves. -/
def Micro.state : Micro → State
  | .moved s => s
  | .spun s => s

/-- Up to `n` turns, until the executing core has no operation in progress or waits. Nothing is lost where it stops: the
rest of the operation is in the state, and the next step goes on with it (R175: the count is no timeout). -/
def drive : Nat → State → State
  | 0, s => s
  | n + 1, s =>
    if (s.core s.cur).todo = [] then s
    else
      match s.sched with
      | t :: ts => drive n (turn t { s with sched := ts }).state
      | [] =>
        match coreTurn s.cur s with
        | .moved s' => drive n s'
        | .spun s' =>
          match waitTurn s' with
          | none => s'
          | some s'' => drive n s''

/-- How many turns a primitive takes at most, polls aside. -/
def primCost : Prim → Nat
  | .copyBytes _ n => 6 * n + 1
  | _ => 1

/-- The turns left of an operation, polls aside. -/
def planCost (ps : List Prim) : Nat := (ps.map primCost).sum

/-- A count of turns that is never reached: within it the operation has returned or its core waits in a poll
(Laws/Turn.lean). -/
def burst (s : State) : Nat :=
  2 * s.sched.length + s.draws.length + s.txq.length + 2 * planCost (s.core s.cur).todo +
    (if (s.core s.cur).fstat = .running then 16 else 0)

/-- The operation in progress on the executing core goes on until it has returned or its core waits in a poll. -/
def run (s : State) : State := drive (burst s) s

/-- The executing core has an operation in progress. -/
def State.busy (s : State) : Bool := !(s.core s.cur).todo.isEmpty

/-- What the host is told of a core whose run has ended. -/
def Stop.outcome : Stop → Host.Outcome State Fault Refusal
  | .fault r => .fault r
  | .refused r => .refused r

/-- An operation with meaning `k` on the executing core. While another is in progress it does not start, and that one goes on
(R99). A core that is no longer `Running` spins (R139), and one whose run has ended answers how (R145, R146).
notes/assumptions/19.md (DESIGN CHOICE). -/
def operate (k : State → State) (s : State) : Host.Outcome State Fault Refusal :=
  match (s.core s.cur).stop with
  | some x => x.outcome
  | none =>
    .next (if s.busy then run s else if (s.core s.cur).fstat = .running then k s else s)

/-- The executing core starts the operation `i`, made of these primitives, and it runs. -/
def perform (i : Instr) (ps : List Prim) (s : State) : State :=
  run (s.setCore s.cur { s.core s.cur with op := some i, todo := ps })

/-- The executing core's run ends in a refusal (R146). -/
def State.refuse (s : State) (r : Refusal) : State := s.stopCore s.cur (.refused r)

/-- The executing core's run ends in a fault (R145). -/
def State.raise (s : State) (r : Fault) : State := s.stopCore s.cur (.fault r)

/-- R26: an operation on the controller is the lead core's; on any other core it is a fault before any access. -/
def leadOnly (i : Instr) (k : State → State) (s : State) : State :=
  if s.cur = s.cfg.leadHart then k s else s.raise (.foreignAccess s.cur (some i))

end Sys2Proof.Machine
end

