-- ==== Sys2Proof/Machine/Clock.lean ====
section
/-! DEFINITION. The clock divisor (spec/41_spi_copy_clock.md R111 to R117). -/

namespace Sys2Proof.Machine

/-- `clkdiv input, target` (R112): it only computes (R116), and outside its domain it is refused (R115). -/
def execClkdiv (input target : Word) (s : State) : Host.Outcome State Fault Refusal :=
  operate (fun s =>
    match clkdivValue input target with
    | some d => s.retire (.divisor d)
    | none => s.refuse .clkdivDomain) s

end Sys2Proof.Machine
end

