-- ==== Sys2Proof/Machine/Diag.lean ====
section
/-! DEFINITION. The diagnostic code encoder and its inverse (spec/42_diagnostic.md R126 to R132). -/

namespace Sys2Proof.Machine

/-- `diag_encode stage, is_trap, code` (R126): a pure function of its operands (R128). -/
def execDiagEncode (stage : BitVec 4) (isTrap : Byte) (code : Code) (s : State) :
    Host.Outcome State Fault Refusal :=
  operate (fun s =>
    match composeCode stage isTrap code with
    | .ok d => s.retire (.code d)
    | .error r => s.refuse r) s

/-- `diag_decode D` (R129): total on every code. -/
def execDiagDecode (d : Code) (s : State) : Host.Outcome State Fault Refusal :=
  operate (fun s => s.retire (.fields (decodeCode d))) s

end Sys2Proof.Machine
end

