-- ==== Sys2Proof/Machine/Fail.lean ====
section
/-! DEFINITION. The fail path (spec/42_diagnostic.md R133 to R142). -/

namespace Sys2Proof.Machine

/-- `fail code, is_trap` (R133) on the executing core. A core that is failing or halted faults (R152). A running core with
another operation in progress goes on with that one (R99). `fail` never returns: the position does not advance. -/
def execFail (code : Code) (isTrap : Byte) (s : State) : Host.Outcome State Fault Refusal :=
  match (s.core s.cur).stop with
  | some x => x.outcome
  | none =>
    .next (if (s.core s.cur).fstat = .running ∧ s.busy then run s else run (enterFail s.cur code isTrap s))

end Sys2Proof.Machine
end

