-- ==== Sys2Proof/Machine/Frame.lean ====
section
/-! DEFINITION. Transaction framing and `copy` (spec/41_spi_copy_clock.md R100 to R110). -/

namespace Sys2Proof.Machine

/-- `frame_begin` (R100). -/
def execFrameBegin (s : State) : Host.Outcome State Fault Refusal :=
  operate (leadOnly .frameBegin (perform .frameBegin (framePlan true ++ [.ret .unit]))) s

/-- `frame_end` (R101). -/
def execFrameEnd (s : State) : Host.Outcome State Fault Refusal :=
  operate (leadOnly .frameEnd (perform .frameEnd (framePlan false ++ [.ret .unit]))) s

/-- The register blocks of the controller and of the GPIO: first byte address and extent (R57). -/
def deviceBlocks (cfg : Config) : List (Nat × Nat) :=
  [(cfg.spiBase, cfg.spiBytes), (cfg.gpioBase, cfg.gpioBytes)]

/-- R57: the `n` bytes from `a` meet a register block. -/
def meetsDevice (cfg : Config) (a n : Nat) : Bool :=
  (deviceBlocks cfg).any fun b => decide (a < b.1 + b.2 ∧ b.1 < a + n)

/-- `copy dst, addr, size` (R102): the checks of R106 come before any access. A range of no byte meets no block. -/
def execCopy (dst addr size : Word) (s : State) : Host.Outcome State Fault Refusal :=
  operate (leadOnly (.copy dst addr size) fun s =>
    if dst.toNat + size.toNat > 2 ^ 32 then s.refuse .dstWrap
    else if size.toNat ≠ 0 ∧ meetsDevice s.cfg dst.toNat size.toNat then s.refuse .dstOverlap
    else perform (.copy dst addr size) (copyPlan s.cfg dst addr size ++ [.ret .ok]) s) s

end Sys2Proof.Machine
end

