-- ==== Sys2Proof/Machine/Spi.lean ====
section
/-! DEFINITION. The byte transfer operations of spec/40_spi_byte.md. -/

namespace Sys2Proof.Machine

/-- `tx b` (R90). -/
def execTx (b : Byte) (s : State) : Host.Outcome State Fault Refusal :=
  operate (leadOnly (.tx b) (perform (.tx b) (txPlan b ++ [.ret .unit]))) s

/-- `rx` (R93). -/
def execRx (s : State) : Host.Outcome State Fault Refusal :=
  operate (leadOnly .rx (perform .rx (rxPlan s.cfg ++ [.retByte]))) s

/-- `txrx b` (R96). On another core than the lead, where R96 has the fault of its `tx`, the fault records the operation the core
runs, `txrx b`. notes/assumptions/31.md (DESIGN CHOICE). -/
def execTxrx (b : Byte) (s : State) : Host.Outcome State Fault Refusal :=
  operate (leadOnly (.txrx b) (perform (.txrx b) (txrxPlan s.cfg b ++ [.retByte]))) s

end Sys2Proof.Machine
end

