-- ==== Sys2Proof/Machine/Dispatch.lean ====
section
/-! DEFINITION. One arm per operation of spec/opcode_table.json. -/

namespace Sys2Proof.Machine

def exec (i : Instr) (s : State) : Host.Outcome State Fault Refusal :=
  match i with
  | .tx b => Sys2Proof.Machine.execTx b s
  | .rx => Sys2Proof.Machine.execRx s
  | .txrx b => Sys2Proof.Machine.execTxrx b s
  | .frameBegin => Sys2Proof.Machine.execFrameBegin s
  | .frameEnd => Sys2Proof.Machine.execFrameEnd s
  | .copy dst addr size => Sys2Proof.Machine.execCopy dst addr size s
  | .clkdiv input target => Sys2Proof.Machine.execClkdiv input target s
  | .diagEncode stage isTrap code => Sys2Proof.Machine.execDiagEncode stage isTrap code s
  | .diagDecode d => Sys2Proof.Machine.execDiagDecode d s
  | .fail code isTrap => Sys2Proof.Machine.execFail code isTrap s

end Sys2Proof.Machine
end

