-- ==== Sys2Proof/Machine/Launch.lean ====
section
/-! DEFINITION. The launch check `LP_CONFIG_OK` (spec/10_state.md R43, spec/20_memory.md R52, R57, spec/00_scope.md R6). -/

namespace Sys2Proof.Machine

/-- The offsets of the controller's words: the five of R18, and those of R25. -/
def spiOffs (cfg : Config) : List Nat :=
  [cfg.offTxcnt, cfg.offTxdata, cfg.offRxrdy, cfg.offRxdata, cfg.offInh] ++ cfg.otherOffs

/-- The offsets of the GPIO words (R27). -/
def gpioOffs (cfg : Config) : List Nat := [cfg.gpioOffVal, cfg.gpioOffEn, cfg.gpioOffInv]

/-- Offsets and bases are multiples of 4 (R52). -/
def alignedOk (cfg : Config) : Bool :=
  ([cfg.spiBase, cfg.gpioBase] ++ spiOffs cfg ++ gpioOffs cfg).all fun a => a % 4 == 0

/-- Of the five controller words only TXCNT and TXDATA, and RXRDY and RXDATA, may be one word (R18); the other registers are
other words (R25); the three GPIO words are three (R27). notes/assumptions/8.md (DEDUCED). -/
def distinctOk (cfg : Config) : Bool :=
  ([cfg.offTxcnt, cfg.offTxdata].all fun a =>
    [cfg.offRxrdy, cfg.offRxdata, cfg.offInh].all fun b => a != b) &&
  cfg.offRxrdy != cfg.offInh && cfg.offRxdata != cfg.offInh &&
  ([cfg.offTxcnt, cfg.offTxdata, cfg.offRxrdy, cfg.offRxdata, cfg.offInh].all fun a =>
    cfg.otherOffs.all fun b => a != b) &&
  decide cfg.otherOffs.Nodup && decide (gpioOffs cfg).Nodup

/-- Every word lies in its block, and the two blocks do not overlap (R57). notes/assumptions/8.md (DEDUCED). -/
def blocksOk (cfg : Config) : Bool :=
  ((spiOffs cfg).all fun a => decide (a + 4 ≤ cfg.spiBytes)) &&
  ((gpioOffs cfg).all fun a => decide (a + 4 ≤ cfg.gpioBytes)) &&
  decide (cfg.spiBase + cfg.spiBytes ≤ cfg.gpioBase ∨ cfg.gpioBase + cfg.gpioBytes ≤ cfg.spiBase)

/-- The bit positions of R6 are in range, and the mask of the ready indicator is nonzero. -/
def fieldsOk (cfg : Config) : Bool :=
  decide (cfg.txByteLsb ≤ 24) && decide (cfg.rxByteLsb ≤ 24) && decide (cfg.inhibitBit ≤ 31) &&
    decide (cfg.gpioFaultBit ≤ 31) && cfg.rxrdyMask != 0

/-- R22, R69: the ready read carries the byte only where both are one word and the fields do not overlap. -/
def sameReadOk (cfg : Config) : Bool :=
  !cfg.rxSameRead ||
    (cfg.offRxrdy == cfg.offRxdata && (cfg.rxrdyMask &&& (0xFF#32 <<< cfg.rxByteLsb)) == 0)

/-- R119: twelve distinct values, each below 2^56. -/
def errCodesOk (cfg : Config) : Bool :=
  cfg.errCodes.length == 12 && decide cfg.errCodes.Nodup &&
    cfg.errCodes.all fun c => decide (c.toNat < 2 ^ 56)

/-- `LP_CONFIG_OK` of R43. The table of `P_TXCNT_FN` has one entry for each occupancy (R38), and the lead core is one of
the cores (R13). -/
def configOk (cfg : Config) : Bool :=
  alignedOk cfg && distinctOk cfg && blocksOk cfg && fieldsOk cfg && sameReadOk cfg && errCodesOk cfg &&
    cfg.txcntFn.length == cfg.txDepth + 1 && decide (cfg.leadHart < cfg.nCores)

/-- The machine has the cores and the other registers of its configuration, and one of the cores runs the program. Every step
asks for this (notes/assumptions/23.md, DESIGN CHOICE). -/
def launchOk (s : State) : Bool :=
  configOk s.cfg && s.cores.length == s.cfg.nCores && s.otherRegs.length == s.cfg.otherOffs.length &&
    decide (s.cur < s.cfg.nCores)

/-- R16: the slot of the next operation, none past the program's end. -/
def fetch (s : State) : Option Slot := s.prog[s.idx]?

/-- A program with the slot at position `k` replaced, or placed there. -/
def putSlot : List Slot → Nat → Slot → List Slot
  | [], 0, x => [x]
  | [], k + 1, x => [] :: putSlot [] k x
  | _ :: ps, 0, x => x :: ps
  | p :: ps, k + 1, x => p :: putSlot ps k x

/-- It is another agent's turn: the next listed turn is not the executing core's. -/
def othersTurn (s : State) : Bool :=
  match s.sched with
  | [] => false
  | t :: _ => t != .core s.cur

/-- The state once the next listed turn is taken. -/
def State.turnTaken (s : State) : State := { s with sched := s.sched.tail }

end Sys2Proof.Machine
end

