-- ==== Sys2Proof/Machine/Step.lean ====
section
/-! DEFINITION. One step of the machine. -/

namespace Sys2Proof.Machine

/-- A turn in which the executing core does nothing: the next listed turn, or, with none listed, the engine's where it
is live (R180). With nothing to do the state stays as it is. -/
def idleStep (s : State) : State :=
  match s.sched with
  | t :: ts => (turn t { s with sched := ts }).state
  | [] => if engineDue s then engineStep s else s

/-- Nothing can happen without the executing core: no turn is listed and the engine has nothing to do. -/
def quiet (s : State) : Bool := s.sched.isEmpty && !engineDue s

/-- One step: a bad launch is refused as a whole (R43). An operation in progress goes on. Otherwise another agent takes its
turn, or the executing core starts its next operation (R16), unless it has halted (R139) or its program is at its end. Once the
executing core's run has ended in a fault or a refusal the other agents go on, and when nothing is left to happen the step
answers that fault or refusal (R181). -/
def step (s : State) : Host.Outcome State Fault Refusal :=
  if !launchOk s then .refused .config
  else if s.busy then .next (run s)
  else
    match (s.core s.cur).stop with
    | some x => if quiet s then x.outcome else .next (idleStep s)
    | none =>
      if othersTurn s || (s.core s.cur).fstat != .running then .next (idleStep s)
      else
        match fetch s with
        | none => .next (idleStep s)
        | some slot =>
          match decode slot with
          | .ok i => exec i s.turnTaken
          | .error (.unknownOp sel) => .next (s.turnTaken.refuse (.unknownOp sel))

/-- The state with an operation stored where the next step fetches: at the program's next position (R16). Where a turn is
listed, the executing core's comes first, so that the next step is its own. -/
def State.withFetchWord (s : State) (nbits w : Nat) : State :=
  { s with
    prog := putSlot s.prog s.idx (layout nbits w)
    sched := if s.sched = [] then [] else .core s.cur :: s.sched }

end Sys2Proof.Machine
end

