-- ==== Sys2Proof/Safety.lean ====
section
/-! DEFINITION. What counts as a good run: the launch premises of spec/10_state.md R43, the observation of spec/00_scope.md
R14, the ends of a run of spec/70_reset_and_hazards.md R181, and the conditions that statements about operations name. -/

namespace Sys2Proof.Machine

open Sys2Proof

/-! ## Launch premises (R43) -/

/-- `LP_FIFOS_EMPTY` -/
def lpFifosEmpty (s : State) : Prop := s.txq = [] ∧ s.rxq = []

/-- `LP_FRAME_IDLE`: the inhibit bit has the level that frames end with -/
def lpFrameIdle (s : State) : Prop := inhLevel s.cfg.inhibitBit s.inh = !s.cfg.inhBegin

/-- `LP_CONFIG_OK` -/
def lpConfigOk (s : State) : Prop := configOk s.cfg = true

/-- `LP_RUNNING` -/
def lpRunning (s : State) : Prop := ∀ c ∈ s.cores, c.fstat = .running

/-- `LP_NO_FAULT`: no core has ended in a fault and the engine has not faulted. R43 asks for no more; that no core has ended in a
refusal either is this model's own condition. notes/assumptions/23.md (DESIGN CHOICE). -/
def lpNoFault (s : State) : Prop := (∀ c ∈ s.cores, c.stop = none) ∧ s.engineFault = none

/-- R43's launch premises. -/
def LaunchPremises (s : State) : Prop :=
  lpFifosEmpty s ∧ lpFrameIdle s ∧ lpConfigOk s ∧ lpRunning s ∧ lpNoFault s

/-- The TXCNT law of R38: a TXCNT read that lets `tx` proceed means that `txq` has room. -/
def TxcntLaw (cfg : Config) : Prop :=
  ∀ n, n ≤ cfg.txDepth → txSpace (cfg.txcntFn.getD n 0xFF) = true → n < cfg.txDepth

/-! ## Conditions on the executing core -/

/-- The executing core is one of the machine's, `Running`, in no operation, and its run has not ended: it can start one. -/
def Ready (s : State) : Prop :=
  s.cur < s.cores.length ∧ (s.core s.cur).fstat = .running ∧ (s.core s.cur).todo = [] ∧ (s.core s.cur).stop = none

/-- The executing core can start an operation, and it is the lead core. -/
def LeadReady (s : State) : Prop := Ready s ∧ s.cur = s.cfg.leadHart

/-- The primitives of `fail` (R133). -/
def failPrim : Prim → Bool
  | .con _ => true
  | .gpio _ => true
  | .halt => true
  | _ => false

/-- R13: a core other than the executing one is in no operation but `fail`. -/
def OthersOnlyFail (s : State) : Prop := ∀ h, h ≠ s.cur → ∀ p ∈ (s.core h).todo, failPrim p = true

/-- The executing core waits in a poll (R147). -/
def Polling (s : State) : Prop :=
  ∃ p ps, (s.core s.cur).todo = p :: ps ∧ (p = .pollTx ∨ p = .pollRx)

/-! ## Observation (R14) -/

/-- How an agent stands at the end of an observation. -/
inductive AgentStatus where
  /-- its program has returned from its last operation -/
  | returned
  /-- it is in no operation: between two of its program, or, for an agent without a program, with nothing to do -/
  | idle
  /-- inside an operation -/
  | inOperation
  /-- reading a poll -/
  | polling
  | failing
  /-- with the code it composed, if it composed one -/
  | halted (code : Option Code)
  | faulted (r : Fault)
  | refused (r : Refusal)
deriving DecidableEq, Repr

/-- How core `h` stands. Under a configuration that is refused as a whole (R43), every core is refused. R14 does not rank the
ways it lists: here a core whose run has ended in a fault or a refusal shows that end, and not that it had been failing or
halted. notes/assumptions/32.md (DESIGN CHOICE). -/
def coreStatus (s : State) (h : Nat) : AgentStatus :=
  let c := s.core h
  if !launchOk s then .refused .config
  else
    match c.stop, c.fstat, c.todo with
    | some (.fault r), _, _ => .faulted r
    | some (.refused r), _, _ => .refused r
    | none, .halted d, _ => .halted d
    | none, .failing _, _ => .failing
    | none, .running, .pollTx :: _ => .polling
    | none, .running, .pollRx :: _ => .polling
    | none, .running, _ :: _ => .inOperation
    | none, .running, [] => if h = s.cur ∧ s.prog.length ≤ s.idx then .returned else .idle

/-- How the engine stands. -/
def engineStatus (s : State) : AgentStatus :=
  if !launchOk s then .refused .config
  else
    match s.engineFault with
    | some r => .faulted r
    | none => if s.txq = [] then .idle else .inOperation

/-- What R14 observes of a run, with the three GPIO words (R138 and spec/93_implementation_defined.md I33). -/
structure Observation where
  hist : List Event
  wire : List Exchange
  mem : List Host.Cell
  console : List ConEvent
  gpioVal : Word
  gpioEn : Word
  gpioInv : Word
  /-- the cores, in order -/
  cores : List AgentStatus
  engine : AgentStatus
deriving DecidableEq, Repr

/-- The observation of a state. -/
def observe (s : State) : Observation where
  hist := s.hist
  wire := s.wire
  mem := s.mem
  console := s.console
  gpioVal := s.gpioVal
  gpioEn := s.gpioEn
  gpioInv := s.gpioInv
  cores := (List.range s.cores.length).map (coreStatus s)
  engine := engineStatus s

/-! ## The ends of a run (R181) -/

/-- The program is at its end, no core is failing or halted, no fault or refusal of a core or the engine is recorded, and the
reference controller has sent every byte. R139: a halted core excludes it. -/
def AtProgramEnd (s : State) : Prop :=
  s.prog.length ≤ s.idx ∧ (∀ c ∈ s.cores, c.fstat = .running ∧ c.todo = [] ∧ c.stop = none) ∧
    s.engineFault = none ∧ (s.cfg.iface = .reference → s.txq = [])

/-- (a) Returned: it is the lead core that has come to its program's end, under a configuration that is not refused. -/
def EndReturned (s : State) : Prop := launchOk s = true ∧ s.cur = s.cfg.leadHart ∧ AtProgramEnd s

/-- (b) Failed: some core has halted. -/
def EndFailed (s : State) : Prop := ∃ c ∈ s.cores, ∃ d, c.fstat = .halted d

/-- The code a failed run carries: the lead core's, if it has halted. -/
def endCode (s : State) : Option Code :=
  match (s.core s.cfg.leadHart).fstat with
  | .halted d => d
  | _ => none

/-- (c) Faulted: a fault is recorded. -/
def EndFaulted (s : State) : Prop :=
  (∃ c ∈ s.cores, ∃ r, c.stop = some (.fault r)) ∨ ∃ r, s.engineFault = some r

/-- (d) Refused: a refusal is recorded, or the configuration is refused as a whole. -/
def EndRefused (s : State) : Prop :=
  (∃ c ∈ s.cores, ∃ r, c.stop = some (.refused r)) ∨ launchOk s = false

/-! ## Counting the fault indicator's inversions (R138) -/

/-- An atomic operation on the invert word. -/
def isInvert (cfg : Config) : Event → Bool
  | .gpio _ _ off _ _ => off == cfg.gpioOffInv
  | _ => false

/-- How many times the invert word was operated on. -/
def invertCount (cfg : Config) (es : List Event) : Nat := es.countP (isInvert cfg)

/-- A controller access (R26) or a console event (R134, R159) by another core than the lead. -/
def foreignEvent (cfg : Config) : Event → Bool
  | .ioR h _ _ => h != cfg.leadHart
  | .ioW h _ _ => h != cfg.leadHart
  | .con h _ => h != cfg.leadHart
  | _ => false

/-- The console events of a history, in order. -/
def conEvents (es : List Event) : List ConEvent :=
  es.filterMap fun e => match e with
    | .con _ x => some x
    | _ => none

/-- The primitive hands the console an event. -/
def isCon : Prim → Bool
  | .con _ => true
  | _ => false

/-- R136: only the lead core has a console event left to hand over. -/
def OnlyLeadReports (s : State) : Prop := ∀ h, h ≠ s.cfg.leadHart → ∀ p ∈ (s.core h).todo, isCon p = false

/-! ## What statements say a state becomes -/

/-- The machine of a state is the reference controller's, and no turn is listed: the executing core goes on with the
engine alone. -/
def Alone (s : State) : Prop := s.cfg.iface = .reference ∧ s.sched = []

/-- `A_ENGINE_LIVE` (R180) for an executing core that goes on alone: the engine has not faulted. -/
def AloneLive (s : State) : Prop := Alone s ∧ s.engineLive = true ∧ s.engineFault = none

/-- Nothing can happen without the executing core: no turn is listed, and the engine has no byte to send, does not step or
has faulted. -/
def AtRest (s : State) : Prop :=
  s.sched = [] ∧ (s.cfg.iface = .generic ∨ s.txq = [] ∨ s.engineLive = false ∨ s.engineFault ≠ none)

/-- With no turn listed, the executing core goes on alone under the generic interface, and these are the words it draws
next (R24). -/
def GenericDraws (s : State) (ws : List Word) : Prop :=
  s.cfg.iface = .generic ∧ s.sched = [] ∧ s.draws = ws

/-- The executing core's operation has returned `r` (R15, R16). -/
def State.returns (s : State) (r : Result) : State :=
  { s with
    results := s.results ++ [r]
    idx := s.idx + 1
    cores := s.cores.set s.cur { s.core s.cur with op := none, todo := [] } }

/-- The executing core's run has ended in a fault or a refusal (R145, R146). -/
def State.endsIn (s : State) (x : Stop) : State :=
  { s with cores := s.cores.set s.cur { s.core s.cur with stop := some x, todo := [] } }

/-- The executing core's byte last received. -/
def State.withRxByte (s : State) (b : Byte) : State :=
  { s with cores := s.cores.set s.cur { s.core s.cur with rxByte := b } }

/-- The executing core's INH word last read. -/
def State.withInhWord (s : State) (w : Word) : State :=
  { s with cores := s.cores.set s.cur { s.core s.cur with inhWord := w } }

/-- The executing core has halted after `fail code, is_trap`, with the code it composed, if it composed one (R139). -/
def State.haltedWith (s : State) (d : Option Code) (code : Code) (isTrap : Byte) : State :=
  { s with
    cores := s.cores.set s.cur
      { s.core s.cur with fstat := .halted d, op := some (.fail code isTrap), todo := [] } }

/-- The three words of the fault indicator once a core has failed (R137). -/
def State.signalled (s : State) : State :=
  let m : Word := 1#32 <<< s.cfg.gpioFaultBit
  { s with
    gpioVal := s.gpioVal ||| m
    gpioEn := s.gpioEn ||| m
    gpioInv := match s.cfg.gpioInvertOp with
      | .or => s.gpioInv ||| m
      | .xor => s.gpioInv ^^^ m }

/-- The three atomic operations a failing core performs, as the history records them (R137). -/
def signalEvents (s : State) (h : Nat) : List Event :=
  let m : Word := 1#32 <<< s.cfg.gpioFaultBit
  [.gpio h .or s.cfg.gpioOffVal m s.gpioVal, .gpio h .or s.cfg.gpioOffEn m s.gpioEn,
    .gpio h s.cfg.gpioInvertOp s.cfg.gpioOffInv m s.gpioInv]

/-- What the lead core hands the console (R134). -/
def reportOf (d : Code) : List ConEvent :=
  [.txReset, .hex32 ((d >>> 32).setWidth 32), .hex32 (d.setWidth 32)]

/-- R126: the code of a stage, a flag and a payload, by shifts. -/
def codeByShifts (stage : BitVec 4) (isTrap : Byte) (payload : Code) : Code :=
  (stage.setWidth 64 <<< 60) ||| (isTrap.setWidth 64 <<< 56) ||| payload

/-- R121: the compressed cause, by shifts. -/
def causeByShifts (cause : Code) : Code :=
  ((cause >>> 63) <<< 55) ||| (cause &&& 0x007FFFFFFFFFFFFF)

/-! ## Exchanges and stores in a row -/

/-- One exchange at a level (R31): the device's next answer, and the wire one exchange longer. -/
def exchangeOne (level : Bool) (x : List Byte × List Exchange) (b : Byte) : List Byte × List Exchange :=
  match x.1 with
  | r :: rs => (rs, x.2 ++ [⟨level, b, r⟩])
  | [] => ([], x.2 ++ [⟨level, b, Config.deviceAnswer level b x.2⟩])

/-- The exchanges of these bytes in a row: the device's answers left, and the wire. -/
def exchangeAll (level : Bool) (bs : List Byte) (x : List Byte × List Exchange) : List Byte × List Exchange :=
  bs.foldl (exchangeOne level) x

/-- These bytes stored one after the other (R48). -/
def storeAll (m : List Host.Cell) (a : Nat) : List Byte → List Host.Cell
  | [] => m
  | b :: bs => storeAll (writeMem m a b) (a + 1) bs

/-- The bytes `copy` sends, in order (R75). -/
def copyMosi (cfg : Config) (addr size : Word) : List Byte :=
  [cfg.readOpcode, (addr >>> 16).setWidth 8, (addr >>> 8).setWidth 8, addr.setWidth 8] ++
    List.replicate size.toNat 0

/-- A controller read. -/
def isRead : Event → Bool
  | .ioR _ _ _ => true
  | _ => false

/-- What `copy` does to the controller, the wire and memory while its bytes go over the wire, reads aside: each byte is
written, exchanged, and, from the fifth on, stored before the next is written (R59, R106). -/
def exchangeEvents (cfg : Config) (h dst : Nat) (frame : List Exchange) : List Event :=
  (frame.zipIdx).flatMap fun x =>
    [.ioW h cfg.offTxdata (txWord cfg.txByteLsb x.1.mosi), .ex x.1.mosi x.1.miso] ++
      if x.2 < 4 then [] else [.mem h (dst + (x.2 - 4)) x.1.miso]

/-- The range a `copy` may write: it does not wrap (R106), and it meets no register block (R57). -/
def CopyRange (cfg : Config) (dst size : Word) : Prop :=
  dst.toNat + size.toNat ≤ 2 ^ 32 ∧ (size.toNat = 0 ∨ meetsDevice cfg dst.toNat size.toNat = false)

/-- R30: the FIFOs are no longer than their depths. -/
def FifosWithinDepth (s : State) : Prop := s.txq.length ≤ s.cfg.txDepth ∧ s.rxq.length ≤ s.cfg.rxDepth

/-- R29: how a core's fail status goes with its operation. A running core has nothing of `fail` left to do. A failing or
halted core has nothing else left to do, is inside `fail`, and its code is the one that the lead core composes of its operands,
or none on another core. -/
def FailStatusFits (s : State) : Prop :=
  ∀ h, match (s.core h).fstat with
    | .running => ∀ p ∈ (s.core h).todo, failPrim p = false
    | .failing d | .halted d =>
      (∀ p ∈ (s.core h).todo, failPrim p = true) ∧
        ∃ code isTrap, (s.core h).op = some (.fail code isTrap) ∧
          (h = s.cfg.leadHart → ∃ c, composeCode s.cfg.bootstage isTrap code = .ok c ∧ d = some c) ∧
          (h ≠ s.cfg.leadHart → d = none)

/-- R139, R145, R146: a core that has halted, or whose run has ended in a fault or a refusal, has nothing left to do. -/
def HaltedAtRest (s : State) : Prop :=
  ∀ c ∈ s.cores, ((∃ d, c.fstat = .halted d) ∨ c.stop ≠ none) → c.todo = []

/-! ## What the executing core's operation may still write -/

/-- The operation that the executing core is in, or, between two, the one its next turn starts. -/
def currentOp (s : State) : Option Instr :=
  if (s.core s.cur).todo = [] then
    match fetch s with
    | none => none
    | some slot =>
      match decode slot with
      | .ok i => some i
      | .error _ => none
  else (s.core s.cur).op

/-- The operation is a `copy` whose range has the address. -/
def copyWrites (i : Option Instr) (a : Nat) : Prop :=
  ∃ dst addr size : Word, i = some (.copy dst addr size) ∧ dst.toNat ≤ a ∧ a < dst.toNat + size.toNat

/-- The operation frames (R100, R101, R102). -/
def framesInh : Option Instr → Bool
  | some .frameBegin => true
  | some .frameEnd => true
  | some (.copy _ _ _) => true
  | _ => false

/-- A primitive that writes memory or INH is in an operation that may. -/
def primFits (i : Option Instr) : Prim → Prop
  | .store a => copyWrites i a
  | .copyBytes a n => framesInh i = true ∧ ∀ k, k < n → copyWrites i (a + k)
  | .readInh => framesInh i = true
  | .writeInh _ => framesInh i = true
  | _ => True

/-- An INH write that is left without an INH read before it writes a word that has INH's other bits (R100, R101). -/
def InhPaired (bit : Nat) (inh inhWord : Word) : List Prim → Prop
  | [] => True
  | .readInh :: _ => True
  | .writeInh _ :: _ => ∀ k, k ≠ bit → inhWord.getLsbD k = inh.getLsbD k
  | _ :: ps => InhPaired bit inh inhWord ps

/-- R82, R90 to R102: what is left of the executing core's operation belongs to it. -/
def TodoFits (s : State) : Prop :=
  (∀ p ∈ (s.core s.cur).todo, primFits (s.core s.cur).op p) ∧
    (s.cfg.iface = .reference → InhPaired s.cfg.inhibitBit s.inh (s.core s.cur).inhWord (s.core s.cur).todo)

end Sys2Proof.Machine
end

