-- ==== Sys2Proof/Certificates/Slice0/Obligations.lean ====
section
/-! DEFINITION. The statements for the provers. Each says which rules of spec/ it formalises. A statement whose rules carry the
spec's own mark ("decision" or "derived") has basis `derived` in OBLIGATIONS.json, and so has one that rests on a choice of this
model's. Of the model's own are, in every statement that names them: which turns a step takes and the list of turns to come
(notes/assumptions/10.md, 11.md, 27.md), what a core holds while it is in an operation (13.md, 14.md), the lists of draws and
answers (5.md, 6.md), that `halt` leaves no event in the history (33.md), and that a fault or a refusal is kept in the state of
the agent whose run it ends (12.md). -/

open Sys2Proof Sys2Proof.Machine

/-! ## Encoding -/

/-- R77, R80: every operation, with every operand at every value, decodes from its own bytes, whatever bytes follow. The
layout of the operand bytes is this model's choice (notes/assumptions/7.md). -/
def Obligations.DecodeEncodeAgree : Prop :=
  ∀ (i : Instr) (rest : List Byte), decode (encode i ++ rest) = .ok i

/-- R77, R79, R80: the decoder is total. A selector of R77's table gives an operation with that selector; any other one is
refused by name. The selectors are the spec's own decision D2. -/
def Obligations.DecoderIsTotal : Prop :=
  ∀ bs : List Byte,
    (((byteAt bs 0).toNat ∈ [0x01, 0x02, 0x03, 0x04, 0x05, 0x06, 0x07, 0x10, 0x11, 0x20]) →
      ∃ i, decode bs = .ok i ∧ selector i = byteAt bs 0) ∧
    (((byteAt bs 0).toNat ∉ [0x01, 0x02, 0x03, 0x04, 0x05, 0x06, 0x07, 0x10, 0x11, 0x20]) →
      decode bs = .error (.unknownOp (byteAt bs 0)))

/-- R77: one word of each family decodes to its operation: the selector is the table's, the order of the operand bytes is this
model's choice (notes/assumptions/7.md). -/
def Obligations.SelectorWordsDecode : Prop :=
  decode [0x01, 0xA5] = .ok (.tx 0xA5) ∧
  decode [0x02] = .ok .rx ∧
  decode [0x03, 0x9F] = .ok (.txrx 0x9F) ∧
  decode [0x04] = .ok .frameBegin ∧
  decode [0x05] = .ok .frameEnd ∧
  decode [0x06, 0x00, 0x00, 0x00, 0x80, 0x56, 0x34, 0x12, 0x00, 0x02, 0x00, 0x00, 0x00] =
    .ok (.copy 0x80000000 0x123456 2) ∧
  decode [0x07, 0xE8, 0x80, 0x00, 0x00, 0x10, 0x27, 0x00, 0x00] = .ok (.clkdiv 33000 10000) ∧
  decode [0x10, 0x0A, 0x01, 0x07, 0x00, 0x00, 0x00, 0x00, 0x00, 0x00, 0x80] =
    .ok (.diagEncode 0xA 1 0x8000000000000007) ∧
  decode [0x11, 0x02, 0x00, 0x00, 0x00, 0x00, 0x00, 0x00, 0xA0] = .ok (.diagDecode 0xA000000000000002) ∧
  decode [0x20, 0x05, 0x00, 0x00, 0x00, 0x00, 0x00, 0x00, 0x00, 0x01] = .ok (.fail 0x5 1)

/-! ## The step -/

/-- R16, R77: where the executing core can start an operation and it is its turn, the step is `exec` of the operation that the
slot at the position decodes to, at the state with that turn taken. The program's slots and their bytes are this model's choice
(notes/assumptions/3.md and 7.md). -/
def Obligations.StepRunsDecodedOperation : Prop :=
  ∀ (s : State) (slot : Slot) (i : Instr), launchOk s = true → Ready s → othersTurn s = false →
    fetch s = some slot → decode slot = .ok i → step s = exec i { s with sched := s.sched.tail }

/-- R79, R146: a slot whose selector is outside R77's table is refused by name: the step performs nothing but to keep the mark,
and once nothing else can happen a step answers the refusal. Where the mark is kept and when it is answered is this model's
choice (notes/assumptions/12.md). -/
def Obligations.UnknownSelectorIsRefused : Prop :=
  ∀ (s : State) (sel : Byte) (rest : List Byte), launchOk s = true → Ready s → othersTurn s = false →
    fetch s = some (sel :: rest) →
    sel.toNat ∉ [0x01, 0x02, 0x03, 0x04, 0x05, 0x06, 0x07, 0x10, 0x11, 0x20] →
    ∃ t, step s = .next t ∧ t = ({ s with sched := s.sched.tail } : State).endsIn (.refused (.unknownOp sel)) ∧
      (AtRest t → step t = .refused (.unknownOp sel))

/-- R99: while the executing core is inside an operation, no other one starts: whatever operation it is given, the one in
progress goes on, which is this model's choice (notes/assumptions/19.md), and a step goes on with it in the same way. -/
def Obligations.NoOperationStartsInsideAnother : Prop :=
  ∀ (i : Instr) (s : State), (s.core s.cur).fstat = .running → (s.core s.cur).stop = none → (s.core s.cur).todo ≠ [] →
    exec i s = .next (run s) ∧ (launchOk s = true → step s = .next (run s))

/-- R147, R175: an operation that gives a next state is over (it has returned or halted, or its core's run has ended in a fault
or a refusal), or its core waits in one of the two polls: no count of reads ever ends it. -/
def Obligations.OperationReturnsOrPolls : Prop :=
  ∀ (i : Instr) (s t : State), Ready s → exec i s = .next t → (t.core t.cur).todo = [] ∨ Polling t

/-- R16: in any schedule, an operation either returns, and then the position advances by one and the caller has one result
more, or it does not, and then both stay, and its core polls, is failing or halted, or has ended in a fault or a refusal;
`fail` never returns. R16 is the spec's decision D3. -/
def Obligations.PositionAdvancesByOne : Prop :=
  ∀ (i : Instr) (s t : State), Ready s → OthersOnlyFail s → exec i s = .next t →
    (t.idx = s.idx + 1 ∧ (∃ r, t.results = s.results ++ [r]) ∧ (∀ c f, i ≠ .fail c f)) ∨
      (t.idx = s.idx ∧ t.results = s.results ∧
        (Polling t ∨ (t.core t.cur).fstat ≠ .running ∨ (t.core t.cur).stop ≠ none))

/-- R6, R13, R25, R30, R34, R41, R145, R146: no step changes the parameters, the number of cores, the executing core, the program
or the controller's other registers, and none clears a recorded fault or refusal; the history, the wire, the console record
and the results only grow; and the position never goes back. -/
def Obligations.StepFrame : Prop :=
  ∀ s t : State, step s = .next t →
    t.cfg = s.cfg ∧ t.cores.length = s.cores.length ∧ t.cur = s.cur ∧ t.prog = s.prog ∧
      t.otherRegs = s.otherRegs ∧ t.engineLive = s.engineLive ∧
      (∀ r, s.engineFault = some r → t.engineFault = some r) ∧
      (∀ h, (s.core h).stop ≠ none → (t.core h).stop ≠ none) ∧
      s.hist <+: t.hist ∧ s.wire <+: t.wire ∧ s.console <+: t.console ∧ s.results <+: t.results ∧
      s.idx ≤ t.idx ∧ t.draws <:+ s.draws ∧ t.miso <:+ s.miso ∧ t.sched <:+ s.sched

/-- R181 (a): a run that has returned has not failed, faulted or been refused, and the core that has come to its program's end,
if the configuration is not refused, has returned where it is the lead. That a step then leaves the state as it is, while no
turn is listed, and that the program may be another core's, are this model's choices (notes/assumptions/3.md and 17.md). -/
def Obligations.ReturnedRunStays : Prop :=
  ∀ s : State,
    (EndReturned s → ¬ EndFailed s ∧ ¬ EndFaulted s ∧ ¬ EndRefused s) ∧
    (launchOk s = true → AtProgramEnd s →
      (EndReturned s ↔ s.cur = s.cfg.leadHart) ∧ (s.sched = [] → step s = .next s))

/-! ## Reset and launch -/

/-- R42: after reset the wire and the console record are empty and every core is `Running`. -/
def Obligations.ResetState : Prop :=
  State.reset.wire = [] ∧ State.reset.console = [] ∧ ∀ c ∈ State.reset.cores, c.fstat = .running

/-- The reset state of this model meets the launch premises of R43, the canonical form of memory, the TXCNT law and the
invariants below. The values it rests on are the model's choice (notes/assumptions/1.md and 2.md). -/
def Obligations.ResetMeetsLaunchPremises : Prop :=
  LaunchPremises State.reset ∧ launchOk State.reset = true ∧ Memory.wf State.reset.mem = true ∧
    TxcntLaw State.reset.cfg ∧ FifosWithinDepth State.reset ∧ HaltedAtRest State.reset ∧
    (∀ e ∈ State.reset.hist, foreignEvent State.reset.cfg e = false) ∧ OnlyLeadReports State.reset ∧
    OthersOnlyFail State.reset ∧ TodoFits State.reset ∧ FailStatusFits State.reset

/-- R6, R22, R43, R52, R119: a configuration with a parameter out of range is refused as a whole. The requirements and the
refusal are the spec's decisions D5, D9, D10, D26 and D34; that every step checks them is this model's choice
(notes/assumptions/23.md). -/
def Obligations.BadConfigurationIsRefused : Prop :=
  ∀ s : State,
    ((s.cfg.rxSameRead = true ∧ s.cfg.offRxrdy ≠ s.cfg.offRxdata) ∨
      s.cfg.spiBase % 4 ≠ 0 ∨ s.cfg.offTxcnt % 4 ≠ 0 ∨ s.cfg.offTxdata % 4 ≠ 0 ∨ s.cfg.offRxrdy % 4 ≠ 0 ∨
      s.cfg.offRxdata % 4 ≠ 0 ∨ s.cfg.offInh % 4 ≠ 0 ∨ s.cfg.gpioBase % 4 ≠ 0 ∨ s.cfg.gpioOffVal % 4 ≠ 0 ∨
      s.cfg.gpioOffEn % 4 ≠ 0 ∨ s.cfg.gpioOffInv % 4 ≠ 0 ∨
      24 < s.cfg.txByteLsb ∨ 24 < s.cfg.rxByteLsb ∨ 31 < s.cfg.inhibitBit ∨ 31 < s.cfg.gpioFaultBit ∨
      s.cfg.rxrdyMask = 0 ∨ (∃ e, 2 ^ 56 ≤ (errCode s.cfg e).toNat) ∨
      (∃ e e', e ≠ e' ∧ errCode s.cfg e = errCode s.cfg e')) →
    step s = .refused .config

/-! ## The diagnostic code -/

/-- R72, R121 to R126: `diag_encode` refuses a flag other than 0 and 1 (R125, the spec's decision D24), then a logic code that needs
more than 56 bits (R122, D23); otherwise its result is stage, flag and payload put together by shifts, the payload of a trap
the compressed cause (R121, D22), and only the result and the position change. So a code that it gives has trap nibble 1 for a
trap and 0 otherwise, and no other (R72, D24 and D43). That the flag is a byte, and that a refusal's mark is kept in the core,
are this model's choices (notes/assumptions/21.md and 12.md). -/
def Obligations.EncoderComposesCode : Prop :=
  ∀ (s : State) (stage : BitVec 4) (isTrap : Byte) (code : Code), Ready s →
    (isTrap ≠ 0 ∧ isTrap ≠ 1 → exec (.diagEncode stage isTrap code) s = .next (s.endsIn (.refused .trapFlag))) ∧
    (isTrap = 0 ∧ 2 ^ 56 ≤ code.toNat →
      exec (.diagEncode stage isTrap code) s = .next (s.endsIn (.refused .payloadWidth))) ∧
    (isTrap = 0 ∧ code.toNat < 2 ^ 56 → exec (.diagEncode stage isTrap code) s =
      .next { s with results := s.results ++ [.code (codeByShifts stage 0 code)], idx := s.idx + 1 }) ∧
    (isTrap = 1 → exec (.diagEncode stage isTrap code) s =
      .next { s with results := s.results ++ [.code (codeByShifts stage 1 (causeByShifts code))], idx := s.idx + 1 }) ∧
    ∀ (t : State) (d : Code), exec (.diagEncode stage isTrap code) s = .next t → t.results = s.results ++ [.code d] →
      d >>> 60 = stage.setWidth 64 ∧
        ((isTrap = 1 ∧ (d >>> 56) &&& 0xF = 1 ∧ trapPayload code = d.setWidth 56) ∨
          (isTrap = 0 ∧ (d >>> 56) &&& 0xF = 0 ∧ logicPayload code = .ok (d.setWidth 56)))

/-- R16, R128, R146: the outcome of `diag_encode` is one function of its three operands, whatever the state: it reads no
register and no memory, and only its result and the position (the spec's decision D3) change. Where it refuses, only the mark is
new; that the mark's place is the core is this model's choice (notes/assumptions/12.md). -/
def Obligations.EncoderIsPure : Prop :=
  ∀ (stage : BitVec 4) (isTrap : Byte) (code : Code), ∃ o : Except Refusal Code, ∀ s : State, Ready s →
    exec (.diagEncode stage isTrap code) s =
      match o with
      | .ok d => .next { s with results := s.results ++ [.code d], idx := s.idx + 1 }
      | .error r => .next (s.endsIn (.refused r))

/-- R131: encoding a logic code and decoding the result gives the stage, flag 0 and the code back. -/
def Obligations.LogicRoundTrip : Prop :=
  ∀ (s : State) (x : BitVec 4) (y : Code), Ready s → y.toNat < 2 ^ 56 →
    ∃ t d u r, exec (.diagEncode x 0 y) s = .next t ∧ t.results = s.results ++ [.code d] ∧
      exec (.diagDecode d) t = .next u ∧ u.results = t.results ++ [.fields r] ∧
      r.stage = x ∧ r.trap = 0 ∧ r.payload.toNat = y.toNat

/-- R132: encoding a trap cause and decoding the result gives the stage, flag 1, bit 63 of the cause and its low 55 bits; a
negative cause sets the interrupt bit. -/
def Obligations.TrapLaw : Prop :=
  ∀ (s : State) (x : BitVec 4) (cause : Code), Ready s →
    ∃ t d u r, exec (.diagEncode x 1 cause) s = .next t ∧ t.results = s.results ++ [.code d] ∧
      exec (.diagDecode d) t = .next u ∧ u.results = t.results ++ [.fields r] ∧
      r.stage = x ∧ r.trap = 1 ∧ r.intr = some (BitVec.ofBool (cause.getLsbD 63)) ∧
      (∃ c, r.causeLow = some c ∧ c.setWidth 64 = cause &&& BitVec.ofNat 64 (2 ^ 55 - 1)) ∧
      (cause.toInt < 0 → r.intr = some 1)

/-- R84, R129: `diag_decode` is total; the fields are those of R84, by shifts, and the class is by the trap nibble. The class
of a nibble from 2 to 15 is the spec's decision D43. -/
def Obligations.DecoderSplitsCode : Prop :=
  ∀ (s : State) (d : Code), Ready s →
    ∃ r : DiagFields,
      exec (.diagDecode d) s = .next { s with results := s.results ++ [.fields r], idx := s.idx + 1 } ∧
      r.stage = (d >>> 60).setWidth 4 ∧ r.trap = (d >>> 56).setWidth 4 ∧ r.payload = d.setWidth 56 ∧
      (r.trap = 0 → r.intr = none ∧ r.causeLow = none ∧ r.cls = .logic) ∧
      (r.trap = 1 → r.intr = some ((d >>> 55).setWidth 1) ∧ r.causeLow = some (d.setWidth 55) ∧ r.cls = .trap) ∧
      (2 ≤ r.trap.toNat → r.intr = none ∧ r.causeLow = none ∧ r.cls = .notEncoderOutput)

/-- R121, R127: two trap causes give the same code exactly when they agree on bit 63 and on bits 54 to 0. -/
def Obligations.CauseBitsDropped : Prop :=
  ∀ (s : State) (stage : BitVec 4) (c c' : Code), Ready s →
    (exec (.diagEncode stage 1 c) s = exec (.diagEncode stage 1 c') s ↔
      ((c ^^^ c') &&& 0x807FFFFFFFFFFFFF) = 0)

/-- R71: the layout of the code that `diag_encode` gives for a flag of 0 or 1 and the payload `p`: the bootstage in bits 63 to 60,
the trap flag, 1 for a trap, in bits 59 to 56, and the payload in bits 55 to 0. Which flags and codes are refused, and that no
other nibble is written, is no part of this (`EncoderComposesCode`). -/
def Obligations.CodeHasStatedLayout : Prop :=
  ∀ (s t : State) (stage : BitVec 4) (isTrap : Byte) (code d : Code) (p : BitVec 56), Ready s →
    isTrap = 0 ∨ isTrap = 1 → payloadOf isTrap code = .ok p →
    exec (.diagEncode stage isTrap code) s = .next t → t.results = s.results ++ [.code d] →
    d >>> 60 = stage.setWidth 64 ∧ (d >>> 56) &&& 0xF = isTrap.setWidth 64 ∧ d.setWidth 56 = p

/-- R119: in a configuration that launches, the twelve enumerants have twelve values below 2^56, and the code `fail` composes
of one of them decodes to that one and no other. R119's two requirements are the spec's decision D26. -/
def Obligations.EnumerantsAreDecodable : Prop :=
  ∀ (cfg : Config) (e e' : BootError) (d : Code), configOk cfg = true →
    (errCode cfg e).toNat < 2 ^ 56 ∧
    (composeCode cfg.bootstage 0 (errCode cfg e) = .ok d →
      (decodeCode d).payload.toNat = (errCode cfg e').toNat → e = e')

/-! ## The clock divisor -/

/-- R112, with the domain of R115 (the spec's decision): outside the domain `clkdiv` is refused; inside, its result is the
ceiling of the exact quotient, less 1, clamped at 0, and only the result and the position change. That a refusal's mark is kept
in the core is this model's choice (notes/assumptions/12.md). -/
def Obligations.ClkdivIsTheFormula : Prop :=
  ∀ (s : State) (input target : Word), Ready s →
    ((target = 0 ∨ 2 ^ 32 - 1 < input.toNat + 2 * target.toNat - 1) →
      exec (.clkdiv input target) s = .next (s.endsIn (.refused .clkdivDomain))) ∧
    (target ≠ 0 → input.toNat + 2 * target.toNat - 1 ≤ 2 ^ 32 - 1 →
      ∃ d : Word, exec (.clkdiv input target) s =
          .next { s with results := s.results ++ [.divisor d], idx := s.idx + 1 } ∧
        d.toNat = ⌈(input.toNat : ℚ) / (2 * (target.toNat : ℚ))⌉₊ - 1)

/-- R113: the serial clock of the result does not exceed the target, under exact division, and no smaller divisor does
that. -/
def Obligations.ClkdivIsSmallest : Prop :=
  ∀ (s : State) (input target : Word), Ready s → 0 < input.toNat → 0 < target.toNat →
    input.toNat + 2 * target.toNat - 1 ≤ 2 ^ 32 - 1 →
    ∃ d : Word, exec (.clkdiv input target) s =
        .next { s with results := s.results ++ [.divisor d], idx := s.idx + 1 } ∧
      (input.toNat : ℚ) / (2 * ((d.toNat : ℚ) + 1)) ≤ (target.toNat : ℚ) ∧
      (0 < d.toNat → (target.toNat : ℚ) < (input.toNat : ℚ) / (2 * (d.toNat : ℚ))) ∧
      (∀ e : Nat, (input.toNat : ℚ) / (2 * ((e : ℚ) + 1)) ≤ (target.toNat : ℚ) → d.toNat ≤ e)

/-- R114: the corner cases of `clkdiv`. -/
def Obligations.ClkdivCorners : Prop :=
  ∀ s : State, Ready s →
    let gives (input target d : Word) : Prop :=
      exec (.clkdiv input target) s = .next { s with results := s.results ++ [.divisor d], idx := s.idx + 1 }
    (∀ input target : Word, 0 < input.toNat → 0 < target.toNat →
      input.toNat + 2 * target.toNat - 1 ≤ 2 ^ 32 - 1 → input.toNat ≤ 2 * target.toNat → gives input target 0) ∧
    (∀ target : Word, 0 < target.toNat → 2 * target.toNat - 1 ≤ 2 ^ 32 - 1 → gives 0 target 0) ∧
    (∀ input : Word, exec (.clkdiv input 0) s = .next (s.endsIn (.refused .clkdivDomain))) ∧
    gives 0xFFFFFFFE 1 0x7FFFFFFE ∧
    (∀ input target d : Word, gives input target d → d.toNat ≤ 2 ^ 31 - 2) ∧
    gives 1 1 0 ∧ gives 100 1 49

/-! ## Sending and receiving bytes -/

/-- R35, R90, R91: under the reference controller, a `tx` that finds a top byte below 0x0F and room in `txq` reads TXCNT once,
writes the byte in its field with every other bit 0, and returns; `txq` has the byte at its end. Nothing else changes. The
reference controller is the spec's decision D11. -/
def Obligations.TxSendsByte : Prop :=
  ∀ (s : State) (b : Byte), LeadReady s → Alone s → s.cfg.txByteLsb ≤ 24 →
    (s.cfg.txcntFn.getD s.txq.length 0xFF).toNat < 0x0F → s.txq.length < s.cfg.txDepth →
    ∃ w : Word, (w >>> 24).toNat = (s.cfg.txcntFn.getD s.txq.length 0xFF).toNat ∧
      exec (.tx b) s = .next (({ s.drawn with
        txq := s.txq ++ [b]
        txdata := b.setWidth 32 <<< s.cfg.txByteLsb
        hist := s.hist ++ [.ioR s.cur s.cfg.offTxcnt w,
          .ioW s.cur s.cfg.offTxdata (b.setWidth 32 <<< s.cfg.txByteLsb)] } : State).returns .unit)

/-- R85, R90: whatever the controller, `tx` reads TXCNT again and again until a read shows a top byte below 0x0F, and writes the
byte then, with every other bit 0 (R66, the spec's decision D7), and has returned (R16, its D3): here every number of reads that
show 0x0F or more, and then one that does not. That the generic interface's draws (R24, its D1) are listed in the state, and that
with no turn listed the core goes on alone, are this model's choices (notes/assumptions/5.md and 10.md). -/
def Obligations.TxPollsThenSends : Prop :=
  ∀ (s : State) (b : Byte) (ws : List Word) (w : Word) (rest : List Word), LeadReady s →
    GenericDraws s (ws ++ w :: rest) → (∀ v ∈ ws, 0x0F ≤ (v >>> 24).toNat) → (w >>> 24).toNat < 0x0F →
    exec (.tx b) s = .next (({ s with
      draws := rest
      txdata := b.setWidth 32 <<< s.cfg.txByteLsb
      hist := s.hist ++ ws.map (.ioR s.cur s.cfg.offTxcnt) ++ [.ioR s.cur s.cfg.offTxcnt w,
        .ioW s.cur s.cfg.offTxdata (b.setWidth 32 <<< s.cfg.txByteLsb)] } : State).returns .unit)

/-- R85, R89, R147: while every read shows a top byte of 0x0F or more, `tx` has written nothing and has not returned: it still
polls, however many reads there were. -/
def Obligations.TxStillPollsWhileNearlyFull : Prop :=
  ∀ (s : State) (b : Byte) (ws : List Word), LeadReady s → GenericDraws s ws → ws ≠ [] →
    (∀ v ∈ ws, 0x0F ≤ (v >>> 24).toNat) →
    exec (.tx b) s = .next { s with
      draws := []
      hist := s.hist ++ ws.map (.ioR s.cur s.cfg.offTxcnt)
      cores := s.cores.set s.cur
        { s.core s.cur with op := some (.tx b), todo := [.pollTx, .send b, .ret .unit] } }

/-- R89, R173: a `tx` on a wedged FIFO (no engine step, a top byte of 0x0F or more) never returns and never faults: after any
number of steps it has only read TXCNT. -/
def Obligations.TxOnWedgedFifoNeverReturns : Prop :=
  ∀ (s : State) (b : Byte), launchOk s = true → LeadReady s → Alone s → s.engineLive = false →
    0x0F ≤ (s.cfg.txcntFn.getD s.txq.length 0xFF).toNat →
    ∃ t, exec (.tx b) s = .next t ∧
      ∀ n, ∃ u, core.run n t = .next u ∧ Polling u ∧ u.idx = s.idx ∧ u.results = s.results ∧ u.txq = s.txq ∧
        u.txdata = s.txdata ∧ ∃ vs : List Word, vs.length = n + 1 ∧ u.hist = s.hist ++ vs.map (.ioR s.cur s.cfg.offTxcnt)

/-- R36, R87, R93, R94: under the reference controller, an `rx` that finds `rxq` non-empty takes its head, the oldest byte,
with one ready read, or with a ready read and one RXDATA read, and returns it. Nothing else changes. -/
def Obligations.RxReturnsOldestByte : Prop :=
  ∀ (s : State) (b : Byte) (q : List Byte), LeadReady s → Alone s → fieldsOk s.cfg = true → sameReadOk s.cfg = true →
    s.rxq = b :: q →
    ∃ w : Word, (w &&& s.cfg.rxrdyMask) ≠ 0 ∧
      if s.cfg.rxSameRead then
        (w >>> s.cfg.rxByteLsb).setWidth 8 = b ∧
          exec .rx s = .next ((({ s.drawn with
            rxq := q
            hist := s.hist ++ [.ioR s.cur s.cfg.offRxrdy w] } : State).withRxByte b).returns (.byte b))
      else ∃ x : Word, (x >>> s.cfg.rxByteLsb).setWidth 8 = b ∧
          exec .rx s = .next ((({ s.drawn.drawn with
            rxq := q
            hist := s.hist ++ [.ioR s.cur s.cfg.offRxrdy w, .ioR s.cur s.cfg.offRxdata x] } : State).withRxByte b).returns
              (.byte b))

/-- R87, R88, R93: whatever the controller, `rx` reads RXRDY until a read shows the indicator, and its result is the byte
field of that word, or of the one RXDATA read after it. -/
def Obligations.RxPollsThenReturnsByte : Prop :=
  ∀ (s : State) (ws : List Word) (w x : Word) (rest : List Word), LeadReady s →
    (∀ v ∈ ws, (v &&& s.cfg.rxrdyMask) = 0) → (w &&& s.cfg.rxrdyMask) ≠ 0 →
    (s.cfg.rxSameRead = true → GenericDraws s (ws ++ w :: rest) →
      exec .rx s = .next ((({ s with
        draws := rest
        hist := s.hist ++ ws.map (.ioR s.cur s.cfg.offRxrdy) ++ [.ioR s.cur s.cfg.offRxrdy w] } : State).withRxByte
          ((w >>> s.cfg.rxByteLsb).setWidth 8)).returns (.byte ((w >>> s.cfg.rxByteLsb).setWidth 8)))) ∧
    (s.cfg.rxSameRead = false → GenericDraws s (ws ++ w :: x :: rest) →
      exec .rx s = .next ((({ s with
        draws := rest
        hist := s.hist ++ ws.map (.ioR s.cur s.cfg.offRxrdy) ++
          [.ioR s.cur s.cfg.offRxrdy w, .ioR s.cur s.cfg.offRxdata x] } : State).withRxByte
            ((x >>> s.cfg.rxByteLsb).setWidth 8)).returns (.byte ((x >>> s.cfg.rxByteLsb).setWidth 8))))

/-- R95: under the reference controller, an `rx` that starts with both FIFOs empty never returns, in any schedule and after
any number of steps. Where no other agent fails or traps, it does not fault either: it polls. -/
def Obligations.RxOnEmptyFifosNeverReturns : Prop :=
  ∀ s : State, launchOk s = true → LeadReady s → OthersOnlyFail s → s.cfg.iface = .reference →
    s.txq = [] → s.rxq = [] →
    (∀ t, exec .rx s = .next t → ∀ n u, core.run n t = .next u →
      u.idx = s.idx ∧ u.results = s.results ∧ u.rxq = []) ∧
    (s.sched = [] → ∃ t, exec .rx s = .next t ∧ ∀ n, ∃ u, core.run n t = .next u ∧ Polling u)

/-- R97, R180: under the reference controller with a live engine, a `txrx` from empty FIFOs returns the device's answer to its
own byte; the wire has one exchange more, at the level of the inhibit bit, and the FIFOs are empty again. -/
def Obligations.TxrxExchangesByte : Prop :=
  ∀ (s : State) (b : Byte), LeadReady s → AloneLive s → fieldsOk s.cfg = true → s.txq = [] → s.rxq = [] →
    (s.cfg.txcntFn.getD 0 0xFF).toNat < 0x0F → 0 < s.cfg.txDepth → 0 < s.cfg.rxDepth →
    let x := exchangeOne (s.inh.getLsbD s.cfg.inhibitBit) (s.miso, s.wire) b
    let r := (x.2.map Exchange.miso).getLastD 0
    ∃ t, exec (.txrx b) s = .next t ∧
      t = (({ s with
        txdata := b.setWidth 32 <<< s.cfg.txByteLsb
        miso := x.1
        wire := x.2
        hist := t.hist
        draws := t.draws
        nDraws := t.nDraws } : State).withRxByte r).returns (.byte r) ∧
      s.hist <+: t.hist ∧
      (t.hist.drop s.hist.length).filter (fun e => !isRead e) =
        [.ioW s.cur s.cfg.offTxdata (b.setWidth 32 <<< s.cfg.txByteLsb), .ex b r]

/-- R97: in any schedule, a `txrx` that starts with empty FIFOs and returns leaves them empty, the wire one exchange longer at
the level of the inhibit bit, and its result is that exchange's MISO byte; and with depths of at least 1 neither FIFO
overflows. -/
def Obligations.TxrxHasOneByteInFlight : Prop :=
  ∀ (s t : State) (b : Byte), LeadReady s → OthersOnlyFail s → s.cfg.iface = .reference → s.cfg.txByteLsb ≤ 24 →
    s.txq = [] → s.rxq = [] → exec (.txrx b) s = .next t →
    (t.idx = s.idx + 1 →
      ∃ r, t.results = s.results ++ [.byte r] ∧ t.txq = [] ∧ t.rxq = [] ∧
        t.wire = s.wire ++ [⟨s.inh.getLsbD s.cfg.inhibitBit, b, r⟩]) ∧
    (0 < s.cfg.txDepth → 0 < s.cfg.rxDepth →
      (∀ r, (t.core t.cur).stop ≠ some (.fault (.txOverflow r))) ∧ t.engineFault = s.engineFault)

/-- R38, R90, R93: under the reference controller and the TXCNT law, no operation writes into a full `txq`, and none reads an
empty `rxq`, in any schedule. The TXCNT law is the spec's decision D11. -/
def Obligations.NoTxOverflowNoRxUnderflow : Prop :=
  ∀ (i : Instr) (s t : State), Ready s → OthersOnlyFail s → s.cfg.iface = .reference →
    s.txq.length ≤ s.cfg.txDepth → exec i s = .next t →
    (TxcntLaw s.cfg → ∀ b, (t.core t.cur).stop ≠ some (.fault (.txOverflow b))) ∧
      (t.core t.cur).stop ≠ some (.fault .rxUnderflow)

/-- R31, R37, R145: an engine turn of the reference controller exchanges the head of `txq` at the level of the inhibit bit. Into
a full `rxq` it faults, which ends the engine's run and nothing else: the fault is recorded, and later engine turns do nothing.
That the exchange is on the wire then is this model's reading (notes/assumptions/28.md). Nothing else changes. -/
def Obligations.EngineTurnExchangesHead : Prop :=
  ∀ (s : State) (b : Byte) (q : List Byte) (ts : List Turn), launchOk s = true → (s.core s.cur).todo = [] →
    s.cfg.iface = .reference → s.sched = .engine :: ts → s.txq = b :: q →
    let x := exchangeOne (s.inh.getLsbD s.cfg.inhibitBit) (s.miso, s.wire) b
    let r := (x.2.map Exchange.miso).getLastD 0
    let after : State :=
      { s with sched := ts, txq := q, miso := x.1, wire := x.2, hist := s.hist ++ [.ex b r] }
    (s.engineFault = none → s.rxq.length = s.cfg.rxDepth →
      step s = .next { after with engineFault := some (.rxOverflow r) }) ∧
    (s.engineFault = none → s.rxq.length ≠ s.cfg.rxDepth → step s = .next { after with rxq := s.rxq ++ [r] }) ∧
    (s.engineFault ≠ none → step s = .next { s with sched := ts })

/-! ## Framing and copy -/

/-- R24, R100, R101: `frame_begin` and `frame_end` read the whole INH word and write it back with the inhibit bit at
`P_INH_BEGIN`, or at the other level, and every other bit as read; also when the word is the same. Under the generic
interface the word read is the one the block last wrote, or a draw. Nothing else changes. That the frame's levels are these
is the spec's decision D12. -/
def Obligations.FrameOperationsWriteInhibit : Prop :=
  ∀ (s : State) (begins : Bool), LeadReady s → s.sched = [] →
    let m : Word := 1#32 <<< s.cfg.inhibitBit
    let set (w : Word) : Word := if begins = s.cfg.inhBegin then w ||| m else w &&& ~~~m
    let i : Instr := if begins then .frameBegin else .frameEnd
    let after (s : State) (w : Word) : State :=
      ({ s with hist := s.hist ++ [.ioR s.cur s.cfg.offInh w, .ioW s.cur s.cfg.offInh (set w)] } : State).withInhWord w
    (s.cfg.iface = .reference →
      exec i s = .next (({ after s s.inh with inh := set s.inh } : State).returns .unit)) ∧
    (s.cfg.iface = .generic → ∀ w, lastWritten s.cfg.offInh s.hist = some w →
      exec i s = .next ((after s w).returns .unit)) ∧
    (s.cfg.iface = .generic → lastWritten s.cfg.offInh s.hist = none →
      exec i s = .next ((after s.drawn s.draw).returns .unit))

/-- R24: under either interface, a `frame_end` right after a `frame_begin` reads the word that `frame_begin` wrote. -/
def Obligations.FrameReadsBackLastWrite : Prop :=
  ∀ s : State, LeadReady s → s.sched = [] →
    ∃ t u v w x, exec .frameBegin s = .next t ∧ exec .frameEnd t = .next u ∧
      t.hist = s.hist ++ [.ioR s.cur s.cfg.offInh v, .ioW s.cur s.cfg.offInh w] ∧
      u.hist = t.hist ++ [.ioR s.cur s.cfg.offInh w, .ioW s.cur s.cfg.offInh x]

/-- R47, R75, R102, R105, R106, R107, R180: under the reference controller with a live engine, a `copy` from empty FIFOs returns
`Ok`. It opens the frame, exchanges the read opcode, the three address bytes and `size` zero bytes at level `P_INH_BEGIN`,
stores the answers to the zero bytes from `dst` upwards, each before the next byte is sent, and closes the frame. Nothing
else changes. -/
def Obligations.CopyReadsFlash : Prop :=
  ∀ (s : State) (dst addr size : Word), LeadReady s → AloneLive s → fieldsOk s.cfg = true → s.txq = [] → s.rxq = [] →
    (s.cfg.txcntFn.getD 0 0xFF).toNat < 0x0F → 0 < s.cfg.txDepth → 0 < s.cfg.rxDepth →
    CopyRange s.cfg dst size →
    let mosi := copyMosi s.cfg addr size
    let x := exchangeAll s.cfg.inhBegin mosi (s.miso, s.wire)
    let frame := x.2.drop s.wire.length
    let opened := withInhibit s.cfg.inhibitBit s.cfg.inhBegin s.inh
    let closed := withInhibit s.cfg.inhibitBit (!s.cfg.inhBegin) opened
    ∃ t, exec (.copy dst addr size) s = .next t ∧
      t = ((({ s with
        inh := closed
        txdata := txWord s.cfg.txByteLsb (mosi.getLastD 0)
        miso := x.1
        wire := x.2
        mem := storeAll s.mem dst.toNat ((frame.drop 4).map Exchange.miso)
        hist := t.hist
        draws := t.draws
        nDraws := t.nDraws } : State).withRxByte ((frame.map Exchange.miso).getLastD 0)).withInhWord opened).returns .ok ∧
      s.hist <+: t.hist ∧
      (t.hist.drop s.hist.length).filter (fun e => !isRead e) =
        [.ioW s.cur s.cfg.offInh opened] ++ exchangeEvents s.cfg s.cur dst.toNat frame ++
          [.ioW s.cur s.cfg.offInh closed]

/-- R105, R106, R107: in any schedule, a `copy` from empty FIFOs that returns has put exactly `4 + size` exchanges on the wire
in the order of R75, all at level `P_INH_BEGIN`, has left the inhibit bit at the other level and both FIFOs empty, and memory
holds the answer of exchange `4 + i` at `dst + i` and is as before everywhere else. -/
def Obligations.CopyFrameInAnySchedule : Prop :=
  ∀ (s t : State) (dst addr size : Word), LeadReady s → OthersOnlyFail s → s.cfg.iface = .reference →
    fieldsOk s.cfg = true → s.txq = [] → s.rxq = [] → CopyRange s.cfg dst size →
    exec (.copy dst addr size) s = .next t → t.idx = s.idx + 1 →
    t.results = s.results ++ [.ok] ∧ t.txq = [] ∧ t.rxq = [] ∧
      t.inh.getLsbD s.cfg.inhibitBit = !s.cfg.inhBegin ∧
      ∃ frame : List Exchange, t.wire = s.wire ++ frame ∧ frame.map Exchange.mosi = copyMosi s.cfg addr size ∧
        (∀ x ∈ frame, x.level = s.cfg.inhBegin) ∧
        (∀ i < size.toNat, readMem t.mem (dst.toNat + i) = (frame[4 + i]?).map Exchange.miso) ∧
        (∀ a, a < dst.toNat ∨ dst.toNat + size.toNat ≤ a → readMem t.mem a = readMem s.mem a)

/-- R24, R102, R107: whatever the controller, a `copy` whose polls are satisfied at their first read stores the byte field of the
word that carries each data byte, from `dst` upwards. `first` is the INH word drawn by the opening read where the block has
written none before, and `rounds` are the words drawn for each byte sent: TXCNT, RXRDY, and RXDATA where it is a read of its
own. -/
def Obligations.CopyStoresDrawnBytes : Prop :=
  ∀ (s : State) (dst addr size : Word) (first : List Word) (rounds : List (Word × Word × Word)) (rest : List Word),
    LeadReady s → first.length = (if lastWritten s.cfg.offInh s.hist = none then 1 else 0) →
    GenericDraws s (first ++ rounds.flatMap (fun r =>
      if s.cfg.rxSameRead then [r.1, r.2.1] else [r.1, r.2.1, r.2.2]) ++ rest) →
    rounds.length = 4 + size.toNat →
    (∀ r ∈ rounds, (r.1 >>> 24).toNat < 0x0F ∧ (r.2.1 &&& s.cfg.rxrdyMask) ≠ 0) → CopyRange s.cfg dst size →
    let got (r : Word × Word × Word) : Byte :=
      ((if s.cfg.rxSameRead then r.2.1 else r.2.2) >>> s.cfg.rxByteLsb).setWidth 8
    ∃ t, exec (.copy dst addr size) s = .next t ∧
      t.mem = storeAll s.mem dst.toNat ((rounds.drop 4).map got) ∧
      t.results = s.results ++ [.ok] ∧ t.idx = s.idx + 1 ∧ t.draws = rest ∧ t.txq = s.txq ∧ t.rxq = s.rxq ∧
      t.inh = s.inh ∧ t.wire = s.wire ∧ t.console = s.console ∧ t.gpioVal = s.gpioVal ∧ t.gpioEn = s.gpioEn ∧
      t.gpioInv = s.gpioInv ∧ (t.core t.cur).stop = none

/-- R26, R57, R106: `copy` on another core than the lead faults; on the lead core it is refused when its range wraps past 2^32,
and when the range meets the controller's or the GPIO's register block, which is this model's choice
(notes/assumptions/9.md). The core's run ends and nothing else changes. -/
def Obligations.CopyIsRefusedBeforeAnyAccess : Prop :=
  ∀ (s : State) (dst addr size : Word), Ready s →
    (s.cur ≠ s.cfg.leadHart → exec (.copy dst addr size) s =
      .next (s.endsIn (.fault (.foreignAccess s.cur (some (.copy dst addr size)))))) ∧
    (s.cur = s.cfg.leadHart → 2 ^ 32 < dst.toNat + size.toNat →
      exec (.copy dst addr size) s = .next (s.endsIn (.refused .dstWrap))) ∧
    (s.cur = s.cfg.leadHart → dst.toNat + size.toNat ≤ 2 ^ 32 →
      (∃ a, dst.toNat ≤ a ∧ a < dst.toNat + size.toNat ∧
        ((s.cfg.spiBase ≤ a ∧ a < s.cfg.spiBase + s.cfg.spiBytes) ∨
          (s.cfg.gpioBase ≤ a ∧ a < s.cfg.gpioBase + s.cfg.gpioBytes))) →
      exec (.copy dst addr size) s = .next (s.endsIn (.refused .dstOverlap)))

/-! ## Failing, trapping and halting -/

/-- R133, R134, R137: on the lead core, `fail` composes the code, hands the console the reset event, the high half and the low
half, performs the three atomic operations on the fault indicator, and halts with the code. Nothing else changes. The order
of the halves and of the GPIO operations is the spec's decisions D27 and D29. -/
def Obligations.FailOnLeadReportsAndHalts : Prop :=
  ∀ (s : State) (code : Code) (isTrap : Byte), LeadReady s → s.sched = [] →
    (isTrap = 1 ∨ (isTrap = 0 ∧ code.toNat < 2 ^ 56)) →
    let d := codeByShifts s.cfg.bootstage isTrap (if isTrap = 1 then causeByShifts code else code)
    exec (.fail code isTrap) s = .next (({ s.signalled with
      console := s.console ++ reportOf d
      hist := s.hist ++ (reportOf d).map (.con s.cur) ++ signalEvents s s.cur } : State).haltedWith (some d) code isTrap)

/-- R136: on any other core, `fail` composes no code, whatever its operands, and performs no console event; it performs the
three atomic operations and halts. -/
def Obligations.FailOnOtherCoreOnlySignals : Prop :=
  ∀ (s : State) (code : Code) (isTrap : Byte), Ready s → s.cur ≠ s.cfg.leadHart → s.sched = [] →
    exec (.fail code isTrap) s = .next (({ s.signalled with
      hist := s.hist ++ signalEvents s s.cur } : State).haltedWith none code isTrap)

/-- R130, R133, R152: `fail` on the lead core is refused, before any event, for a flag other than 0 and 1 and for a logic code
that needs more than 56 bits; and `fail` on a core that is failing or halted is a fault. Nothing else changes. The fault and
the refusals are the spec's decisions D23, D24 and D31. -/
def Obligations.FailRefusedOrNested : Prop :=
  ∀ (s : State) (code : Code) (isTrap : Byte),
    (LeadReady s → isTrap ≠ 0 → isTrap ≠ 1 → exec (.fail code isTrap) s = .next (s.endsIn (.refused .trapFlag))) ∧
    (LeadReady s → isTrap = 0 → 2 ^ 56 ≤ code.toNat →
      exec (.fail code isTrap) s = .next (s.endsIn (.refused .payloadWidth))) ∧
    ((s.core s.cur).fstat ≠ .running → (s.core s.cur).stop = none →
      exec (.fail code isTrap) s = .next (s.endsIn (.fault (.nestedFail s.cur code))))

/-- R140, R141: a failure at ACMD41 on the lead core emits two halves that decode to the bootstage, trap 0 and the enumerant's
value. -/
def Obligations.Acmd41EndToEnd : Prop :=
  ∀ s : State, LeadReady s → s.sched = [] → configOk s.cfg = true →
    ∃ t hi lo, exec (.fail (errCode s.cfg .sdAcmd41) 0) s = .next t ∧
      t.console = s.console ++ [.txReset, .hex32 hi, .hex32 lo] ∧
      (t.core t.cur).fstat = .halted (some (hi ++ lo)) ∧
      (decodeCode (hi ++ lo)).stage = s.cfg.bootstage ∧ (decodeCode (hi ++ lo)).trap = 0 ∧
      (decodeCode (hi ++ lo)).payload.toNat = (errCode s.cfg .sdAcmd41).toNat

/-- R13, R136, R150, R152, R153: a trap's turn on a core writes the cause to its cause register and starts `fail cause, 1` on it,
in place of whatever it was in; a turn in which a core other than the lead calls `fail` starts it there, if the core is in no
operation; on a core that is failing or halted either turn is a fault, the spec's decision D31, which ends that core's run.
Nothing else is saved and nothing else changes: R150 says that the source does not state what else a trap saves, so this is the
model's choice (notes/assumptions/18.md), and so are the cause register (14.md) and that a core whose run has ended, a lead core
or a core inside an operation takes no such turn (20.md). -/
def Obligations.TrapOrCallEntersFailPath : Prop :=
  ∀ (s : State) (h : Nat) (code : Code) (isTrap : Byte) (ts : List Turn), launchOk s = true →
    (s.core s.cur).todo = [] →
    let goes := h < s.cores.length ∧ (s.core h).stop = none
    let core (c : Core) : State := { s with sched := ts, cores := s.cores.set h c }
    (s.sched = .trap h code :: ts →
      (goes → (s.core h).fstat = .running →
        let d : Option Code :=
          if h = s.cfg.leadHart then some (codeByShifts s.cfg.bootstage 1 (causeByShifts code)) else none
        step s = .next (core { s.core h with
          fstat := .failing d, op := some (.fail code 1), todo := failPlan d, cause := code })) ∧
      (goes → (s.core h).fstat ≠ .running → step s = .next (core { s.core h with
          todo := [], cause := code, stop := some (.fault (.nestedFail h code)) })) ∧
      (¬ goes → step s = .next { s with sched := ts })) ∧
    (s.sched = .call h code isTrap :: ts →
      (goes → h ≠ s.cfg.leadHart → (s.core h).fstat = .running → (s.core h).todo = [] →
        step s = .next (core { s.core h with
          fstat := .failing none, op := some (.fail code isTrap), todo := failPlan none })) ∧
      (goes → h ≠ s.cfg.leadHart → (s.core h).fstat ≠ .running → step s = .next (core { s.core h with
          todo := [], stop := some (.fault (.nestedFail h code)) })) ∧
      (¬ goes ∨ h = s.cfg.leadHart ∨ ((s.core h).fstat = .running ∧ (s.core h).todo ≠ []) →
        step s = .next { s with sched := ts }))

/-- R150, R151: a trap on the executing core in the middle of any operation abandons it as it stands: the FIFOs, INH, the wire
and memory stay, nothing is returned, and the core ends halted with the trap's code. -/
def Obligations.TrapAbandonsOperation : Prop :=
  ∀ (s : State) (cause : Code), launchOk s = true → s.cur = s.cfg.leadHart → (s.core s.cur).fstat = .running →
    (s.core s.cur).stop = none → (s.core s.cur).todo ≠ [] → s.sched = [.trap s.cur cause] →
    let d := codeByShifts s.cfg.bootstage 1 (causeByShifts cause)
    step s = .next (({ s.signalled with
      sched := []
      console := s.console ++ reportOf d
      hist := s.hist ++ (reportOf d).map (.con s.cur) ++ signalEvents s s.cur
      cores := s.cores.set s.cur { s.core s.cur with cause := cause } } : State).haltedWith (some d) cause 1)

/-- R139, R145, R146: a halted executing core does nothing, whatever operation it is given and whatever its program holds, and
neither does one whose run has ended in a fault or a refusal; with nothing else to happen the machine stays as it is, or
answers that fault or refusal. R139's absorbing status is the spec's decision D30; that an operation given to a halted core
leaves the state as it is, and when the fault or refusal is answered, are this model's choice (notes/assumptions/19.md and
12.md). -/
def Obligations.HaltedCoreDoesNothing : Prop :=
  ∀ (s : State) (i : Instr), HaltedAtRest s → s.cur < s.cores.length →
    (∀ d, (s.core s.cur).fstat = .halted d → (s.core s.cur).stop = none →
      ((∀ c f, i ≠ .fail c f) → exec i s = .next s) ∧ (launchOk s = true → AtRest s → step s = .next s)) ∧
    (∀ r, (s.core s.cur).stop = some (.fault r) →
      exec i s = .fault r ∧ (launchOk s = true → AtRest s → step s = .fault r)) ∧
    (∀ r, (s.core s.cur).stop = some (.refused r) →
      exec i s = .refused r ∧ (launchOk s = true → AtRest s → step s = .refused r)) ∧
    ((∃ d, (s.core s.cur).fstat = .halted d) ∨ (s.core s.cur).stop ≠ none →
      ∀ ts, launchOk s = true → s.sched = .core s.cur :: ts → step s = .next { s with sched := ts })

/-- R26, R145, R172: on a core that is not the lead, each of the six operations on the controller is a fault before any access;
it ends that core's run, and nothing else changes. Where the fault is kept, and that it records the operation the core runs
(`txrx` too), are this model's choices (notes/assumptions/12.md and 31.md). -/
def Obligations.ForeignAccessFaults : Prop :=
  ∀ (s : State) (i : Instr), Ready s → s.cur ≠ s.cfg.leadHart →
    (match i with
      | .tx _ | .rx | .txrx _ | .frameBegin | .frameEnd | .copy _ _ _ => True
      | .clkdiv _ _ | .diagEncode _ _ _ | .diagDecode _ | .fail _ _ => False) →
    exec i s = .next (s.endsIn (.fault (.foreignAccess s.cur (some i))))

/-! ## What every step keeps -/

/-- R29: at launch every core is `Running`. No step takes a core out of `Halted`, and none takes a core that is `Failing` with
a code out of that but into `Halted` with the same one. That a core which is `Failing` or `Halted` is inside `fail`, with the
composed code on the lead core and with none on another, is kept by every step. -/
def Obligations.FailStatusNeverGoesBack : Prop :=
  (∀ c ∈ State.reset.cores, c.fstat = .running) ∧
  ∀ s t : State, step s = .next t →
    (∀ (h : Nat) (d : Option Code),
      ((s.core h).fstat = .halted d → (t.core h).fstat = .halted d) ∧
      ((s.core h).fstat = .failing d → (t.core h).fstat = .failing d ∨ (t.core h).fstat = .halted d)) ∧
    (FailStatusFits s → FailStatusFits t)

/-- R139, R145, R146: that a core that has halted, or whose run has ended, has nothing left to do is kept by every step, and the
fault or refusal that ended a run stays the one recorded. -/
def Obligations.HaltedAtRestIsKept : Prop :=
  ∀ s t : State, HaltedAtRest s → step s = .next t →
    HaltedAtRest t ∧ ∀ h x, (s.core h).stop = some x → (t.core h).stop = some x

/-- R13: that the other cores are in no operation but `fail` is kept by every step. -/
def Obligations.OthersOnlyFailIsKept : Prop :=
  ∀ s t : State, OthersOnlyFail s → step s = .next t → OthersOnlyFail t

/-- R26, R134, R136, R159, R172: that only the lead core has accessed the controller and that only it has handed the console
events, and has any left to hand over, is kept by every step; and the console record grows by the console events of the
history. -/
def Obligations.OnlyLeadTouchesController : Prop :=
  ∀ s t : State, (∀ e ∈ s.hist, foreignEvent s.cfg e = false) → OnlyLeadReports s → step s = .next t →
    (∀ e ∈ t.hist, foreignEvent t.cfg e = false) ∧ OnlyLeadReports t ∧
      t.console = s.console ++ conEvents (t.hist.drop s.hist.length)

/-- R44: the canonical form of memory is kept by every step. The form is the model's (Machine/Memory.lean). -/
def Obligations.MemoryStaysCanonical : Prop :=
  ∀ s t : State, Memory.wf s.mem = true → step s = .next t → Memory.wf t.mem = true

/-- R30, R35, R37: that the FIFOs are no longer than their depths is kept by every step. -/
def Obligations.FifosStayWithinDepth : Prop :=
  ∀ s t : State, FifosWithinDepth s → step s = .next t → FifosWithinDepth t

/-- R27, R137: no step changes a bit of VAL, EN or INV other than the fault bit, and none clears the fault bit of VAL or
EN. -/
def Obligations.GpioOtherBitsKept : Prop :=
  ∀ s t : State, step s = .next t →
    (∀ k, k ≠ s.cfg.gpioFaultBit → t.gpioVal.getLsbD k = s.gpioVal.getLsbD k ∧
      t.gpioEn.getLsbD k = s.gpioEn.getLsbD k ∧ t.gpioInv.getLsbD k = s.gpioInv.getLsbD k) ∧
    (s.gpioVal.getLsbD s.cfg.gpioFaultBit = true → t.gpioVal.getLsbD s.cfg.gpioFaultBit = true) ∧
    (s.gpioEn.getLsbD s.cfg.gpioFaultBit = true → t.gpioEn.getLsbD s.cfg.gpioFaultBit = true)

/-- R62, R138: over every step, the fault bit of INV is inverted once for each atomic operation on INV where the operation is
XOR, and set by the first one where it is OR: no update is lost, in any order. -/
def Obligations.FaultIndicatorCountsFailures : Prop :=
  ∀ s t : State, step s = .next t →
    let k := invertCount s.cfg t.hist - invertCount s.cfg s.hist
    (s.cfg.gpioInvertOp = .xor → t.gpioInv.getLsbD s.cfg.gpioFaultBit =
      ((s.gpioInv.getLsbD s.cfg.gpioFaultBit) ^^ decide (k % 2 = 1))) ∧
    (s.cfg.gpioInvertOp = .or → t.gpioInv.getLsbD s.cfg.gpioFaultBit =
      ((s.gpioInv.getLsbD s.cfg.gpioFaultBit) || decide (0 < k)))

/-- R23, R70: in any schedule, no operation changes a bit of INH other than the inhibit bit, and only `frame_begin`,
`frame_end` and `copy` change INH at all; so it is for an operation that starts, and for one that an earlier step left in a
poll and that goes on. -/
def Obligations.InhOtherBitsKept : Prop :=
  (∀ (i : Instr) (s t : State), Ready s → OthersOnlyFail s → exec i s = .next t →
    (∀ k, k ≠ s.cfg.inhibitBit → t.inh.getLsbD k = s.inh.getLsbD k) ∧
    ((match i with
      | .frameBegin | .frameEnd | .copy _ _ _ => False
      | .tx _ | .rx | .txrx _ | .clkdiv _ _ | .diagEncode _ _ _ | .diagDecode _ | .fail _ _ => True) →
      t.inh = s.inh)) ∧
  (∀ s t : State, OthersOnlyFail s → TodoFits s → step s = .next t →
    TodoFits t ∧ (∀ k, k ≠ s.cfg.inhibitBit → t.inh.getLsbD k = s.inh.getLsbD k) ∧
      (framesInh (currentOp s) = false → t.inh = s.inh))

/-- R44, R106, R151: in any schedule, only `copy` writes memory, and whether it returns or not, only in its range; so it is for a
`copy` that starts, and for one that an earlier step left in a poll and that goes on. -/
def Obligations.OnlyCopyWritesMemory : Prop :=
  (∀ (i : Instr) (s t : State), Ready s → OthersOnlyFail s → exec i s = .next t →
    ∀ a : Nat, (∀ dst addr size : Word, i = .copy dst addr size → a < dst.toNat ∨ dst.toNat + size.toNat ≤ a) →
      readMem t.mem a = readMem s.mem a) ∧
  (∀ s t : State, OthersOnlyFail s → TodoFits s → step s = .next t →
    ∀ a : Nat, ¬ copyWrites (currentOp s) a → readMem t.mem a = readMem s.mem a)

/-- R116, R128, R135: in any schedule without an engine turn, `clkdiv`, `diag_encode`, `diag_decode` and `fail` leave the
controller as it is: FIFOs, INH, TXDATA and the wire. -/
def Obligations.FailAndEncoderLeaveController : Prop :=
  ∀ (i : Instr) (s t : State), Ready s → OthersOnlyFail s → (∀ u ∈ s.sched, u ≠ .engine) →
    (match i with
      | .clkdiv _ _ | .diagEncode _ _ _ | .diagDecode _ | .fail _ _ => True
      | .tx _ | .rx | .txrx _ | .frameBegin | .frameEnd | .copy _ _ _ => False) →
    exec i s = .next t →
    t.txq = s.txq ∧ t.rxq = s.rxq ∧ t.inh = s.inh ∧ t.txdata = s.txdata ∧ t.wire = s.wire ∧ t.mem = s.mem
end

