-- ==== Sys2Proof/Laws/Memory.lean ====
section
/-! SUPPORT. The laws of system memory: a read after a write, and the canonical form (spec/10_state.md R44). -/

namespace Sys2Proof.Laws

open Sys2Proof.Machine

/-- A byte reads as what was last written to it. -/
theorem readMem_writeMem_self (m : List Host.Cell) (a : Nat) (b : Byte) :
    readMem (writeMem m a b) a = some b := by
  induction m with
  | nil => simp [writeMem, readMem]
  | cons kv m ih =>
    obtain ⟨k, v⟩ := kv
    simp only [writeMem]
    split
    · simp [readMem]
    · split
      · simp [readMem]
      · rename_i h; simp [readMem, h, ih]

/-- A write leaves every other byte alone. -/
theorem readMem_writeMem_ne (m : List Host.Cell) {a c : Nat} (b : Byte) (h : c ≠ a) :
    readMem (writeMem m a b) c = readMem m c := by
  induction m with
  | nil => simp [writeMem, readMem, h]
  | cons kv m ih =>
    obtain ⟨k, v⟩ := kv
    simp only [writeMem]
    split
    · simp [readMem, h]
    · split
      · rename_i _ hk; subst hk; simp [readMem, h]
      · simp only [readMem]; split <;> simp [ih]

/-- The address of the first cell, if there is one, is above `a`. -/
def headAbove (a : Nat) : List Host.Cell → Prop
  | [] => True
  | (k, _) :: _ => a < k

theorem wf_cons {k : Nat} {v : Byte} {m : List Host.Cell} :
    Memory.wf ((k, v) :: m) = true ↔ headAbove k m ∧ Memory.wf m = true := by
  cases m with
  | nil => simp [Memory.wf, headAbove]
  | cons kv m => obtain ⟨j, w⟩ := kv; simp [Memory.wf, headAbove]

theorem headAbove_writeMem {k a : Nat} {b : Byte} {m : List Host.Cell} (hk : k < a) (h : headAbove k m) :
    headAbove k (writeMem m a b) := by
  cases m with
  | nil => exact hk
  | cons jw m =>
    obtain ⟨j, w⟩ := jw
    simp only [writeMem]
    split
    · exact hk
    · split
      · exact hk
      · exact h

/-- A write keeps the canonical form. -/
theorem writeMem_wf {m : List Host.Cell} (a : Nat) (b : Byte) (h : Memory.wf m = true) :
    Memory.wf (writeMem m a b) = true := by
  induction m with
  | nil => rfl
  | cons kv m ih =>
    obtain ⟨k, v⟩ := kv
    have hw := wf_cons.1 h
    simp only [writeMem]
    split
    · rename_i hk; exact wf_cons.2 ⟨hk, h⟩
    · split
      · rename_i hk; subst hk; exact wf_cons.2 hw
      · exact wf_cons.2 ⟨headAbove_writeMem (by omega) hw.1, ih hw.2⟩

end Sys2Proof.Laws
end

