-- ==== Sys2Proof/Laws/Operands.lean ====
section
/-! SUPPORT. What the fields of the words are: each field of a word the controller or the driver builds reads back as what
was put in (spec/30_encoding.md R66 to R70, R84). -/

namespace Sys2Proof.Laws

open Sys2Proof.Machine

/-- A bit of a TXCNT word of the reference controller. -/
theorem getLsbD_txcntWord (top : Byte) (draw : Word) (i : Nat) :
    (txcntWord top draw).getLsbD i =
      if i < 24 then (draw.setWidth 24).getLsbD i else top.getLsbD (i - 24) :=
  BitVec.getLsbD_append (x := top) (y := draw.setWidth 24) (i := i)

/-- A bit of a code. -/
theorem getLsbD_packCode (x : BitVec 4) (t : Byte) (p : BitVec 56) (i : Nat) :
    (packCode x t p).getLsbD i =
      if i < 56 then p.getLsbD i
      else if i - 56 < 4 then (t.setWidth 4).getLsbD (i - 56) else x.getLsbD (i - 56 - 4) := by
  have h := BitVec.getLsbD_append (x := x ++ t.setWidth 4) (y := p) (i := i)
  have h' := BitVec.getLsbD_append (x := x) (y := t.setWidth 4) (i := i - 56)
  exact h.trans (by rw [h'])

/-- A bit of a trap's payload. -/
theorem getLsbD_trapPayload (c : Code) (i : Nat) :
    (trapPayload c).getLsbD i =
      if i < 55 then (c.extractLsb' 0 55).getLsbD i else (c.extractLsb' 63 1).getLsbD (i - 55) :=
  BitVec.getLsbD_append (x := c.extractLsb' 63 1) (y := c.extractLsb' 0 55) (i := i)

theorem getLsbD_mask8 (lsb i : Nat) : (0xFF#32 <<< lsb).getLsbD i = (decide (i < 32) && decide (lsb ≤ i) && decide (i - lsb < 8)) := by
  have h : ∀ j, (0xFF#32).getLsbD j = decide (j < 8) := by
    intro j
    by_cases hj : j < 32
    · interval_cases j <;> rfl
    · rw [BitVec.getLsbD_of_ge _ _ (by omega)]
      have : ¬ j < 8 := by omega
      simp [this]
  rw [BitVec.getLsbD_shiftLeft, h]
  by_cases h1 : i < 32 <;> by_cases h2 : i < lsb
  · have : ¬ lsb ≤ i := by omega
    simp [h1, h2, this]
  · have : lsb ≤ i := by omega
    simp [h1, h2, this]
  · simp [h1]
  · simp [h1]

/-- R66: the byte of a TXDATA word is the byte sent. -/
theorem getField_txWord {lsb : Nat} (hl : lsb ≤ 24) (b : Byte) : getField lsb (txWord lsb b) = b := by
  apply BitVec.eq_of_getLsbD_eq
  intro i hi
  have h1 : lsb + i < 32 := by omega
  simp [getField, txWord, hi, h1]

/-- R69: the byte field of a word after it was set. -/
theorem getField_setField {lsb : Nat} (hl : lsb ≤ 24) (w : Word) (b : Byte) :
    getField lsb (setField lsb w b) = b := by
  apply BitVec.eq_of_getLsbD_eq
  intro i hi
  have h1 : lsb + i < 32 := by omega
  simp only [getField, setField, BitVec.getLsbD_extractLsb', BitVec.getLsbD_or, BitVec.getLsbD_and,
    BitVec.getLsbD_not, getLsbD_mask8]
  simp [hi, h1]

/-- R67: the top byte of a TXCNT word of the reference controller. -/
theorem txcntTop_txcntWord (top : Byte) (draw : Word) : txcntTop (txcntWord top draw) = top := by
  apply BitVec.eq_of_getLsbD_eq
  intro i hi
  rw [txcntTop, BitVec.getLsbD_extractLsb', getLsbD_txcntWord]
  simp [hi]

/-- R68: what the indicator of a built RXRDY word says. -/
theorem rxReady_rxrdyWord {mask : Word} (hm : mask ≠ 0) (ready : Bool) (draw : Word) :
    rxReady mask (rxrdyWord mask ready draw) = ready := by
  cases ready
  · simp only [rxrdyWord, rxReady]
    have : draw &&& ~~~mask &&& mask = 0 := by
      apply BitVec.eq_of_getLsbD_eq; intro i hi; simp
    simp [this]
  · simp only [rxrdyWord, if_true]
    split
    · assumption
    · have : (draw ||| mask) &&& mask = mask := by
        apply BitVec.eq_of_getLsbD_eq; intro i hi; simp; tauto
      simp [rxReady, this]; exact hm

/-- R69: with `P_RX_SAME_READ` the byte field and the indicator do not overlap, so the byte leaves the indicator alone. -/
theorem rxReady_setField {mask : Word} {lsb : Nat} (hm : mask &&& (0xFF#32 <<< lsb) = 0) (w : Word) (b : Byte) :
    rxReady mask (setField lsb w b) = rxReady mask w := by
  have : setField lsb w b &&& mask = w &&& mask := by
    apply BitVec.eq_of_getLsbD_eq
    intro i hi
    have hb : (mask &&& (0xFF#32 <<< lsb)).getLsbD i = false := by rw [hm]; simp
    rw [BitVec.getLsbD_and, getLsbD_mask8] at hb
    simp only [setField, BitVec.getLsbD_and, BitVec.getLsbD_or, BitVec.getLsbD_not, getLsbD_mask8, hi, decide_true,
      Bool.true_and]
    rw [BitVec.getLsbD_shiftLeft, BitVec.getLsbD_setWidth]
    cases hmi : mask.getLsbD i
    · simp
    · simp only [hmi, Bool.true_and, hi, decide_true] at hb
      have hbig : lsb ≤ i → b.getLsbD (i - lsb) = false := fun hle => by
        simp [hle] at hb
        exact BitVec.getLsbD_of_ge _ _ hb
      by_cases hle : lsb ≤ i
      · simp only [hb, hbig hle]
        simp [hi]
      · have : i < lsb := by omega
        simp only [hb, this]
        simp [hi]
  simp [rxReady, this]

/-- R100, R101: the inhibit bit of a word after it was set. -/
theorem inhLevel_withInhibit {bit : Nat} (hb : bit ≤ 31) (level : Bool) (w : Word) :
    inhLevel bit (withInhibit bit level w) = level := by
  have h1 : bit < 32 := by omega
  cases level <;> simp [inhLevel, withInhibit, h1]

/-- R23: every other bit of the word is as before. -/
theorem getLsbD_withInhibit_ne {bit i : Nat} (hne : i ≠ bit) (level : Bool) (w : Word) :
    (withInhibit bit level w).getLsbD i = w.getLsbD i := by
  have h2 : (1#32 <<< bit).getLsbD i = false := by
    rw [BitVec.getLsbD_shiftLeft]
    by_cases hlt : i < bit
    · simp [hlt]
    · have h3 : i - bit ≠ 0 := by omega
      have h4 : (1#32).getLsbD (i - bit) = false := by
        rw [BitVec.getLsbD_one]; simp [h3]
      simp [h4]
  cases level
  · simp only [withInhibit, Bool.false_eq_true, if_false, BitVec.getLsbD_and, BitVec.getLsbD_not, h2]
    by_cases hi : i < 32
    · simp [hi]
    · rw [BitVec.getLsbD_of_ge w i (by omega)]; simp
  · simp [withInhibit, h2]

/-! ## The diagnostic code -/

theorem packCode_stage (x : BitVec 4) (t : Byte) (p : BitVec 56) :
    (packCode x t p).extractLsb' 60 4 = x := by
  apply BitVec.eq_of_getLsbD_eq
  intro i hi
  have h1 : ¬ (60 + i < 56) := by omega
  have h2 : ¬ (60 + i - 56 < 4) := by omega
  have h3 : 60 + i - 56 - 4 = i := by omega
  rw [BitVec.getLsbD_extractLsb', getLsbD_packCode, if_neg h1, if_neg h2, h3]
  simp [hi]

theorem packCode_trap (x : BitVec 4) (t : Byte) (p : BitVec 56) :
    (packCode x t p).extractLsb' 56 4 = t.setWidth 4 := by
  apply BitVec.eq_of_getLsbD_eq
  intro i hi
  have h1 : ¬ (56 + i < 56) := by omega
  have h2 : 56 + i - 56 < 4 := by omega
  have h3 : 56 + i - 56 = i := by omega
  rw [BitVec.getLsbD_extractLsb', getLsbD_packCode, if_neg h1, if_pos h2, h3]
  simp [hi]

theorem packCode_payload (x : BitVec 4) (t : Byte) (p : BitVec 56) :
    (packCode x t p).extractLsb' 0 56 = p := by
  apply BitVec.eq_of_getLsbD_eq
  intro i hi
  have h1 : 0 + i < 56 := by omega
  rw [BitVec.getLsbD_extractLsb', getLsbD_packCode, if_pos h1]
  simp [hi]

/-- R84: bit 55 and bits 54 to 0 of a code are those of its payload. -/
theorem packCode_low (x : BitVec 4) (t : Byte) (p : BitVec 56) :
    (packCode x t p).extractLsb' 55 1 = p.extractLsb' 55 1 ∧
      (packCode x t p).extractLsb' 0 55 = p.extractLsb' 0 55 := by
  constructor
  · apply BitVec.eq_of_getLsbD_eq
    intro i hi
    have h1 : 55 + i < 56 := by omega
    rw [BitVec.getLsbD_extractLsb', BitVec.getLsbD_extractLsb', getLsbD_packCode, if_pos h1]
  · apply BitVec.eq_of_getLsbD_eq
    intro i hi
    have h1 : 0 + i < 56 := by omega
    rw [BitVec.getLsbD_extractLsb', BitVec.getLsbD_extractLsb', getLsbD_packCode, if_pos h1]

/-- R74: the two parts of a trap's payload. -/
theorem trapPayload_parts (c : Code) :
    (trapPayload c).extractLsb' 55 1 = c.extractLsb' 63 1 ∧
      (trapPayload c).extractLsb' 0 55 = c.extractLsb' 0 55 := by
  constructor
  · apply BitVec.eq_of_getLsbD_eq
    intro i hi
    have h1 : ¬ (55 + i < 55) := by omega
    have h3 : 55 + i - 55 = i := by omega
    rw [BitVec.getLsbD_extractLsb', getLsbD_trapPayload, if_neg h1, h3]
    simp [hi]
  · apply BitVec.eq_of_getLsbD_eq
    intro i hi
    have h1 : 0 + i < 55 := by omega
    rw [BitVec.getLsbD_extractLsb', getLsbD_trapPayload, if_pos h1]
    simp [hi]

end Sys2Proof.Laws
end

