-- ==== Sys2Proof/Laws/State.lean ====
section
/-! SUPPORT. The small lemmas of the state: one per field per named update, and what a core is after an update. -/

namespace Sys2Proof.Laws

open Sys2Proof.Machine

@[simp] theorem setCore_cfg (s : State) (h : Nat) (c : Core) : (s.setCore h c).cfg = s.cfg := rfl
@[simp] theorem setCore_txq (s : State) (h : Nat) (c : Core) : (s.setCore h c).txq = s.txq := rfl
@[simp] theorem setCore_rxq (s : State) (h : Nat) (c : Core) : (s.setCore h c).rxq = s.rxq := rfl
@[simp] theorem setCore_inh (s : State) (h : Nat) (c : Core) : (s.setCore h c).inh = s.inh := rfl
@[simp] theorem setCore_txdata (s : State) (h : Nat) (c : Core) : (s.setCore h c).txdata = s.txdata := rfl
@[simp] theorem setCore_wire (s : State) (h : Nat) (c : Core) : (s.setCore h c).wire = s.wire := rfl
@[simp] theorem setCore_otherRegs (s : State) (h : Nat) (c : Core) : (s.setCore h c).otherRegs = s.otherRegs := rfl
@[simp] theorem setCore_engineFault (s : State) (h : Nat) (c : Core) : (s.setCore h c).engineFault = s.engineFault := rfl
@[simp] theorem setCore_gpioVal (s : State) (h : Nat) (c : Core) : (s.setCore h c).gpioVal = s.gpioVal := rfl
@[simp] theorem setCore_gpioEn (s : State) (h : Nat) (c : Core) : (s.setCore h c).gpioEn = s.gpioEn := rfl
@[simp] theorem setCore_gpioInv (s : State) (h : Nat) (c : Core) : (s.setCore h c).gpioInv = s.gpioInv := rfl
@[simp] theorem setCore_console (s : State) (h : Nat) (c : Core) : (s.setCore h c).console = s.console := rfl
@[simp] theorem setCore_mem (s : State) (h : Nat) (c : Core) : (s.setCore h c).mem = s.mem := rfl
@[simp] theorem setCore_cur (s : State) (h : Nat) (c : Core) : (s.setCore h c).cur = s.cur := rfl
@[simp] theorem setCore_prog (s : State) (h : Nat) (c : Core) : (s.setCore h c).prog = s.prog := rfl
@[simp] theorem setCore_idx (s : State) (h : Nat) (c : Core) : (s.setCore h c).idx = s.idx := rfl
@[simp] theorem setCore_results (s : State) (h : Nat) (c : Core) : (s.setCore h c).results = s.results := rfl
@[simp] theorem setCore_hist (s : State) (h : Nat) (c : Core) : (s.setCore h c).hist = s.hist := rfl
@[simp] theorem setCore_sched (s : State) (h : Nat) (c : Core) : (s.setCore h c).sched = s.sched := rfl
@[simp] theorem setCore_engineLive (s : State) (h : Nat) (c : Core) : (s.setCore h c).engineLive = s.engineLive := rfl
@[simp] theorem setCore_miso (s : State) (h : Nat) (c : Core) : (s.setCore h c).miso = s.miso := rfl
@[simp] theorem setCore_draws (s : State) (h : Nat) (c : Core) : (s.setCore h c).draws = s.draws := rfl
@[simp] theorem setCore_nDraws (s : State) (h : Nat) (c : Core) : (s.setCore h c).nDraws = s.nDraws := rfl

@[simp] theorem setTodo_cfg (s : State) (h : Nat) (ps : List Prim) : (s.setTodo h ps).cfg = s.cfg := rfl
@[simp] theorem setTodo_txq (s : State) (h : Nat) (ps : List Prim) : (s.setTodo h ps).txq = s.txq := rfl
@[simp] theorem setTodo_rxq (s : State) (h : Nat) (ps : List Prim) : (s.setTodo h ps).rxq = s.rxq := rfl
@[simp] theorem setTodo_inh (s : State) (h : Nat) (ps : List Prim) : (s.setTodo h ps).inh = s.inh := rfl
@[simp] theorem setTodo_txdata (s : State) (h : Nat) (ps : List Prim) : (s.setTodo h ps).txdata = s.txdata := rfl
@[simp] theorem setTodo_wire (s : State) (h : Nat) (ps : List Prim) : (s.setTodo h ps).wire = s.wire := rfl
@[simp] theorem setTodo_otherRegs (s : State) (h : Nat) (ps : List Prim) : (s.setTodo h ps).otherRegs = s.otherRegs := rfl
@[simp] theorem setTodo_engineFault (s : State) (h : Nat) (ps : List Prim) : (s.setTodo h ps).engineFault = s.engineFault := rfl
@[simp] theorem setTodo_gpioVal (s : State) (h : Nat) (ps : List Prim) : (s.setTodo h ps).gpioVal = s.gpioVal := rfl
@[simp] theorem setTodo_gpioEn (s : State) (h : Nat) (ps : List Prim) : (s.setTodo h ps).gpioEn = s.gpioEn := rfl
@[simp] theorem setTodo_gpioInv (s : State) (h : Nat) (ps : List Prim) : (s.setTodo h ps).gpioInv = s.gpioInv := rfl
@[simp] theorem setTodo_console (s : State) (h : Nat) (ps : List Prim) : (s.setTodo h ps).console = s.console := rfl
@[simp] theorem setTodo_mem (s : State) (h : Nat) (ps : List Prim) : (s.setTodo h ps).mem = s.mem := rfl
@[simp] theorem setTodo_cur (s : State) (h : Nat) (ps : List Prim) : (s.setTodo h ps).cur = s.cur := rfl
@[simp] theorem setTodo_prog (s : State) (h : Nat) (ps : List Prim) : (s.setTodo h ps).prog = s.prog := rfl
@[simp] theorem setTodo_idx (s : State) (h : Nat) (ps : List Prim) : (s.setTodo h ps).idx = s.idx := rfl
@[simp] theorem setTodo_results (s : State) (h : Nat) (ps : List Prim) : (s.setTodo h ps).results = s.results := rfl
@[simp] theorem setTodo_hist (s : State) (h : Nat) (ps : List Prim) : (s.setTodo h ps).hist = s.hist := rfl
@[simp] theorem setTodo_sched (s : State) (h : Nat) (ps : List Prim) : (s.setTodo h ps).sched = s.sched := rfl
@[simp] theorem setTodo_engineLive (s : State) (h : Nat) (ps : List Prim) : (s.setTodo h ps).engineLive = s.engineLive := rfl
@[simp] theorem setTodo_miso (s : State) (h : Nat) (ps : List Prim) : (s.setTodo h ps).miso = s.miso := rfl
@[simp] theorem setTodo_draws (s : State) (h : Nat) (ps : List Prim) : (s.setTodo h ps).draws = s.draws := rfl
@[simp] theorem setTodo_nDraws (s : State) (h : Nat) (ps : List Prim) : (s.setTodo h ps).nDraws = s.nDraws := rfl

@[simp] theorem stopCore_cfg (s : State) (h : Nat) (x : Stop) : (s.stopCore h x).cfg = s.cfg := rfl
@[simp] theorem stopCore_txq (s : State) (h : Nat) (x : Stop) : (s.stopCore h x).txq = s.txq := rfl
@[simp] theorem stopCore_rxq (s : State) (h : Nat) (x : Stop) : (s.stopCore h x).rxq = s.rxq := rfl
@[simp] theorem stopCore_inh (s : State) (h : Nat) (x : Stop) : (s.stopCore h x).inh = s.inh := rfl
@[simp] theorem stopCore_txdata (s : State) (h : Nat) (x : Stop) : (s.stopCore h x).txdata = s.txdata := rfl
@[simp] theorem stopCore_wire (s : State) (h : Nat) (x : Stop) : (s.stopCore h x).wire = s.wire := rfl
@[simp] theorem stopCore_otherRegs (s : State) (h : Nat) (x : Stop) : (s.stopCore h x).otherRegs = s.otherRegs := rfl
@[simp] theorem stopCore_engineFault (s : State) (h : Nat) (x : Stop) : (s.stopCore h x).engineFault = s.engineFault := rfl
@[simp] theorem stopCore_gpioVal (s : State) (h : Nat) (x : Stop) : (s.stopCore h x).gpioVal = s.gpioVal := rfl
@[simp] theorem stopCore_gpioEn (s : State) (h : Nat) (x : Stop) : (s.stopCore h x).gpioEn = s.gpioEn := rfl
@[simp] theorem stopCore_gpioInv (s : State) (h : Nat) (x : Stop) : (s.stopCore h x).gpioInv = s.gpioInv := rfl
@[simp] theorem stopCore_console (s : State) (h : Nat) (x : Stop) : (s.stopCore h x).console = s.console := rfl
@[simp] theorem stopCore_mem (s : State) (h : Nat) (x : Stop) : (s.stopCore h x).mem = s.mem := rfl
@[simp] theorem stopCore_cur (s : State) (h : Nat) (x : Stop) : (s.stopCore h x).cur = s.cur := rfl
@[simp] theorem stopCore_prog (s : State) (h : Nat) (x : Stop) : (s.stopCore h x).prog = s.prog := rfl
@[simp] theorem stopCore_idx (s : State) (h : Nat) (x : Stop) : (s.stopCore h x).idx = s.idx := rfl
@[simp] theorem stopCore_results (s : State) (h : Nat) (x : Stop) : (s.stopCore h x).results = s.results := rfl
@[simp] theorem stopCore_hist (s : State) (h : Nat) (x : Stop) : (s.stopCore h x).hist = s.hist := rfl
@[simp] theorem stopCore_sched (s : State) (h : Nat) (x : Stop) : (s.stopCore h x).sched = s.sched := rfl
@[simp] theorem stopCore_engineLive (s : State) (h : Nat) (x : Stop) : (s.stopCore h x).engineLive = s.engineLive := rfl
@[simp] theorem stopCore_miso (s : State) (h : Nat) (x : Stop) : (s.stopCore h x).miso = s.miso := rfl
@[simp] theorem stopCore_draws (s : State) (h : Nat) (x : Stop) : (s.stopCore h x).draws = s.draws := rfl
@[simp] theorem stopCore_nDraws (s : State) (h : Nat) (x : Stop) : (s.stopCore h x).nDraws = s.nDraws := rfl

@[simp] theorem record_cfg (s : State) (e : Event) : (s.record e).cfg = s.cfg := rfl
@[simp] theorem record_txq (s : State) (e : Event) : (s.record e).txq = s.txq := rfl
@[simp] theorem record_rxq (s : State) (e : Event) : (s.record e).rxq = s.rxq := rfl
@[simp] theorem record_inh (s : State) (e : Event) : (s.record e).inh = s.inh := rfl
@[simp] theorem record_txdata (s : State) (e : Event) : (s.record e).txdata = s.txdata := rfl
@[simp] theorem record_wire (s : State) (e : Event) : (s.record e).wire = s.wire := rfl
@[simp] theorem record_otherRegs (s : State) (e : Event) : (s.record e).otherRegs = s.otherRegs := rfl
@[simp] theorem record_engineFault (s : State) (e : Event) : (s.record e).engineFault = s.engineFault := rfl
@[simp] theorem record_gpioVal (s : State) (e : Event) : (s.record e).gpioVal = s.gpioVal := rfl
@[simp] theorem record_gpioEn (s : State) (e : Event) : (s.record e).gpioEn = s.gpioEn := rfl
@[simp] theorem record_gpioInv (s : State) (e : Event) : (s.record e).gpioInv = s.gpioInv := rfl
@[simp] theorem record_console (s : State) (e : Event) : (s.record e).console = s.console := rfl
@[simp] theorem record_mem (s : State) (e : Event) : (s.record e).mem = s.mem := rfl
@[simp] theorem record_cores (s : State) (e : Event) : (s.record e).cores = s.cores := rfl
@[simp] theorem record_cur (s : State) (e : Event) : (s.record e).cur = s.cur := rfl
@[simp] theorem record_prog (s : State) (e : Event) : (s.record e).prog = s.prog := rfl
@[simp] theorem record_idx (s : State) (e : Event) : (s.record e).idx = s.idx := rfl
@[simp] theorem record_results (s : State) (e : Event) : (s.record e).results = s.results := rfl
@[simp] theorem record_sched (s : State) (e : Event) : (s.record e).sched = s.sched := rfl
@[simp] theorem record_engineLive (s : State) (e : Event) : (s.record e).engineLive = s.engineLive := rfl
@[simp] theorem record_miso (s : State) (e : Event) : (s.record e).miso = s.miso := rfl
@[simp] theorem record_draws (s : State) (e : Event) : (s.record e).draws = s.draws := rfl
@[simp] theorem record_nDraws (s : State) (e : Event) : (s.record e).nDraws = s.nDraws := rfl

@[simp] theorem answered_cfg (s : State) : (s.answered).cfg = s.cfg := rfl
@[simp] theorem answered_txq (s : State) : (s.answered).txq = s.txq := rfl
@[simp] theorem answered_rxq (s : State) : (s.answered).rxq = s.rxq := rfl
@[simp] theorem answered_inh (s : State) : (s.answered).inh = s.inh := rfl
@[simp] theorem answered_txdata (s : State) : (s.answered).txdata = s.txdata := rfl
@[simp] theorem answered_wire (s : State) : (s.answered).wire = s.wire := rfl
@[simp] theorem answered_otherRegs (s : State) : (s.answered).otherRegs = s.otherRegs := rfl
@[simp] theorem answered_engineFault (s : State) : (s.answered).engineFault = s.engineFault := rfl
@[simp] theorem answered_gpioVal (s : State) : (s.answered).gpioVal = s.gpioVal := rfl
@[simp] theorem answered_gpioEn (s : State) : (s.answered).gpioEn = s.gpioEn := rfl
@[simp] theorem answered_gpioInv (s : State) : (s.answered).gpioInv = s.gpioInv := rfl
@[simp] theorem answered_console (s : State) : (s.answered).console = s.console := rfl
@[simp] theorem answered_mem (s : State) : (s.answered).mem = s.mem := rfl
@[simp] theorem answered_cores (s : State) : (s.answered).cores = s.cores := rfl
@[simp] theorem answered_cur (s : State) : (s.answered).cur = s.cur := rfl
@[simp] theorem answered_prog (s : State) : (s.answered).prog = s.prog := rfl
@[simp] theorem answered_idx (s : State) : (s.answered).idx = s.idx := rfl
@[simp] theorem answered_results (s : State) : (s.answered).results = s.results := rfl
@[simp] theorem answered_hist (s : State) : (s.answered).hist = s.hist := rfl
@[simp] theorem answered_sched (s : State) : (s.answered).sched = s.sched := rfl
@[simp] theorem answered_engineLive (s : State) : (s.answered).engineLive = s.engineLive := rfl
@[simp] theorem answered_draws (s : State) : (s.answered).draws = s.draws := rfl
@[simp] theorem answered_nDraws (s : State) : (s.answered).nDraws = s.nDraws := rfl

@[simp] theorem retire_cfg (s : State) (r : Result) : (s.retire r).cfg = s.cfg := rfl
@[simp] theorem retire_txq (s : State) (r : Result) : (s.retire r).txq = s.txq := rfl
@[simp] theorem retire_rxq (s : State) (r : Result) : (s.retire r).rxq = s.rxq := rfl
@[simp] theorem retire_inh (s : State) (r : Result) : (s.retire r).inh = s.inh := rfl
@[simp] theorem retire_txdata (s : State) (r : Result) : (s.retire r).txdata = s.txdata := rfl
@[simp] theorem retire_wire (s : State) (r : Result) : (s.retire r).wire = s.wire := rfl
@[simp] theorem retire_otherRegs (s : State) (r : Result) : (s.retire r).otherRegs = s.otherRegs := rfl
@[simp] theorem retire_engineFault (s : State) (r : Result) : (s.retire r).engineFault = s.engineFault := rfl
@[simp] theorem retire_gpioVal (s : State) (r : Result) : (s.retire r).gpioVal = s.gpioVal := rfl
@[simp] theorem retire_gpioEn (s : State) (r : Result) : (s.retire r).gpioEn = s.gpioEn := rfl
@[simp] theorem retire_gpioInv (s : State) (r : Result) : (s.retire r).gpioInv = s.gpioInv := rfl
@[simp] theorem retire_console (s : State) (r : Result) : (s.retire r).console = s.console := rfl
@[simp] theorem retire_mem (s : State) (r : Result) : (s.retire r).mem = s.mem := rfl
@[simp] theorem retire_cores (s : State) (r : Result) : (s.retire r).cores = s.cores := rfl
@[simp] theorem retire_cur (s : State) (r : Result) : (s.retire r).cur = s.cur := rfl
@[simp] theorem retire_prog (s : State) (r : Result) : (s.retire r).prog = s.prog := rfl
@[simp] theorem retire_hist (s : State) (r : Result) : (s.retire r).hist = s.hist := rfl
@[simp] theorem retire_sched (s : State) (r : Result) : (s.retire r).sched = s.sched := rfl
@[simp] theorem retire_engineLive (s : State) (r : Result) : (s.retire r).engineLive = s.engineLive := rfl
@[simp] theorem retire_miso (s : State) (r : Result) : (s.retire r).miso = s.miso := rfl
@[simp] theorem retire_draws (s : State) (r : Result) : (s.retire r).draws = s.draws := rfl
@[simp] theorem retire_nDraws (s : State) (r : Result) : (s.retire r).nDraws = s.nDraws := rfl

@[simp] theorem drawn_cfg (s : State) : (s.drawn).cfg = s.cfg := by
  unfold State.drawn; split <;> rfl
@[simp] theorem drawn_txq (s : State) : (s.drawn).txq = s.txq := by
  unfold State.drawn; split <;> rfl
@[simp] theorem drawn_rxq (s : State) : (s.drawn).rxq = s.rxq := by
  unfold State.drawn; split <;> rfl
@[simp] theorem drawn_inh (s : State) : (s.drawn).inh = s.inh := by
  unfold State.drawn; split <;> rfl
@[simp] theorem drawn_txdata (s : State) : (s.drawn).txdata = s.txdata := by
  unfold State.drawn; split <;> rfl
@[simp] theorem drawn_wire (s : State) : (s.drawn).wire = s.wire := by
  unfold State.drawn; split <;> rfl
@[simp] theorem drawn_otherRegs (s : State) : (s.drawn).otherRegs = s.otherRegs := by
  unfold State.drawn; split <;> rfl
@[simp] theorem drawn_engineFault (s : State) : (s.drawn).engineFault = s.engineFault := by
  unfold State.drawn; split <;> rfl
@[simp] theorem drawn_gpioVal (s : State) : (s.drawn).gpioVal = s.gpioVal := by
  unfold State.drawn; split <;> rfl
@[simp] theorem drawn_gpioEn (s : State) : (s.drawn).gpioEn = s.gpioEn := by
  unfold State.drawn; split <;> rfl
@[simp] theorem drawn_gpioInv (s : State) : (s.drawn).gpioInv = s.gpioInv := by
  unfold State.drawn; split <;> rfl
@[simp] theorem drawn_console (s : State) : (s.drawn).console = s.console := by
  unfold State.drawn; split <;> rfl
@[simp] theorem drawn_mem (s : State) : (s.drawn).mem = s.mem := by
  unfold State.drawn; split <;> rfl
@[simp] theorem drawn_cores (s : State) : (s.drawn).cores = s.cores := by
  unfold State.drawn; split <;> rfl
@[simp] theorem drawn_cur (s : State) : (s.drawn).cur = s.cur := by
  unfold State.drawn; split <;> rfl
@[simp] theorem drawn_prog (s : State) : (s.drawn).prog = s.prog := by
  unfold State.drawn; split <;> rfl
@[simp] theorem drawn_idx (s : State) : (s.drawn).idx = s.idx := by
  unfold State.drawn; split <;> rfl
@[simp] theorem drawn_results (s : State) : (s.drawn).results = s.results := by
  unfold State.drawn; split <;> rfl
@[simp] theorem drawn_hist (s : State) : (s.drawn).hist = s.hist := by
  unfold State.drawn; split <;> rfl
@[simp] theorem drawn_sched (s : State) : (s.drawn).sched = s.sched := by
  unfold State.drawn; split <;> rfl
@[simp] theorem drawn_engineLive (s : State) : (s.drawn).engineLive = s.engineLive := by
  unfold State.drawn; split <;> rfl
@[simp] theorem drawn_miso (s : State) : (s.drawn).miso = s.miso := by
  unfold State.drawn; split <;> rfl

@[simp] theorem setGpio_cfg (s : State) (r : GpioReg) (w : Word) : (s.setGpio r w).cfg = s.cfg := by
  cases r <;> rfl
@[simp] theorem setGpio_txq (s : State) (r : GpioReg) (w : Word) : (s.setGpio r w).txq = s.txq := by
  cases r <;> rfl
@[simp] theorem setGpio_rxq (s : State) (r : GpioReg) (w : Word) : (s.setGpio r w).rxq = s.rxq := by
  cases r <;> rfl
@[simp] theorem setGpio_inh (s : State) (r : GpioReg) (w : Word) : (s.setGpio r w).inh = s.inh := by
  cases r <;> rfl
@[simp] theorem setGpio_txdata (s : State) (r : GpioReg) (w : Word) : (s.setGpio r w).txdata = s.txdata := by
  cases r <;> rfl
@[simp] theorem setGpio_wire (s : State) (r : GpioReg) (w : Word) : (s.setGpio r w).wire = s.wire := by
  cases r <;> rfl
@[simp] theorem setGpio_otherRegs (s : State) (r : GpioReg) (w : Word) : (s.setGpio r w).otherRegs = s.otherRegs := by
  cases r <;> rfl
@[simp] theorem setGpio_engineFault (s : State) (r : GpioReg) (w : Word) : (s.setGpio r w).engineFault = s.engineFault := by
  cases r <;> rfl
@[simp] theorem setGpio_console (s : State) (r : GpioReg) (w : Word) : (s.setGpio r w).console = s.console := by
  cases r <;> rfl
@[simp] theorem setGpio_mem (s : State) (r : GpioReg) (w : Word) : (s.setGpio r w).mem = s.mem := by
  cases r <;> rfl
@[simp] theorem setGpio_cores (s : State) (r : GpioReg) (w : Word) : (s.setGpio r w).cores = s.cores := by
  cases r <;> rfl
@[simp] theorem setGpio_cur (s : State) (r : GpioReg) (w : Word) : (s.setGpio r w).cur = s.cur := by
  cases r <;> rfl
@[simp] theorem setGpio_prog (s : State) (r : GpioReg) (w : Word) : (s.setGpio r w).prog = s.prog := by
  cases r <;> rfl
@[simp] theorem setGpio_idx (s : State) (r : GpioReg) (w : Word) : (s.setGpio r w).idx = s.idx := by
  cases r <;> rfl
@[simp] theorem setGpio_results (s : State) (r : GpioReg) (w : Word) : (s.setGpio r w).results = s.results := by
  cases r <;> rfl
@[simp] theorem setGpio_hist (s : State) (r : GpioReg) (w : Word) : (s.setGpio r w).hist = s.hist := by
  cases r <;> rfl
@[simp] theorem setGpio_sched (s : State) (r : GpioReg) (w : Word) : (s.setGpio r w).sched = s.sched := by
  cases r <;> rfl
@[simp] theorem setGpio_engineLive (s : State) (r : GpioReg) (w : Word) : (s.setGpio r w).engineLive = s.engineLive := by
  cases r <;> rfl
@[simp] theorem setGpio_miso (s : State) (r : GpioReg) (w : Word) : (s.setGpio r w).miso = s.miso := by
  cases r <;> rfl
@[simp] theorem setGpio_draws (s : State) (r : GpioReg) (w : Word) : (s.setGpio r w).draws = s.draws := by
  cases r <;> rfl
@[simp] theorem setGpio_nDraws (s : State) (r : GpioReg) (w : Word) : (s.setGpio r w).nDraws = s.nDraws := by
  cases r <;> rfl

@[simp] theorem turnTaken_cfg (s : State) : (s.turnTaken).cfg = s.cfg := rfl
@[simp] theorem turnTaken_txq (s : State) : (s.turnTaken).txq = s.txq := rfl
@[simp] theorem turnTaken_rxq (s : State) : (s.turnTaken).rxq = s.rxq := rfl
@[simp] theorem turnTaken_inh (s : State) : (s.turnTaken).inh = s.inh := rfl
@[simp] theorem turnTaken_txdata (s : State) : (s.turnTaken).txdata = s.txdata := rfl
@[simp] theorem turnTaken_wire (s : State) : (s.turnTaken).wire = s.wire := rfl
@[simp] theorem turnTaken_otherRegs (s : State) : (s.turnTaken).otherRegs = s.otherRegs := rfl
@[simp] theorem turnTaken_engineFault (s : State) : (s.turnTaken).engineFault = s.engineFault := rfl
@[simp] theorem turnTaken_gpioVal (s : State) : (s.turnTaken).gpioVal = s.gpioVal := rfl
@[simp] theorem turnTaken_gpioEn (s : State) : (s.turnTaken).gpioEn = s.gpioEn := rfl
@[simp] theorem turnTaken_gpioInv (s : State) : (s.turnTaken).gpioInv = s.gpioInv := rfl
@[simp] theorem turnTaken_console (s : State) : (s.turnTaken).console = s.console := rfl
@[simp] theorem turnTaken_mem (s : State) : (s.turnTaken).mem = s.mem := rfl
@[simp] theorem turnTaken_cores (s : State) : (s.turnTaken).cores = s.cores := rfl
@[simp] theorem turnTaken_cur (s : State) : (s.turnTaken).cur = s.cur := rfl
@[simp] theorem turnTaken_prog (s : State) : (s.turnTaken).prog = s.prog := rfl
@[simp] theorem turnTaken_idx (s : State) : (s.turnTaken).idx = s.idx := rfl
@[simp] theorem turnTaken_results (s : State) : (s.turnTaken).results = s.results := rfl
@[simp] theorem turnTaken_hist (s : State) : (s.turnTaken).hist = s.hist := rfl
@[simp] theorem turnTaken_engineLive (s : State) : (s.turnTaken).engineLive = s.engineLive := rfl
@[simp] theorem turnTaken_miso (s : State) : (s.turnTaken).miso = s.miso := rfl
@[simp] theorem turnTaken_draws (s : State) : (s.turnTaken).draws = s.draws := rfl
@[simp] theorem turnTaken_nDraws (s : State) : (s.turnTaken).nDraws = s.nDraws := rfl

@[simp] theorem record_hist (s : State) (e : Event) : (s.record e).hist = s.hist ++ [e] := rfl
@[simp] theorem answered_miso (s : State) : s.answered.miso = s.miso.tail := rfl
@[simp] theorem retire_results (s : State) (r : Result) : (s.retire r).results = s.results ++ [r] := rfl
@[simp] theorem retire_idx (s : State) (r : Result) : (s.retire r).idx = s.idx + 1 := rfl
@[simp] theorem setCore_cores (s : State) (h : Nat) (c : Core) : (s.setCore h c).cores = s.cores.set h c := rfl
@[simp] theorem turnTaken_sched (s : State) : s.turnTaken.sched = s.sched.tail := rfl

theorem drawn_draws (s : State) : s.drawn.draws = s.draws.tail := by
  unfold State.drawn; split <;> simp_all

theorem drawn_nDraws (s : State) : s.drawn.nDraws = s.nDraws + if s.draws = [] then 1 else 0 := by
  unfold State.drawn; split <;> simp_all

/-- Taking a draw changes nothing but the draws. -/
theorem drawn_eq (s : State) : s.drawn = { s with
    draws := s.draws.tail, nDraws := s.nDraws + if s.draws = [] then 1 else 0 } := by
  unfold State.drawn; split <;> simp_all

theorem drawn_draws_length (s : State) : s.drawn.draws.length ≤ s.draws.length := by
  rw [drawn_draws]; simp

/-! What a core is after an update. -/

theorem core_def (s : State) (h : Nat) : s.core h = s.cores.getD h Core.reset := rfl

/-- A state with the same cores has the same core `h`. -/
theorem core_congr {s s' : State} (e : s'.cores = s.cores) (h : Nat) : s'.core h = s.core h := by
  simp [State.core, e]

@[simp] theorem record_core (s : State) (e : Event) (k : Nat) : (s.record e).core k = s.core k := core_congr (record_cores s e) k
@[simp] theorem answered_core (s : State) (k : Nat) : (s.answered).core k = s.core k := core_congr (answered_cores s) k
@[simp] theorem retire_core (s : State) (r : Result) (k : Nat) : (s.retire r).core k = s.core k := core_congr (retire_cores s r) k
@[simp] theorem drawn_core (s : State) (k : Nat) : (s.drawn).core k = s.core k := core_congr (drawn_cores s) k
@[simp] theorem setGpio_core (s : State) (r : GpioReg) (w : Word) (k : Nat) : (s.setGpio r w).core k = s.core k := core_congr (setGpio_cores s r w) k
@[simp] theorem turnTaken_core (s : State) (k : Nat) : (s.turnTaken).core k = s.core k := core_congr (turnTaken_cores s) k

/-- Core `h` of the machine, once replaced. -/
theorem core_setCore_self {s : State} {h : Nat} (c : Core) (hh : h < s.cores.length) :
    (s.setCore h c).core h = c := by
  simp [State.core, State.setCore, List.getD, hh]

/-- The other cores, once one is replaced. -/
theorem core_setCore_ne {s : State} {h k : Nat} (c : Core) (hk : h ≠ k) :
    (s.setCore h c).core k = s.core k := by
  simp [State.core, State.setCore, List.getD, List.getElem?_set_ne hk]

theorem core_setTodo_self {s : State} {h : Nat} (ps : List Prim) (hh : h < s.cores.length) :
    (s.setTodo h ps).core h = { s.core h with todo := ps } :=
  core_setCore_self _ hh

theorem core_setTodo_ne {s : State} {h k : Nat} (ps : List Prim) (hk : h ≠ k) :
    (s.setTodo h ps).core k = s.core k :=
  core_setCore_ne _ hk

/-- The core whose run ends. -/
theorem core_stopCore_self {s : State} {h : Nat} (x : Stop) (hh : h < s.cores.length) :
    (s.stopCore h x).core h = { s.core h with stop := some x, todo := [] } :=
  core_setCore_self _ hh

theorem core_stopCore_ne {s : State} {h k : Nat} (x : Stop) (hk : h ≠ k) :
    (s.stopCore h x).core k = s.core k :=
  core_setCore_ne _ hk

/-- A core whose run ends has nothing left to do. -/
theorem todo_stopCore_self (s : State) (h : Nat) (x : Stop) : ((s.stopCore h x).core h).todo = [] := by
  rcases Nat.lt_or_ge h s.cores.length with hh | hh
  · rw [core_stopCore_self x hh]
  · simp [State.stopCore, State.setCore, State.core, List.set_eq_of_length_le hh, List.getD, hh]; rfl

@[simp] theorem setTodo_cores_length (s : State) (h : Nat) (ps : List Prim) :
    (s.setTodo h ps).cores.length = s.cores.length := by
  simp [State.setTodo]

@[simp] theorem stopCore_cores_length (s : State) (h : Nat) (x : Stop) :
    (s.stopCore h x).cores.length = s.cores.length := by
  simp [State.stopCore]

/-- A core the machine does not have is a core at reset. -/
theorem core_of_length_le {s : State} {h : Nat} (hh : s.cores.length ≤ h) : s.core h = Core.reset := by
  simp [State.core, List.getD, hh]

/-- A core with something left to do is a core of the machine. -/
theorem lt_of_todo_ne_nil {s : State} {h : Nat} (ht : (s.core h).todo ≠ []) : h < s.cores.length := by
  by_contra hc
  exact ht (by rw [core_of_length_le (by omega)]; rfl)

/-- What core `k` is after core `h` was replaced: the new one, or as before. -/
theorem core_setCore_cases (s : State) (h k : Nat) (c : Core) :
    ((s.setCore h c).core k = c ∧ k = h ∧ h < s.cores.length) ∨ (s.setCore h c).core k = s.core k := by
  by_cases hk : h = k
  · subst hk
    by_cases hh : h < s.cores.length
    · exact .inl ⟨core_setCore_self c hh, rfl, hh⟩
    · right
      simp [State.core, State.setCore, List.set_eq_of_length_le (Nat.le_of_not_lt hh)]
  · exact .inr (core_setCore_ne c hk)

end Sys2Proof.Laws
end

