-- ==== Sys2Proof/Laws/Ops.lean ====
section
/-! SUPPORT. What each shared operation of Machine/Ops.lean can do, said once. -/

namespace Sys2Proof.Laws

open Sys2Proof Sys2Proof.Machine

/-! ## The controller reads: the state after, and the field against the word -/

/-- R32: what a TXCNT read leaves. -/
theorem readTxcnt_state (h : Nat) (s : State) :
    ∃ w, (readTxcnt h s).2 = s.drawn.record (.ioR h s.cfg.offTxcnt w) ∧ txcntTop w = (readTxcnt h s).1 := by
  unfold readTxcnt
  cases hi : s.cfg.iface
  · exact ⟨s.draw, rfl, rfl⟩
  · exact ⟨_, rfl, txcntTop_txcntWord _ _⟩

/-- R32, R36: what an RXRDY read leaves: the history grows by the read, and a ready read of the reference controller
with `P_RX_SAME_READ` pops `rxq`. -/
theorem readRxrdy_state (h : Nat) (s : State) :
    ∃ w, (readRxrdy h s).2.2 = s.drawn.record (.ioR h s.cfg.offRxrdy w) ∨
      (∃ b q, s.rxq = b :: q ∧ s.cfg.iface = .reference ∧ s.cfg.rxSameRead = true ∧ (readRxrdy h s).1 = true ∧
        (readRxrdy h s).2.1 = b ∧
        (readRxrdy h s).2.2 = { s.drawn.record (.ioR h s.cfg.offRxrdy w) with rxq := q }) := by
  refine ⟨rxrdyRead s, ?_⟩
  unfold readRxrdy
  cases hi : s.cfg.iface
  · exact .inl rfl
  · cases hq : s.rxq with
    | nil => exact .inl rfl
    | cons b q =>
      cases hs : s.cfg.rxSameRead
      · exact .inl rfl
      · exact .inr ⟨b, q, rfl, rfl, rfl, rfl, rfl, rfl⟩

/-- R32: the indicator a read sees is the one of the word it records, and with `P_RX_SAME_READ` so is the byte. -/
theorem readRxrdy_word {h : Nat} {s : State} (hm : s.cfg.rxrdyMask ≠ 0) (hl : s.cfg.rxByteLsb ≤ 24)
    (hs : s.cfg.rxSameRead = true → s.cfg.rxrdyMask &&& (0xFF#32 <<< s.cfg.rxByteLsb) = 0) :
    rxReady s.cfg.rxrdyMask (rxrdyRead s) = (readRxrdy h s).1 ∧
      (s.cfg.rxSameRead = true → (readRxrdy h s).1 = true →
        getField s.cfg.rxByteLsb (rxrdyRead s) = (readRxrdy h s).2.1) := by
  unfold readRxrdy rxrdyRead
  cases hi : s.cfg.iface
  · simp
  · cases hq : s.rxq with
    | nil => simp [rxReady_rxrdyWord hm]
    | cons b q =>
      by_cases hsr : s.cfg.rxSameRead = true
      · simp [hsr, rxReady_setField (hs hsr), rxReady_rxrdyWord hm, getField_setField hl]
      · simp [hsr, rxReady_rxrdyWord hm]

/-- R36: what an RXDATA read leaves. -/
theorem readRxdata_state {h : Nat} {s : State} {r : Byte × State} (hr : readRxdata h s = some r) :
    ∃ w, r.2 = s.drawn.record (.ioR h s.cfg.offRxdata w) ∨
      (∃ q, s.rxq = r.1 :: q ∧ s.cfg.iface = .reference ∧
        r.2 = { s.drawn.record (.ioR h s.cfg.offRxdata w) with rxq := q }) := by
  unfold readRxdata at hr
  cases hi : s.cfg.iface
  · simp only [hi, Option.some.injEq] at hr
    exact ⟨s.draw, .inl (by rw [← hr])⟩
  · cases hq : s.rxq with
    | nil => simp [hi, hq] at hr
    | cons b q =>
      simp only [hi, hq, Option.some.injEq] at hr
      subst hr
      exact ⟨_, .inr ⟨q, rfl, rfl, rfl⟩⟩

/-- R24, R32: what an INH read leaves. -/
theorem readInhWord_state (h : Nat) (s : State) :
    (readInhWord h s).2 = s.record (.ioR h s.cfg.offInh (readInhWord h s).1) ∨
      (readInhWord h s).2 = s.drawn.record (.ioR h s.cfg.offInh (readInhWord h s).1) := by
  unfold readInhWord
  cases s.cfg.iface
  · cases lastWritten s.cfg.offInh s.hist
    · exact .inr rfl
    · exact .inl rfl
  · exact .inl rfl

/-- R24: a word written to an offset is what the history says was last written there. -/
theorem lastWritten_append_write (off h : Nat) (w : Word) (es : List Event) :
    lastWritten off (es ++ [.ioW h off w]) = some w := by
  induction es with
  | nil => simp [lastWritten]
  | cons e es ih => simp [lastWritten, ih]

/-- R35: what a TXDATA write leaves. -/
theorem writeTxdata_state {h : Nat} {b : Byte} {s s' : State} (hw : writeTxdata h b s = some s') :
    s' = { s.record (.ioW h s.cfg.offTxdata (txWord s.cfg.txByteLsb b)) with txdata := txWord s.cfg.txByteLsb b } ∨
      (s.cfg.iface = .reference ∧ s.txq.length ≠ s.cfg.txDepth ∧
        s' = { s.record (.ioW h s.cfg.offTxdata (txWord s.cfg.txByteLsb b)) with
          txdata := txWord s.cfg.txByteLsb b
          txq := s.txq ++ [getField s.cfg.txByteLsb (txWord s.cfg.txByteLsb b)] }) := by
  unfold writeTxdata at hw
  cases hi : s.cfg.iface
  · simp only [hi, Option.some.injEq] at hw
    exact .inl hw.symm
  · simp only [hi] at hw
    split at hw
    · cases hw
    · rename_i hne
      simp only [Option.some.injEq] at hw
      exact .inr ⟨rfl, hne, hw.symm⟩

/-- R35: what an INH write leaves. -/
theorem writeInhWord_state (h : Nat) (w : Word) (s : State) :
    writeInhWord h w s = s.record (.ioW h s.cfg.offInh w) ∨
      (s.cfg.iface = .reference ∧ writeInhWord h w s = { s.record (.ioW h s.cfg.offInh w) with inh := w }) := by
  unfold writeInhWord
  cases s.cfg.iface
  · exact .inl rfl
  · exact .inr ⟨rfl, rfl⟩

/-- R31, R37: what an engine step leaves: nothing, where it is not enabled, or one exchange; into a full `rxq` the byte is not
received and the engine's run ends. -/
theorem engineStep_state (s : State) :
    (engineStep s = s ∧ (s.cfg.iface = .generic ∨ s.engineFault ≠ none ∨ s.txq = [])) ∨
      ∃ b q rx f, s.cfg.iface = .reference ∧ s.engineFault = none ∧ s.txq = b :: q ∧
        ((s.rxq.length = s.cfg.rxDepth ∧ rx = s.rxq ∧
            f = some (.rxOverflow (s.answer (inhLevel s.cfg.inhibitBit s.inh) b))) ∨
          (s.rxq.length ≠ s.cfg.rxDepth ∧ rx = s.rxq ++ [s.answer (inhLevel s.cfg.inhibitBit s.inh) b] ∧ f = none)) ∧
        engineStep s = { s.answered.record (.ex b (s.answer (inhLevel s.cfg.inhibitBit s.inh) b)) with
          txq := q
          rxq := rx
          wire := s.wire ++ [⟨inhLevel s.cfg.inhibitBit s.inh, b, s.answer (inhLevel s.cfg.inhibitBit s.inh) b⟩]
          engineFault := f } := by
  unfold engineStep
  cases hi : s.cfg.iface
  · exact .inl ⟨rfl, .inl rfl⟩
  · cases hf : s.engineFault with
    | some r => exact .inl ⟨rfl, .inr (.inl (by simp))⟩
    | none =>
      cases hq : s.txq with
      | nil => exact .inl ⟨rfl, .inr (.inr rfl)⟩
      | cons b q =>
        by_cases h : s.rxq.length = s.cfg.rxDepth
        · exact .inr ⟨b, q, _, _, rfl, rfl, rfl, .inl ⟨h, rfl, rfl⟩, by simp only [h, if_true]; rfl⟩
        · exact .inr ⟨b, q, _, _, rfl, rfl, rfl, .inr ⟨h, rfl, rfl⟩, by simp only [h, if_false, ← hf]; rfl⟩

/-! ## GPIO, failing, trapping -/

/-- R62: an atomic operation on one GPIO word leaves the other two. -/
theorem gpio_setGpio_ne (s : State) {r r' : GpioReg} (w : Word) (h : r' ≠ r) : (s.setGpio r w).gpio r' = s.gpio r' := by
  cases r <;> cases r' <;> first | rfl | exact absurd rfl h

@[simp] theorem gpio_setGpio_self (s : State) (r : GpioReg) (w : Word) : (s.setGpio r w).gpio r = w := by
  cases r <;> rfl

@[simp] theorem record_gpio (s : State) (e : Event) (r : GpioReg) : (s.record e).gpio r = s.gpio r := by
  cases r <;> rfl

/-- R133, R136: the core fails with the code the lead core composed, or with none. -/
def FailsWith (s : State) (h : Nat) (code : Code) (isTrap : Byte) (d : Option Code) : Prop :=
  (s.core h).fstat = .running ∧
    (h = s.cfg.leadHart → ∃ c, composeCode s.cfg.bootstage isTrap code = .ok c ∧ d = some c) ∧
    (h ≠ s.cfg.leadHart → d = none)

/-- R133, R136, R152: what entering `fail` leaves: the core fails, or its run ends in a refusal (the lead core's code is not
composed) or in the nested fault. -/
theorem enterFail_cases (h : Nat) (code : Code) (isTrap : Byte) (s : State) :
    (∃ d, FailsWith s h code isTrap d ∧ enterFail h code isTrap s =
        s.setCore h { s.core h with fstat := .failing d, op := some (.fail code isTrap), todo := failPlan d }) ∨
      (∃ r, (s.core h).fstat = .running ∧ h = s.cfg.leadHart ∧ composeCode s.cfg.bootstage isTrap code = .error r ∧
        enterFail h code isTrap s = s.stopCore h (.refused r)) ∨
      ((s.core h).fstat ≠ .running ∧ enterFail h code isTrap s = s.stopCore h (.fault (.nestedFail h code))) := by
  unfold enterFail
  dsimp only
  cases hf : (s.core h).fstat with
  | running =>
    dsimp only
    by_cases hl : h = s.cfg.leadHart
    · rw [if_pos hl]
      cases hc : composeCode s.cfg.bootstage isTrap code with
      | ok d => exact .inl ⟨some d, ⟨hf, fun _ => ⟨d, hc, rfl⟩, fun hn => absurd hl hn⟩, rfl⟩
      | error r => exact .inr (.inl ⟨r, rfl, hl, rfl, rfl⟩)
    · rw [if_neg hl]
      exact .inl ⟨none, ⟨hf, fun hn => absurd hn hl, fun _ => rfl⟩, rfl⟩
  | failing d => exact .inr (.inr ⟨by simp, rfl⟩)
  | halted d => exact .inr (.inr ⟨by simp, rfl⟩)

/-- R150, R152: what taking a trap leaves: the cause saved, and the core failing or its run ended in the nested fault. -/
theorem takeTrap_cases {h : Nat} (cause : Code) {s : State} (hh : h < s.cores.length) :
    (∃ d, FailsWith s h cause 1 d ∧ takeTrap h cause s = s.setCore h { s.core h with
          fstat := .failing d, op := some (.fail cause 1), todo := failPlan d, cause := cause }) ∨
      ((s.core h).fstat ≠ .running ∧ takeTrap h cause s = s.setCore h { s.core h with
          cause := cause, stop := some (.fault (.nestedFail h cause)), todo := [] }) := by
  have hself := core_setCore_self { s.core h with cause := cause } hh
  rcases enterFail_cases h cause 1 (s.setCore h { s.core h with cause := cause }) with
    ⟨d, hd, e⟩ | ⟨r, _, _, hc, _⟩ | ⟨hr, e⟩
  · refine .inl ⟨d, ⟨by simpa [hself] using hd.1, hd.2.1, hd.2.2⟩, ?_⟩
    rw [takeTrap, e, hself]; simp [State.setCore, List.set_set]
  · cases hc
  · refine .inr ⟨by simpa [hself] using hr, ?_⟩
    rw [takeTrap, e, State.stopCore, hself]; simp [State.setCore, List.set_set]

/-- What entering `fail` or taking a trap makes of the core: it fails, in a `fail` whose code it has composed (R29), with `fail` before it,
or its run has ended. -/
def Entry (s : State) (h : Nat) (c : Core) : Prop :=
  (∃ d, (s.core h).fstat = .running ∧ c.fstat = .failing d ∧ c.todo = failPlan d ∧ c.stop = (s.core h).stop ∧
      ∃ code isTrap, c.op = some (.fail code isTrap) ∧ FailsWith s h code isTrap d) ∨
    (c.fstat = (s.core h).fstat ∧ c.todo = [] ∧
      (∃ x, c.stop = some x ∧ ((∃ r, x = .refused r) ∨ ∃ code, x = .fault (.nestedFail h code))) ∧ c.op = (s.core h).op)

theorem enterFail_entry (h : Nat) (code : Code) (isTrap : Byte) (s : State) :
    ∃ c, enterFail h code isTrap s = s.setCore h c ∧ c.cause = (s.core h).cause ∧ Entry s h c := by
  rcases enterFail_cases h code isTrap s with ⟨d, hd, e⟩ | ⟨r, _, _, _, e⟩ | ⟨_, e⟩
  · exact ⟨_, e, rfl, .inl ⟨d, hd.1, rfl, rfl, rfl, code, isTrap, rfl, hd⟩⟩
  · exact ⟨_, e, rfl, .inr ⟨rfl, rfl, ⟨_, rfl, .inl ⟨r, rfl⟩⟩, rfl⟩⟩
  · exact ⟨_, e, rfl, .inr ⟨rfl, rfl, ⟨_, rfl, .inr ⟨code, rfl⟩⟩, rfl⟩⟩

theorem takeTrap_entry {h : Nat} (cause : Code) {s : State} (hh : h < s.cores.length) :
    ∃ c, takeTrap h cause s = s.setCore h c ∧ Entry s h c := by
  rcases takeTrap_cases cause hh with ⟨d, hd, e⟩ | ⟨_, e⟩
  · exact ⟨_, e, .inl ⟨d, hd.1, rfl, rfl, rfl, cause, 1, rfl, hd⟩⟩
  · exact ⟨_, e, .inr ⟨rfl, rfl, ⟨_, rfl, .inr ⟨cause, rfl⟩⟩, rfl⟩⟩

/-- R122: the payload of a logic code. -/
theorem logicPayload_ok {code : Code} (h : code.toNat < 2 ^ 56) : logicPayload code = .ok (code.extractLsb' 0 56) :=
  if_neg (Nat.not_le.2 h)

/-- R122: a logic code that does not fit is refused. -/
theorem logicPayload_error {code : Code} (h : ¬ code.toNat < 2 ^ 56) : logicPayload code = .error .payloadWidth :=
  if_pos (Nat.not_lt.1 h)

/-- R121, R150: a trap's code is always composed. -/
theorem composeCode_trap (stage : BitVec 4) (cause : Code) :
    composeCode stage 1 cause = .ok (packCode stage 1 (trapPayload cause)) := rfl

/-- R122: a logic code that fits is composed. -/
theorem composeCode_logic (stage : BitVec 4) {code : Code} (h : code.toNat < 2 ^ 56) :
    composeCode stage 0 code = .ok (packCode stage 0 (code.extractLsb' 0 56)) := by
  have hp : payloadOf 0 code = .ok (code.extractLsb' 0 56) := logicPayload_ok h
  unfold composeCode
  rw [if_pos (.inl rfl), hp]

/-- R130: a logic code that does not fit is refused. -/
theorem composeCode_wide (stage : BitVec 4) {code : Code} (h : ¬ code.toNat < 2 ^ 56) :
    composeCode stage 0 code = .error .payloadWidth := by
  have hp : payloadOf 0 code = .error .payloadWidth := logicPayload_error h
  unfold composeCode
  rw [if_pos (.inl rfl), hp]

/-- R125: any other flag is refused. -/
theorem composeCode_flag (stage : BitVec 4) {isTrap : Byte} (code : Code) (h0 : isTrap ≠ 0) (h1 : isTrap ≠ 1) :
    composeCode stage isTrap code = .error .trapFlag :=
  if_neg (fun h => h.elim h0 h1)

/-- R126: what the encoder gives. -/
theorem composeCode_ok {stage : BitVec 4} {isTrap : Byte} {code d : Code}
    (h : composeCode stage isTrap code = .ok d) :
    (isTrap = 1 ∧ d = packCode stage 1 (trapPayload code)) ∨
      (isTrap = 0 ∧ code.toNat < 2 ^ 56 ∧ d = packCode stage 0 (code.extractLsb' 0 56)) := by
  by_cases h1 : isTrap = 1
  · subst h1
    exact .inl ⟨rfl, (Except.ok.inj h).symm⟩
  · by_cases h0 : isTrap = 0
    · subst h0
      by_cases hc : code.toNat < 2 ^ 56
      · rw [composeCode_logic stage hc] at h
        exact .inr ⟨rfl, hc, (Except.ok.inj h).symm⟩
      · rw [composeCode_wide stage hc] at h
        cases h
    · rw [composeCode_flag stage code h0 h1] at h
      cases h

end Sys2Proof.Laws
end

