-- ==== Sys2Proof/Laws/Turn.lean ====
section
/-! SUPPORT. What a primitive, a turn, a run, an operation and a step can do, said once. `Closed` packages the induction: a
predicate that every shared operation keeps is kept by every step. -/

namespace Sys2Proof.Laws

open Sys2Proof Sys2Proof.Machine

@[simp] theorem moved_state (s : State) : (Micro.moved s).state = s := rfl
@[simp] theorem spun_state (s : State) : (Micro.spun s).state = s := rfl

/-- R26: a controller access is the lead core's, or it is a fault that ends the core's run. -/
theorem onController_cases (h : Nat) (s : State) (k : Micro) :
    (h = s.cfg.leadHart ∧ onController h s k = k) ∨
      (h ≠ s.cfg.leadHart ∧ onController h s k = .moved (s.stopCore h (.fault (.foreignAccess h (s.core h).op)))) := by
  unfold onController
  by_cases hh : h = s.cfg.leadHart
  · exact .inl ⟨hh, if_pos hh⟩
  · exact .inr ⟨hh, if_neg hh⟩

/-- The lead core's access is performed. -/
theorem onController_lead {h : Nat} {s : State} (k : Micro) (hh : h = s.cfg.leadHart) : onController h s k = k :=
  if_pos hh

/-- A poll that reads in vain is the lead core's. -/
theorem onController_spun {h : Nat} {s s' : State} {k : Micro} (hl : onController h s k = .spun s') :
    h = s.cfg.leadHart ∧ k = .spun s' := by
  rcases onController_cases h s k with ⟨e, hk⟩ | ⟨_, hk⟩
  · exact ⟨e, hk ▸ hl⟩
  · rw [hk] at hl; cases hl

/-- A turn in which another agent does something to a core: none, or an entry of `fail`. -/
theorem trapTurn_cases (h : Nat) (cause : Code) (s : State) :
    (turn (.trap h cause) s = .moved s ∧ s.goesOn h = false) ∨
      (h < s.cores.length ∧ (s.core h).stop = none ∧ turn (.trap h cause) s = .moved (takeTrap h cause s)) := by
  unfold turn
  by_cases hg : s.goesOn h = true
  · obtain ⟨h1, h2⟩ : h < s.cores.length ∧ (s.core h).stop = none := by simpa [State.goesOn] using hg
    exact .inr ⟨h1, h2, if_pos hg⟩
  · exact .inl ⟨if_neg hg, by simpa using hg⟩

theorem callTurn_cases (h : Nat) (code : Code) (isTrap : Byte) (s : State) :
    turn (.call h code isTrap) s = .moved s ∨
      (h < s.cores.length ∧ (s.core h).stop = none ∧ h ≠ s.cfg.leadHart ∧
        ((s.core h).fstat ≠ .running ∨ (s.core h).todo = []) ∧
        turn (.call h code isTrap) s = .moved (enterFail h code isTrap s)) := by
  unfold turn
  by_cases hg : s.goesOn h ∧ h ≠ s.cfg.leadHart ∧ ((s.core h).fstat ≠ .running ∨ (s.core h).todo = [])
  · obtain ⟨h1, h2⟩ : h < s.cores.length ∧ (s.core h).stop = none := by simpa [State.goesOn] using hg.1
    exact .inr ⟨h1, h2, hg.2.1, hg.2.2, if_pos hg⟩
  · exact .inl (if_neg hg)

/-- With no turn listed: the wait is over for want of a draw or of the engine, or the engine steps, or the poll reads again. -/
theorem waitTurn_cases (s : State) :
    waitTurn s = none ∨
      (s.cfg.iface = .generic ∧ s.draws ≠ [] ∧ waitTurn s = some s) ∨
      (s.cfg.iface = .reference ∧ engineDue s = true ∧ waitTurn s = some (engineStep s)) := by
  unfold waitTurn
  cases hi : s.cfg.iface with
  | generic =>
    by_cases hd : s.draws = []
    · exact .inl (if_pos hd)
    · exact .inr (.inl ⟨rfl, hd, if_neg hd⟩)
  | reference =>
    by_cases hd : engineDue s = true
    · exact .inr (.inr ⟨rfl, hd, if_pos hd⟩)
    · exact .inl (if_neg hd)

/-- The primitive accesses the controller (R9, R26). -/
def onBus : Prim → Bool
  | .pollTx | .send _ | .pollRx | .readRx | .readInh | .writeInh _ => true
  | _ => false

/-- Everything the primitive `p` of core `h` can come to. -/
inductive PrimCase (h : Nat) (ps : List Prim) (s : State) : Prim → Micro → Prop
  | foreign {p} (hp : onBus p = true) (hl : h ≠ s.cfg.leadHart) :
      PrimCase h ps s p (.moved (s.stopCore h (.fault (.foreignAccess h (s.core h).op))))
  | overflow {b} (hl : h = s.cfg.leadHart) (hw : writeTxdata h b s = none) :
      PrimCase h ps s (.send b) (.moved (s.stopCore h (.fault (.txOverflow b))))
  | underflow (hl : h = s.cfg.leadHart) (hr : readRxdata h s = none) :
      PrimCase h ps s .readRx (.moved (s.stopCore h (.fault .rxUnderflow)))
  | pollTx (hl : h = s.cfg.leadHart) (hr : txSpace (readTxcnt h s).1 = true) :
      PrimCase h ps s .pollTx (.moved ((readTxcnt h s).2.setTodo h ps))
  | spinTx (hl : h = s.cfg.leadHart) (hr : txSpace (readTxcnt h s).1 = false) :
      PrimCase h ps s .pollTx (.spun (readTxcnt h s).2)
  | send {b s1} (hl : h = s.cfg.leadHart) (hw : writeTxdata h b s = some s1) :
      PrimCase h ps s (.send b) (.moved (s1.setTodo h ps))
  | pollRx (hl : h = s.cfg.leadHart) (hr : (readRxrdy h s).1 = true) :
      PrimCase h ps s .pollRx (.moved ((readRxrdy h s).2.2.setCore h { (readRxrdy h s).2.2.core h with
        todo := ps
        rxByte := if s.cfg.rxSameRead then (readRxrdy h s).2.1 else ((readRxrdy h s).2.2.core h).rxByte }))
  | spinRx (hl : h = s.cfg.leadHart) (hr : (readRxrdy h s).1 = false) :
      PrimCase h ps s .pollRx (.spun (readRxrdy h s).2.2)
  | readRx {r} (hl : h = s.cfg.leadHart) (hr : readRxdata h s = some r) :
      PrimCase h ps s .readRx (.moved (r.2.setCore h { r.2.core h with todo := ps, rxByte := r.1 }))
  | readInh (hl : h = s.cfg.leadHart) :
      PrimCase h ps s .readInh (.moved ((readInhWord h s).2.setCore h { (readInhWord h s).2.core h with
        todo := ps, inhWord := (readInhWord h s).1 }))
  | writeInh {begins} (hl : h = s.cfg.leadHart) :
      PrimCase h ps s (.writeInh begins) (.moved ((writeInhWord h
        (withInhibit s.cfg.inhibitBit (frameLevel s.cfg begins) (s.core h).inhWord) s).setTodo h ps))
  | store {a} : PrimCase h ps s (.store a) (.moved ((storeByte h a (s.core h).rxByte s).setTodo h ps))
  | copied {a} : PrimCase h ps s (.copyBytes a 0) (.moved (s.setTodo h ps))
  | copy {a n} : PrimCase h ps s (.copyBytes a (n + 1))
      (.moved (s.setTodo h (txrxPlan s.cfg 0 ++ ([.store a, .copyBytes (a + 1) n] ++ ps))))
  | con {e} : PrimCase h ps s (.con e) (.moved ((consoleOut h e s).setTodo h ps))
  | gpio {r} : PrimCase h ps s (.gpio r) (.moved ((gpioAmo h r s).setTodo h ps))
  | halt {d} (hd : ∀ d', (s.core h).fstat = .failing d' ∨ (s.core h).fstat = .halted d' → d = d') :
      PrimCase h ps s .halt (.moved (s.setCore h { s.core h with fstat := .halted d, todo := [] }))
  | ret {r} : PrimCase h ps s (.ret r) (.moved ((s.retire r).setCore h { s.core h with op := none, todo := [] }))
  | retByte : PrimCase h ps s .retByte
      (.moved ((s.retire (.byte (s.core h).rxByte)).setCore h { s.core h with op := none, todo := [] }))

/-- A primitive comes to one of these. -/
theorem prim_case (h : Nat) (p : Prim) (ps : List Prim) (s : State) : PrimCase h ps s p (prim h p ps s) := by
  have bus : ∀ q k, onBus q = true → (h = s.cfg.leadHart → PrimCase h ps s q k) →
      PrimCase h ps s q (onController h s k) := by
    intro q k hq hk
    rcases onController_cases h s k with ⟨e, h1⟩ | ⟨e, h1⟩ <;> rw [h1]
    · exact hk e
    · exact .foreign hq e
  cases p with
  | pollTx =>
    refine bus _ _ rfl fun e => ?_
    dsimp only
    split
    · exact .pollTx e (by assumption)
    · exact .spinTx e (Bool.eq_false_iff.2 (by assumption))
  | send b =>
    refine bus _ _ rfl fun e => ?_
    split
    · exact .send e (by assumption)
    · exact .overflow e (by assumption)
  | pollRx =>
    refine bus _ _ rfl fun e => ?_
    dsimp only
    split
    · exact .pollRx e (by assumption)
    · exact .spinRx e (Bool.eq_false_iff.2 (by assumption))
  | readRx =>
    refine bus _ _ rfl fun e => ?_
    split
    · exact .readRx e (by assumption)
    · exact .underflow e (by assumption)
  | readInh => exact bus _ _ rfl fun e => .readInh e
  | writeInh begins => exact bus _ _ rfl fun e => .writeInh e
  | store a => exact .store
  | copyBytes a n => cases n; exacts [.copied, .copy]
  | con e => exact .con
  | gpio r => exact .gpio
  | halt =>
    unfold prim
    dsimp only
    cases hf : (s.core h).fstat with
    | running => exact .halt (by simp [hf])
    | failing d => exact .halt (by simp [hf])
    | halted d => exact .halt (by simp [hf])
  | ret r => exact .ret
  | retByte => exact .retByte

/-- A predicate on states that every shared operation keeps. The controller operations are only asked about the
lead core, since no other core performs them (R26). -/
structure Closed (P : State → Prop) : Prop where
  sched : ∀ s ts, P s → P { s with sched := ts }
  readTxcnt : ∀ h s, h = s.cfg.leadHart → P s → P (readTxcnt h s).2
  readRxrdy : ∀ h s, h = s.cfg.leadHart → P s → P (readRxrdy h s).2.2
  readRxdata : ∀ h s r, h = s.cfg.leadHart → readRxdata h s = some r → P s → P r.2
  readInh : ∀ h s, h = s.cfg.leadHart → P s → P (readInhWord h s).2
  writeTxdata : ∀ h b s s', h = s.cfg.leadHart → writeTxdata h b s = some s' → P s → P s'
  writeInh : ∀ h w s, h = s.cfg.leadHart → P s → P (writeInhWord h w s)
  engine : ∀ s, P s → P (engineStep s)
  store : ∀ h a b s, P s → P (storeByte h a b s)
  console : ∀ h e s, P s → P (consoleOut h e s)
  gpio : ∀ h r s, P s → P (gpioAmo h r s)
  retire : ∀ s r, P s → P (s.retire r)
  core : ∀ s h c, P s → P (s.setCore h c)

section
variable {P : State → Prop} (hc : Closed P)
include hc

theorem Closed.stop {h : Nat} {x : Stop} {s : State} (hs : P s) : P (s.stopCore h x) := hc.core _ _ _ hs

theorem Closed.prim {h : Nat} {p : Prim} {ps : List Prim} {s : State} (hs : P s) : P (prim h p ps s).state := by
  have hp := prim_case h p ps s
  generalize Machine.prim h p ps s = m at hp
  cases hp with
  | foreign | overflow | underflow => exact hc.stop hs
  | pollTx e => exact hc.core _ _ _ (hc.readTxcnt h s e hs)
  | spinTx e => exact hc.readTxcnt h s e hs
  | send e hw => exact hc.core _ _ _ (hc.writeTxdata h _ s _ e hw hs)
  | pollRx e => exact hc.core _ _ _ (hc.readRxrdy h s e hs)
  | spinRx e => exact hc.readRxrdy h s e hs
  | readRx e hr => exact hc.core _ _ _ (hc.readRxdata h s _ e hr hs)
  | readInh e => exact hc.core _ _ _ (hc.readInh h s e hs)
  | writeInh e => exact hc.core _ _ _ (hc.writeInh h _ s e hs)
  | store => exact hc.core _ _ _ (hc.store _ _ _ _ hs)
  | copied | copy | halt => exact hc.core _ _ _ hs
  | con => exact hc.core _ _ _ (hc.console _ _ _ hs)
  | gpio => exact hc.core _ _ _ (hc.gpio _ _ _ hs)
  | ret | retByte => exact hc.core _ _ _ (hc.retire _ _ hs)

theorem Closed.enterFail {h : Nat} {code : Code} {isTrap : Byte} {s : State} (hs : P s) :
    P (enterFail h code isTrap s) := by
  obtain ⟨c, e, _⟩ := enterFail_entry h code isTrap s
  rw [e]; exact hc.core _ _ _ hs

theorem Closed.coreTurn {h : Nat} {s : State} (hs : P s) : P (coreTurn h s).state := by
  unfold Machine.coreTurn
  split
  · exact hs
  · exact hc.prim hs

theorem Closed.turn {t : Turn} {s : State} (hs : P s) : P (turn t s).state := by
  cases t with
  | core h => exact hc.coreTurn hs
  | engine => exact hc.engine s hs
  | trap h cause =>
    rcases trapTurn_cases h cause s with ⟨e, _⟩ | ⟨_, _, e⟩ <;> rw [e]
    · exact hs
    · exact hc.enterFail (hc.core _ _ _ hs)
  | call h code isTrap =>
    rcases callTurn_cases h code isTrap s with e | ⟨_, _, _, _, e⟩ <;> rw [e]
    · exact hs
    · exact hc.enterFail hs

theorem Closed.drive {n : Nat} {s : State} (hs : P s) : P (drive n s) := by
  induction n generalizing s with
  | zero => exact hs
  | succ n ih =>
    unfold Machine.drive
    split
    · exact hs
    · split
      · rename_i t ts _; exact ih (hc.turn (hc.sched s ts hs))
      · have h1 := hc.coreTurn (h := s.cur) hs
        split
        · rename_i h2; rw [h2] at h1; exact ih h1
        · rename_i s1 h2
          rw [h2] at h1
          rcases waitTurn_cases s1 with h3 | ⟨_, _, h3⟩ | ⟨_, _, h3⟩ <;> rw [h3]
          · exact h1
          · exact ih h1
          · exact ih (hc.engine _ h1)

theorem Closed.run {s : State} (hs : P s) : P (run s) := hc.drive hs

/-- An operation keeps `P` if its meaning does. -/
theorem Closed.operate {k : State → State} {s s' : State} (hs : P s) (hk : P (k s))
    (ho : operate k s = .next s') : P s' := by
  unfold Machine.operate at ho
  split at ho
  · rename_i x _; cases x <;> cases ho
  · cases ho
    split
    · exact hc.run hs
    · split
      · exact hk
      · exact hs

theorem Closed.perform {i : Instr} {ps : List Prim} {s : State} (hs : P s) : P (perform i ps s) :=
  hc.run (hc.core _ _ _ hs)

theorem Closed.leadOnly {i : Instr} {k : State → State} {s : State} (hs : P s) (hk : P (k s)) :
    P (leadOnly i k s) := by
  unfold Machine.leadOnly
  split
  · exact hk
  · exact hc.stop hs

/-- What every shared operation keeps, every operation of the block keeps. -/
theorem Closed.exec {i : Instr} {s s' : State} (hs : P s) (he : exec i s = .next s') : P s' := by
  cases i with
  | tx b => exact hc.operate hs (hc.leadOnly hs (hc.perform hs)) he
  | rx => exact hc.operate hs (hc.leadOnly hs (hc.perform hs)) he
  | txrx b => exact hc.operate hs (hc.leadOnly hs (hc.perform hs)) he
  | frameBegin => exact hc.operate hs (hc.leadOnly hs (hc.perform hs)) he
  | frameEnd => exact hc.operate hs (hc.leadOnly hs (hc.perform hs)) he
  | copy dst addr size =>
    refine hc.operate hs (hc.leadOnly hs ?_) he
    split
    · exact hc.stop hs
    · split
      · exact hc.stop hs
      · exact hc.perform hs
  | clkdiv input target =>
    change execClkdiv input target s = _ at he
    unfold execClkdiv at he
    refine hc.operate hs ?_ he
    split
    · exact hc.retire _ _ hs
    · exact hc.stop hs
  | diagEncode stage isTrap code =>
    change execDiagEncode stage isTrap code s = _ at he
    unfold execDiagEncode at he
    refine hc.operate hs ?_ he
    split
    · exact hc.retire _ _ hs
    · exact hc.stop hs
  | diagDecode d =>
    change execDiagDecode d s = _ at he
    unfold execDiagDecode at he
    exact hc.operate hs (hc.retire _ _ hs) he
  | fail code isTrap =>
    change execFail code isTrap s = _ at he
    unfold Machine.execFail at he
    split at he
    · rename_i x _; cases x <;> cases he
    · cases he
      split
      · exact hc.run hs
      · exact hc.run (hc.enterFail hs)

theorem Closed.idleStep {s : State} (hs : P s) : P (idleStep s) := by
  unfold Machine.idleStep
  split
  · rename_i t ts _; exact hc.turn (hc.sched s ts hs)
  · split
    · exact hc.engine _ hs
    · exact hs

/-- What every shared operation keeps, every step keeps. -/
theorem Closed.step {s s' : State} (hs : P s) (ht : step s = .next s') : P s' := by
  unfold Machine.step at ht
  split at ht
  · cases ht
  · split at ht
    · cases ht; exact hc.run hs
    · split at ht
      · split at ht
        · rename_i x _ _; cases x <;> cases ht
        · cases ht; exact hc.idleStep hs
      · split at ht
        · cases ht; exact hc.idleStep hs
        · split at ht
          · cases ht; exact hc.idleStep hs
          · split at ht
            · exact hc.exec (hc.sched s _ hs) ht
            · cases ht; exact hc.stop (hc.sched s _ hs)

end

end Sys2Proof.Laws
end

