-- ==== Sys2Proof/Laws/Run.lean ====
section
/-! SUPPORT. The run of an operation: what a turn does to the cores, why the count `burst` is never reached, and the run as
an equation without the count. -/

namespace Sys2Proof.Laws

open Sys2Proof Sys2Proof.Machine

/-! ## What a turn does to the cores -/

/-- R29, R139: where a core's fail status may go: a failing core keeps its code and may halt with it, a halted one stays. -/
def FStatLe : FStat → FStat → Prop
  | .running, _ => True
  | .failing d, f => f = .failing d ∨ f = .halted d
  | .halted d, f => f = .halted d

theorem fstatLe_refl (f : FStat) : FStatLe f f := by
  cases f <;> simp [FStatLe]

theorem fstatLe_trans {f g h : FStat} (h1 : FStatLe f g) (h2 : FStatLe g h) : FStatLe f h := by
  cases f with
  | running => trivial
  | failing d => rcases h1 with rfl | rfl <;> simp_all [FStatLe]
  | halted d => cases h1; exact h2

/-- Replacing a core of a state with the same cores. -/
theorem setCore_cores_of {s s1 : State} (e : s1.cores = s.cores) (h : Nat) (c : Core) :
    (s1.setCore h c).cores = s.cores.set h c := by
  simp [e]

/-- Cutting the list of a core of a state with the same cores. -/
theorem setTodo_cores_of {s s1 : State} (e : s1.cores = s.cores) (h : Nat) (ps : List Prim) :
    (s1.setTodo h ps).cores = s.cores.set h { s.core h with todo := ps } := by
  simp [State.setTodo, e, core_congr e]

/-- The state after each shared operation has the same cores. -/
theorem readTxcnt_cores (h : Nat) (s : State) : (readTxcnt h s).2.cores = s.cores := by
  obtain ⟨w, hw, _⟩ := readTxcnt_state h s
  rw [hw]; simp

theorem readRxrdy_cores (h : Nat) (s : State) : (readRxrdy h s).2.2.cores = s.cores := by
  obtain ⟨w, h1 | ⟨_, _, _, _, _, _, _, h1⟩⟩ := readRxrdy_state h s <;> rw [h1] <;> simp

theorem readRxdata_cores {h : Nat} {s : State} {r : Byte × State} (hr : readRxdata h s = some r) :
    r.2.cores = s.cores := by
  obtain ⟨w, h1 | ⟨_, _, _, h1⟩⟩ := readRxdata_state hr <;> rw [h1] <;> simp

theorem readInhWord_cores (h : Nat) (s : State) : (readInhWord h s).2.cores = s.cores := by
  rcases readInhWord_state h s with h1 | h1 <;> rw [h1] <;> simp

theorem writeTxdata_cores {h : Nat} {b : Byte} {s s' : State} (hw : writeTxdata h b s = some s') :
    s'.cores = s.cores := by
  rcases writeTxdata_state hw with h1 | ⟨_, _, h1⟩ <;> rw [h1] <;> simp

theorem writeInhWord_cores (h : Nat) (w : Word) (s : State) : (writeInhWord h w s).cores = s.cores := by
  rcases writeInhWord_state h w s with h1 | ⟨_, h1⟩ <;> rw [h1] <;> simp

/-- What a poll that read in vain does to the cores: nothing. -/
theorem prim_spun {h : Nat} {p : Prim} {ps : List Prim} {s s' : State} (hl : prim h p ps s = .spun s') :
    s'.cores = s.cores ∧ (p = .pollTx ∨ p = .pollRx) := by
  have hc := prim_case h p ps s
  rw [hl] at hc
  cases hc with
  | spinTx => exact ⟨readTxcnt_cores h s, .inl rfl⟩
  | spinRx => exact ⟨readRxrdy_cores h s, .inr rfl⟩

/-- The primitive returns the operation. -/
def isRet : Prim → Bool
  | .ret _ | .retByte => true
  | _ => false

/-- What a primitive that moved makes of its core. -/
inductive Moved (s s' : State) (h : Nat) (p : Prim) (ps : List Prim) (c : Core) : Prop
  /-- it is done -/
  | on (fstat : c.fstat = (s.core h).fstat) (stop : c.stop = (s.core h).stop) (op : c.op = (s.core h).op)
      (todo : c.todo = ps) (ne : p ≠ .halt) (nr : isRet p = false)
  /-- the operation returns -/
  | returned (hp : isRet p = true) (fstat : c.fstat = (s.core h).fstat) (stop : c.stop = (s.core h).stop)
      (op : c.op = none) (todo : c.todo = [])
  /-- `copy` goes round its loop once more -/
  | copied (a n : Nat) (hp : p = .copyBytes a (n + 1)) (fstat : c.fstat = (s.core h).fstat)
      (stop : c.stop = (s.core h).stop) (op : c.op = (s.core h).op) (todo : c.todo = txrxPlan s.cfg 0 ++ ([.store a, .copyBytes (a + 1) n] ++ ps))
  /-- the core halts -/
  | halted (d : Option Code) (hp : p = .halt) (stop : c.stop = (s.core h).stop) (fstat : FStatLe (s.core h).fstat c.fstat)
      (hd : c.fstat = .halted d) (todo : c.todo = []) (op : c.op = (s.core h).op)
  /-- a controller access ends the core's run in a fault -/
  | faulted (r : Fault) (hp : onBus p = true) (hs' : s' = s.stopCore h (.fault r)) (fstat : c.fstat = (s.core h).fstat)
      (stop : c.stop = some (.fault r)) (todo : c.todo = []) (op : c.op = (s.core h).op)

/-- What a primitive that moved does to the cores: core `h` alone is replaced, and its cause stays. -/
theorem prim_moved {h : Nat} {p : Prim} {ps : List Prim} {s s' : State} (hl : prim h p ps s = .moved s') :
    ∃ c, s'.cores = s.cores.set h c ∧ c.cause = (s.core h).cause ∧ Moved s s' h p ps c := by
  have done : ∀ s1 : State, s1.cores = s.cores → p ≠ .halt → isRet p = false → s' = s1.setTodo h ps →
      ∃ c, s'.cores = s.cores.set h c ∧ c.cause = (s.core h).cause ∧ Moved s s' h p ps c :=
    fun s1 e hp hr hs =>
      ⟨{ s.core h with todo := ps }, by rw [hs]; exact setTodo_cores_of e h ps, rfl, .on rfl rfl rfl rfl hp hr⟩
  have hc := prim_case h p ps s
  rw [hl] at hc
  cases hc with
  | foreign hp => exact ⟨_, rfl, rfl, .faulted _ hp rfl rfl rfl rfl rfl⟩
  | overflow | underflow => exact ⟨_, rfl, rfl, .faulted _ rfl rfl rfl rfl rfl rfl⟩
  | pollTx => exact done _ (readTxcnt_cores h s) (by simp) rfl rfl
  | send _ hw => exact done _ (writeTxdata_cores hw) (by simp) rfl rfl
  | pollRx =>
    have e := readRxrdy_cores h s
    exact ⟨_, setCore_cores_of e h _, by simp [core_congr e],
      .on (by simp [core_congr e]) (by simp [core_congr e]) (by simp [core_congr e]) rfl (by simp) rfl⟩
  | readRx _ hr =>
    have e := readRxdata_cores hr
    exact ⟨_, setCore_cores_of e h _, by simp [core_congr e],
      .on (by simp [core_congr e]) (by simp [core_congr e]) (by simp [core_congr e]) rfl (by simp) rfl⟩
  | readInh =>
    have e := readInhWord_cores h s
    exact ⟨_, setCore_cores_of e h _, by simp [core_congr e],
      .on (by simp [core_congr e]) (by simp [core_congr e]) (by simp [core_congr e]) rfl (by simp) rfl⟩
  | writeInh => exact done _ (writeInhWord_cores h _ s) (by simp) rfl rfl
  | store => exact done (storeByte h _ (s.core h).rxByte s) rfl (by simp) rfl rfl
  | copied => exact done _ rfl (by simp) rfl rfl
  | copy => exact ⟨_, rfl, rfl, .copied _ _ rfl rfl rfl rfl rfl⟩
  | con => exact done (consoleOut h _ s) rfl (by simp) rfl rfl
  | gpio => exact done (gpioAmo h _ s) (by simp [gpioAmo]) (by simp) rfl rfl
  | @halt d hd =>
    refine ⟨_, rfl, rfl, .halted d rfl rfl ?_ rfl rfl rfl⟩
    cases hf : (s.core h).fstat <;> simp [FStatLe, hf] at hd ⊢
    · exact hd
    · exact hd
  | ret | retByte => exact ⟨_, rfl, rfl, .returned rfl rfl rfl rfl rfl⟩

/-- The core's status does not go back. -/
theorem Moved.fstatLe {s s' : State} {h : Nat} {p : Prim} {ps : List Prim} {c : Core} (hm : Moved s s' h p ps c) :
    FStatLe (s.core h).fstat c.fstat := by
  cases hm with
  | on hf | returned _ hf | copied _ _ _ hf | faulted _ _ _ hf => rw [hf]; exact fstatLe_refl _
  | halted _ _ _ hf => exact hf

/-- The core's run, once ended, stays so. -/
theorem Moved.stop {s s' : State} {h : Nat} {p : Prim} {ps : List Prim} {c : Core} (hm : Moved s s' h p ps c) :
    c.stop = (s.core h).stop ∨ ∃ r, c.stop = some (.fault r) := by
  cases hm with
  | on _ hs | returned _ _ hs | copied _ _ _ _ hs | halted _ _ hs => exact .inl hs
  | faulted r _ _ _ hs => exact .inr ⟨r, hs⟩

/-- What a primitive does to the cores, whether it moved or not. -/
theorem prim_cores (h : Nat) (p : Prim) (ps : List Prim) (s : State) :
    (prim h p ps s = .spun (prim h p ps s).state ∧ (prim h p ps s).state.cores = s.cores ∧ (p = .pollTx ∨ p = .pollRx)) ∨
      ∃ c, prim h p ps s = .moved (prim h p ps s).state ∧ (prim h p ps s).state.cores = s.cores.set h c ∧
        c.cause = (s.core h).cause ∧ Moved s (prim h p ps s).state h p ps c := by
  cases hm : prim h p ps s with
  | moved s' => obtain ⟨c, e⟩ := prim_moved hm; exact .inr ⟨c, rfl, e⟩
  | spun s' => obtain ⟨e, hp⟩ := prim_spun hm; exact .inl ⟨rfl, e, hp⟩

/-- A primitive of core `h` leaves every other core as it is. -/
theorem prim_core_ne {h k : Nat} (p : Prim) (ps : List Prim) (s : State) (hk : k ≠ h) :
    (prim h p ps s).state.core k = s.core k := by
  rcases prim_cores h p ps s with ⟨_, e, _⟩ | ⟨c, _, e, _⟩
  · exact core_congr e k
  · simp [State.core, e, List.getD, List.getElem?_set_ne (Ne.symm hk)]

/-- What a turn does to the cores: none is replaced, or one, by its primitive or by an entry of `fail`. -/
inductive TurnCores (s s' : State) : Prop
  | same (e : s'.cores = s.cores)
  | prim (h : Nat) (p : Prim) (ps : List Prim) (c : Core) (ht : (s.core h).todo = p :: ps)
      (e : s'.cores = s.cores.set h c) (hm : Moved s s' h p ps c)
  | entry (h : Nat) (c : Core) (hh : h < s.cores.length) (hs : (s.core h).stop = none) (e : s' = s.setCore h c)
      (he : Entry s h c)

theorem engineStep_cores (s : State) : (engineStep s).cores = s.cores := by
  rcases engineStep_state s with ⟨e, _⟩ | ⟨_, _, _, _, _, _, _, _, e⟩ <;> rw [e] <;> rfl

theorem coreTurn_cores (h : Nat) (s : State) : TurnCores s (coreTurn h s).state := by
  unfold coreTurn
  split
  · exact .same rfl
  · rename_i p ps ht
    rcases prim_cores h p ps s with ⟨_, e, _⟩ | ⟨c, _, e, _, hm⟩
    · exact .same e
    · exact .prim h p ps c ht e hm

theorem turn_cores (t : Turn) (s : State) : TurnCores s (turn t s).state := by
  cases t with
  | core h => exact coreTurn_cores h s
  | engine => exact .same (engineStep_cores s)
  | trap h cause =>
    rcases trapTurn_cases h cause s with ⟨e, _⟩ | ⟨hh, hs, e⟩ <;> rw [e]
    · exact .same rfl
    · obtain ⟨c, e, he⟩ := takeTrap_entry cause hh
      exact .entry h c hh hs e he
  | call h code isTrap =>
    rcases callTurn_cases h code isTrap s with e | ⟨hh, hs, _, _, e⟩ <;> rw [e]
    · exact .same rfl
    · obtain ⟨c, e, _, he⟩ := enterFail_entry h code isTrap s
      exact .entry h c hh hs e he

/-- What core `k` is after core `h` was replaced. -/
theorem core_of_set {s s' : State} {h : Nat} {c : Core} (e : s'.cores = s.cores.set h c) (k : Nat) :
    (s'.core k = c ∧ k = h ∧ h < s.cores.length) ∨ s'.core k = s.core k := by
  rw [show s'.core k = (s.setCore h c).core k from core_congr (s := s.setCore h c) e k]
  exact core_setCore_cases s h k c

theorem Entry.fstatLe {s : State} {h : Nat} {c : Core} (he : Entry s h c) : FStatLe (s.core h).fstat c.fstat := by
  rcases he with ⟨d, hr, _⟩ | ⟨hf, _⟩
  · rw [hr]; trivial
  · rw [hf]; exact fstatLe_refl _

/-- R39, R139: no turn takes a core's status back, and no turn changes a code once it is formed. -/
theorem TurnCores.fstatLe {s s' : State} (ht : TurnCores s s') (k : Nat) :
    FStatLe (s.core k).fstat (s'.core k).fstat := by
  cases ht with
  | same e => rw [core_congr e]; exact fstatLe_refl _
  | prim h p ps c _ e hm =>
    rcases core_of_set e k with ⟨h1, rfl, _⟩ | h1 <;> rw [h1]
    · exact hm.fstatLe
    · exact fstatLe_refl _
  | entry h c _ _ e he =>
    rcases core_of_set (s := s) (s' := s') (by rw [e]; rfl) k with ⟨h1, rfl, _⟩ | h1 <;> rw [h1]
    · exact he.fstatLe
    · exact fstatLe_refl _

/-- R145, R146: no turn takes the mark of a fault or a refusal away. -/
theorem TurnCores.stop {s s' : State} (ht : TurnCores s s') {k : Nat} (hk : (s.core k).stop ≠ none) :
    (s'.core k).stop ≠ none := by
  cases ht with
  | same e => rw [core_congr e]; exact hk
  | prim h p ps c _ e hm =>
    rcases core_of_set e k with ⟨h1, rfl, _⟩ | h1 <;> rw [h1]
    · rcases hm.stop with h2 | ⟨r, h2⟩ <;> rw [h2]
      · exact hk
      · simp
    · exact hk
  | entry h c _ hs e he =>
    rcases core_of_set (s := s) (s' := s') (by rw [e]; rfl) k with ⟨h1, rfl, _⟩ | h1
    · exact absurd hs hk
    · rw [h1]; exact hk

/-! ## The count is never reached -/

theorem planCost_cons (p : Prim) (ps : List Prim) : planCost (p :: ps) = primCost p + planCost ps := rfl

theorem planCost_append (ps qs : List Prim) : planCost (ps ++ qs) = planCost ps + planCost qs := by
  simp [planCost]

theorem primCost_pos (p : Prim) : 1 ≤ primCost p := by
  cases p <;> simp [primCost]

theorem planCost_eq_zero {ps : List Prim} (h : planCost ps = 0) : ps = [] := by
  cases ps with
  | nil => rfl
  | cons p ps => have := primCost_pos p; rw [planCost_cons] at h; omega

theorem planCost_txrxPlan (cfg : Config) (b : Byte) : planCost (txrxPlan cfg b) ≤ 4 := by
  unfold txrxPlan txPlan rxPlan
  split <;> simp [planCost, primCost]

theorem planCost_failPlan (d : Option Code) : planCost (failPlan d) ≤ 7 := by
  cases d <;> simp [failPlan, planCost, primCost]

/-- What a primitive does to the queues: no turn is listed, no draw is added, and `txq` grows by at most one, never in a
poll. The engine's run does not end by it. -/
theorem prim_queues (h : Nat) (p : Prim) (ps : List Prim) (s : State) :
    let s' := (prim h p ps s).state
    s'.sched = s.sched ∧ s'.draws.length ≤ s.draws.length ∧ s'.cur = s.cur ∧ s'.cfg = s.cfg ∧
      s'.engineLive = s.engineLive ∧ s'.engineFault = s.engineFault ∧
      s'.txq.length ≤ s.txq.length + 1 ∧ (p = .pollTx ∨ p = .pollRx → s'.txq = s.txq) := by
  have hc := prim_case h p ps s
  generalize prim h p ps s = m at hc
  cases hc with
  | foreign | overflow | underflow | copied | copy | halt => simp
  | pollTx | spinTx => obtain ⟨w, hw, _⟩ := readTxcnt_state h s; simp [hw, drawn_draws_length]
  | send _ hw => rcases writeTxdata_state hw with h1 | ⟨_, _, h1⟩ <;> simp [h1]
  | pollRx | spinRx =>
    obtain ⟨w, h1 | ⟨_, _, _, _, _, _, _, h1⟩⟩ := readRxrdy_state h s <;> simp [h1, drawn_draws_length]
  | readRx _ hr => obtain ⟨w, h1 | ⟨_, _, _, h1⟩⟩ := readRxdata_state hr <;> simp [h1, drawn_draws_length]
  | readInh => rcases readInhWord_state h s with h1 | h1 <;> simp [h1, drawn_draws_length]
  | @writeInh begins =>
    rcases writeInhWord_state h (withInhibit s.cfg.inhibitBit (frameLevel s.cfg begins) (s.core h).inhWord) s with
      h1 | ⟨_, h1⟩ <;> simp [h1]
  | store => simp [storeByte]
  | con => simp [consoleOut]
  | gpio => simp [gpioAmo]
  | ret | retByte => simp

/-- What an engine step does to the queues. -/
theorem engineStep_queues (s : State) :
    let s' := engineStep s
    s'.sched = s.sched ∧ s'.draws = s.draws ∧ s'.cur = s.cur ∧ s'.cfg = s.cfg ∧ s'.engineLive = s.engineLive ∧
      s'.txq.length ≤ s.txq.length ∧ (engineDue s = true → s'.txq.length < s.txq.length) := by
  rcases engineStep_state s with ⟨e, hn⟩ | ⟨b, q, _, _, _, _, hq, _, e⟩
  · rw [e]
    refine ⟨rfl, rfl, rfl, rfl, rfl, Nat.le_refl _, fun hd => ?_⟩
    simp only [engineDue, Bool.and_eq_true] at hd
    rcases hn with hn | hn | hn <;> simp_all
  · rw [e]; simp [hq]

/-- A core whose primitive moved has less left. -/
theorem Moved.cost {s s' : State} {h : Nat} {p : Prim} {ps : List Prim} {c : Core} (hm : Moved s s' h p ps c) :
    planCost c.todo + 1 ≤ planCost (p :: ps) := by
  have hp := primCost_pos p
  rw [planCost_cons]
  cases hm with
  | on _ _ _ hc => rw [hc]; omega
  | returned _ _ _ _ hc | halted _ _ _ _ _ hc | faulted _ _ _ _ _ hc => rw [hc]; change 0 + 1 ≤ _; omega
  | copied a n e _ _ _ hc =>
    rw [hc, planCost_append, planCost_append, e]
    have := planCost_txrxPlan s.cfg 0
    simp only [planCost, primCost, List.map_cons, List.map_nil, List.sum_cons, List.sum_nil] at this ⊢
    omega

theorem prim_cost {h : Nat} {p : Prim} {ps : List Prim} {s s' : State} (hh : h < s.cores.length)
    (hl : prim h p ps s = .moved s') : planCost (s'.core h).todo + 1 ≤ planCost (p :: ps) := by
  obtain ⟨c, e, _, hm⟩ := prim_moved hl
  rw [show s'.core h = c by simp [State.core, e, List.getD, hh]]
  exact hm.cost

/-- The measure `burst` without the bonus of a running core. -/
theorem burst_eq (s : State) : burst s = 2 * s.sched.length + s.draws.length + s.txq.length +
    2 * planCost (s.core s.cur).todo + (if (s.core s.cur).fstat = .running then 16 else 0) := rfl

/-- The running bonus never grows. -/
theorem bonus_le {f g : FStat} (h : FStatLe f g) :
    (if g = .running then 16 else 0) ≤ (if f = .running then 16 else 0) := by
  cases f with
  | running => split <;> simp
  | failing d => rcases h with rfl | rfl <;> simp
  | halted d => cases h; simp

/-- A turn leaves the queues but for what its primitive or the engine takes, and adds at most one byte to `txq`. -/
theorem turn_queues (t : Turn) (s : State) :
    let s' := (turn t s).state
    s'.sched = s.sched ∧ s'.draws.length ≤ s.draws.length ∧ s'.cur = s.cur ∧ s'.cfg = s.cfg ∧
      s'.engineLive = s.engineLive ∧ s'.txq.length ≤ s.txq.length + 1 := by
  have set : ∀ h c, let s' := s.setCore h c
      s'.sched = s.sched ∧ s'.draws.length ≤ s.draws.length ∧ s'.cur = s.cur ∧ s'.cfg = s.cfg ∧
        s'.engineLive = s.engineLive ∧ s'.txq.length ≤ s.txq.length + 1 := by simp
  cases t with
  | core h =>
    rw [show turn (.core h) s = coreTurn h s from rfl]
    unfold coreTurn
    split
    · simp
    · rename_i p ps _
      obtain ⟨q1, q2, q3, q4, q5, _, q7, _⟩ := prim_queues h p ps s
      exact ⟨q1, q2, q3, q4, q5, q7⟩
  | engine =>
    obtain ⟨q1, q2, q3, q4, q5, q6, _⟩ := engineStep_queues s
    exact ⟨q1, Nat.le_of_eq (congrArg _ q2), q3, q4, q5, Nat.le_succ_of_le q6⟩
  | trap h cause =>
    rcases trapTurn_cases h cause s with ⟨e, _⟩ | ⟨hh, _, e⟩ <;> rw [e]
    · simp
    · obtain ⟨c, e, _⟩ := takeTrap_entry cause hh
      rw [e]; exact set h c
  | call h code isTrap =>
    rcases callTurn_cases h code isTrap s with e | ⟨hh, _, _, _, e⟩ <;> rw [e]
    · simp
    · obtain ⟨c, e, _⟩ := enterFail_entry h code isTrap s
      rw [e]; exact set h c

/-- What a turn does to the measure's last two terms: it grows only where a running core enters `fail`. -/
theorem TurnCores.cost {s s' : State} (ht : TurnCores s s') (k : Nat) :
    2 * planCost (s'.core k).todo + (if (s'.core k).fstat = .running then 16 else 0) ≤
      2 * planCost (s.core k).todo + (if (s.core k).fstat = .running then 16 else 0) := by
  have hle := bonus_le (ht.fstatLe k)
  cases ht with
  | same e => rw [core_congr e]
  | prim h p ps c hp e hm =>
    rcases core_of_set e k with ⟨h1, rfl, _⟩ | h1
    · have := hm.cost
      rw [h1] at hle ⊢; rw [hp]; omega
    · rw [h1]
  | entry h c _ _ e he =>
    rcases core_of_set (s := s) (s' := s') (by rw [e]; rfl) k with ⟨h1, rfl, _⟩ | h1
    · rw [h1] at hle ⊢
      rcases he with ⟨d, hr, hf, hc, _⟩ | ⟨hf, hc, _⟩
      · have := planCost_failPlan d
        rw [hf, hc, hr]; simp only [reduceCtorEq, if_false, if_true]; omega
      · rw [hc]; change 2 * 0 + _ ≤ _; omega
    · rw [h1]

/-- A listed turn takes more from the measure's first term than it can add to the others. -/
theorem turn_burst {t : Turn} {ts : List Turn} {s : State} (hs : s.sched = t :: ts) :
    burst (turn t { s with sched := ts }).state < burst s := by
  obtain ⟨q1, q2, q3, _, _, q6⟩ := turn_queues t { s with sched := ts }
  have h1 := (turn_cores t { s with sched := ts }).cost s.cur
  rw [burst_eq, burst_eq, q1, q3, hs, List.length_cons]
  change _ ≤ 2 * planCost (s.core s.cur).todo + (if (s.core s.cur).fstat = .running then 16 else 0) at h1
  change _ ≤ s.draws.length at q2
  change _ ≤ s.txq.length + 1 at q6
  change 2 * ts.length + _ + _ + _ + _ < _
  dsimp only at h1 ⊢
  omega

/-- A turn of the executing core with no turn listed takes from the measure when it moves. -/
theorem coreTurn_burst {s s' : State} (hs : s.sched = []) (ht : (s.core s.cur).todo ≠ [])
    (hl : coreTurn s.cur s = .moved s') : burst s' < burst s := by
  have hh := lt_of_todo_ne_nil ht
  have hle := (coreTurn_cores s.cur s).fstatLe s.cur
  rw [hl] at hle
  change FStatLe _ (s'.core s.cur).fstat at hle
  unfold Machine.coreTurn at hl
  split at hl
  · rename_i h; exact absurd h ht
  · rename_i p ps hp
    obtain ⟨q1, q2, q3, _, _, _, q7, _⟩ := prim_queues s.cur p ps s
    rw [hl] at q1 q2 q3 q7
    have h1 := prim_cost hh hl
    have hb := bonus_le hle
    rw [burst_eq, burst_eq]
    simp only [moved_state] at q1 q2 q3 q7
    rw [q3, q1, hs, hp]
    simp only [List.length_nil]
    omega

/-- What a poll that read in vain leaves, with no turn listed: the same measure but for the draws. -/
theorem coreTurn_spun {s s' : State} (hl : coreTurn s.cur s = .spun s') :
    s'.cores = s.cores ∧ s'.cur = s.cur ∧ s'.cfg = s.cfg ∧ s'.sched = s.sched ∧ s'.engineLive = s.engineLive ∧
      s'.txq = s.txq ∧ s'.draws = s.draws.tail ∧
      ∃ p ps, (s.core s.cur).todo = p :: ps ∧ (p = .pollTx ∨ p = .pollRx) := by
  unfold Machine.coreTurn at hl
  split at hl
  · cases hl
  · rename_i p ps hp
    obtain ⟨q1, _, q3, q4, q5, _, _, q8⟩ := prim_queues s.cur p ps s
    rw [hl] at q1 q3 q4 q5 q8
    obtain ⟨c1, c2⟩ := prim_spun hl
    refine ⟨c1, q3, q4, q1, q5, q8 c2, ?_, p, ps, hp, c2⟩
    have hc := prim_case s.cur p ps s
    rw [hl] at hc
    cases hc with
    | spinTx => obtain ⟨w, hw, _⟩ := readTxcnt_state s.cur s; rw [hw]; simp [drawn_draws]
    | spinRx =>
      obtain ⟨w, h1 | ⟨_, _, _, _, _, _, _, h1⟩⟩ := readRxrdy_state s.cur s <;> rw [h1] <;> simp [drawn_draws]

/-- A wait that goes on takes from the measure. -/
theorem waitTurn_burst {s s1 s' : State} (hs : s.sched = [])
    (hl : coreTurn s.cur s = .spun s1) (hw : waitTurn s1 = some s') : burst s' < burst s := by
  obtain ⟨e1, e2, e3, e4, e5, e6, e7, _⟩ := coreTurn_spun hl
  rcases waitTurn_cases s1 with h1 | ⟨_, hd, h1⟩ | ⟨_, hd, h1⟩ <;> rw [h1] at hw <;> cases hw
  · rw [burst_eq, burst_eq, e2, e4, hs, e6, core_congr e1, e7]
    cases hds : s.draws with
    | nil => rw [e7, hds] at hd; exact absurd rfl hd
    | cons w ws => simp
  · obtain ⟨q1, q2, q3, _, _, _, q7⟩ := engineStep_queues s1
    have := q7 hd
    rw [burst_eq, burst_eq, q3, q1, q2, e2, e4, hs, e7, core_congr ((engineStep_cores s1).trans e1)]
    rw [e6] at this
    simp only [List.length_nil, List.length_tail]
    omega

/-- The count does not matter once it is the measure or more. -/
theorem drive_eq_run {n : Nat} {s : State} (hn : burst s ≤ n) : drive n s = run s := by
  unfold Machine.run
  induction n using Nat.strong_induction_on generalizing s with
  | _ n ih =>
    by_cases ht : (s.core s.cur).todo = []
    · cases n <;> cases hb : burst s <;> simp [Machine.drive, ht]
    · have hpos : 0 < burst s := by
        have : planCost (s.core s.cur).todo ≠ 0 := fun h => ht (planCost_eq_zero h)
        rw [burst_eq]; omega
      obtain ⟨m, hm⟩ : ∃ m, burst s = m + 1 := ⟨burst s - 1, by omega⟩
      obtain ⟨k, rfl⟩ : ∃ k, n = k + 1 := ⟨n - 1, by omega⟩
      have key : ∀ s', burst s' < burst s → drive k s' = drive m s' := fun s' h => by
        rw [ih k (by omega) (by omega), ih m (by omega) (by omega)]
      rw [hm]
      unfold Machine.drive
      rw [if_neg ht, if_neg ht]
      cases hs : s.sched with
      | cons t ts => exact key _ (turn_burst hs)
      | nil =>
        dsimp only
        split
        · rename_i h; exact key _ (coreTurn_burst hs ht h)
        · rename_i h
          split
          · rfl
          · rename_i h2; exact key _ (waitTurn_burst hs h h2)

/-! ## The run as equations -/

/-- Nothing left: the run is over. -/
theorem run_done {s : State} (ht : (s.core s.cur).todo = []) : run s = s := by
  unfold Machine.run
  cases hb : burst s <;> simp [Machine.drive, ht]

/-- One round of the run, for the equations below. -/
theorem run_succ {s : State} (ht : (s.core s.cur).todo ≠ []) : ∃ m, run s = drive (m + 1) s ∧ burst s ≤ m + 1 := by
  have hpos : 0 < burst s := by
    have : planCost (s.core s.cur).todo ≠ 0 := fun h => ht (planCost_eq_zero h)
    rw [burst_eq]; omega
  exact ⟨burst s - 1, by unfold Machine.run; congr 1; omega, by omega⟩

/-- A listed turn, after which the run goes on. -/
theorem run_turn {t : Turn} {ts : List Turn} {s : State} (ht : (s.core s.cur).todo ≠ []) (hs : s.sched = t :: ts) :
    run s = run (turn t { s with sched := ts }).state := by
  obtain ⟨m, h1, h2⟩ := run_succ ht
  have hb := turn_burst hs
  rw [h1]
  unfold Machine.drive
  rw [if_neg ht, hs]
  exact drive_eq_run (by omega)

/-- With no turn listed, a primitive that moves. -/
theorem run_moved {s s' : State} (ht : (s.core s.cur).todo ≠ []) (hs : s.sched = [])
    (hl : coreTurn s.cur s = .moved s') : run s = run s' := by
  obtain ⟨m, h1, h2⟩ := run_succ ht
  have hb := coreTurn_burst hs ht hl
  rw [h1]
  unfold Machine.drive
  rw [if_neg ht, hs]
  dsimp only
  rw [hl]
  exact drive_eq_run (by omega)

/-- With no turn listed, a poll that reads in vain while something can still happen. -/
theorem run_waited {s s1 s' : State} (hs : s.sched = [])
    (hl : coreTurn s.cur s = .spun s1) (hw : waitTurn s1 = some s') : run s = run s' := by
  obtain ⟨_, _, _, _, _, _, _, p, ps, hp, _⟩ := coreTurn_spun hl
  have ht : (s.core s.cur).todo ≠ [] := by rw [hp]; simp
  obtain ⟨m, h1, h2⟩ := run_succ ht
  have hb := waitTurn_burst hs hl hw
  rw [h1]
  unfold Machine.drive
  rw [if_neg ht, hs]
  dsimp only
  rw [hl]
  dsimp only
  rw [hw]
  exact drive_eq_run (by omega)

/-- With no turn listed, a poll that reads in vain and nothing more can happen: the core waits in it (R89, R147). -/
theorem run_waits {s s1 : State} (hs : s.sched = [])
    (hl : coreTurn s.cur s = .spun s1) (hw : waitTurn s1 = none) : run s = s1 := by
  obtain ⟨_, _, _, _, _, _, _, p, ps, hp, _⟩ := coreTurn_spun hl
  have ht : (s.core s.cur).todo ≠ [] := by rw [hp]; simp
  obtain ⟨m, h1, h2⟩ := run_succ ht
  rw [h1]
  unfold Machine.drive
  rw [if_neg ht, hs]
  dsimp only
  rw [hl]
  dsimp only
  rw [hw]

/-! ## Induction over a run -/

/-- One round of a run: the next listed turn, or, with none listed, the executing core's own, or the engine's where the
executing core waits in a poll. -/
inductive Round (s : State) : State → Prop
  | listed {t : Turn} {ts : List Turn} (h : s.sched = t :: ts) : Round s (turn t { s with sched := ts }).state
  | own (h : s.sched = []) : Round s (coreTurn s.cur s).state
  | engine {p : Prim} {ps : List Prim} (h : s.sched = []) (ht : (s.core s.cur).todo = p :: ps)
      (hp : p = .pollTx ∨ p = .pollRx) : Round s (engineStep s)

/-- A predicate `P` that every round keeps holds where a run stops: there the operation is over, or its core waits in a
poll. -/
theorem run_induct {P Q : State → Prop}
    (keep : ∀ s s', P s → (s.core s.cur).todo ≠ [] → Round s s' → P s')
    (done : ∀ s, P s → (s.core s.cur).todo = [] → Q s)
    (waits : ∀ s s', P s → s.sched = [] → coreTurn s.cur s = .spun s' → waitTurn s' = none → Q s')
    {s : State} (hs : P s) : Q (run s) := by
  generalize hn : burst s = n
  induction n using Nat.strong_induction_on generalizing s with
  | _ n ih =>
    by_cases ht : (s.core s.cur).todo = []
    · rw [run_done ht]; exact done s hs ht
    · cases hsc : s.sched with
      | cons t ts =>
        rw [run_turn ht hsc]
        exact ih _ (hn ▸ turn_burst hsc) (keep s _ hs ht (.listed hsc)) rfl
      | nil =>
        have hround : Round s (coreTurn s.cur s).state := .own hsc
        cases hm : coreTurn s.cur s with
        | moved s' =>
          rw [run_moved ht hsc hm]
          rw [hm] at hround
          exact ih _ (hn ▸ coreTurn_burst hsc ht hm) (keep s s' hs ht hround) rfl
        | spun s1 =>
          rw [hm] at hround
          have hp1 : P s1 := keep s s1 hs ht hround
          obtain ⟨c1, c2, c3, c4, c5, c6, c7, p, ps, hp, hpp⟩ := coreTurn_spun hm
          have hp1' : (s1.core s1.cur).todo = p :: ps := by rw [c2, core_congr c1]; exact hp
          rcases waitTurn_cases s1 with hw | ⟨_, _, hw⟩ | ⟨_, _, hw⟩
          · rw [run_waits hsc hm hw]; exact waits s s1 hs hsc hm hw
          · rw [run_waited hsc hm hw]
            exact ih _ (hn ▸ waitTurn_burst hsc hm hw) hp1 rfl
          · rw [run_waited hsc hm hw]
            exact ih _ (hn ▸ waitTurn_burst hsc hm hw)
              (keep s1 _ hp1 (by rw [hp1']; simp) (.engine (c4.trans hsc) hp1' hpp)) rfl

end Sys2Proof.Laws
end

