-- ==== Sys2Proof/Laws/Schedule.lean ====
section
/-! SUPPORT. Invariants in any schedule. `Kept` is for predicates that depend on the cores' status: what every turn, every
issue of an operation and every entry of `fail` keeps, every step keeps. `OwnKept` is for the run of one operation while the
other cores can only fail (R13): what the executing core's primitives, the others' and the engine keep, the run keeps. -/

namespace Sys2Proof.Laws

open Sys2Proof Sys2Proof.Machine

/-- A predicate that turns, issues, entries of `fail`, returns and the ends of runs keep. -/
structure Kept (P : State → Prop) : Prop where
  turn : ∀ s t ts, ts <:+ s.sched → P s → P (turn t { s with sched := ts }).state
  issue : ∀ s i ps, P s → s.cur = s.cfg.leadHart → (s.core s.cur).fstat = .running → (s.core s.cur).todo = [] →
    (s.core s.cur).stop = none → (∀ p ∈ ps, failPrim p = false) →
    P (s.setCore s.cur { s.core s.cur with op := some i, todo := ps })
  fail : ∀ s c f, P s → (s.core s.cur).stop = none → P (enterFail s.cur c f s)
  retire : ∀ s r, P s → P (s.retire r)
  stop : ∀ s x, P s → (s.core s.cur).stop = none → P (s.stopCore s.cur x)
  sched : ∀ s ts, ts <:+ s.sched → P s → P { s with sched := ts }

/-- R82, R90 to R102: no operation on the controller is made of primitives of `fail`. -/
theorem rxPlan_noFail (cfg : Config) : ∀ p ∈ rxPlan cfg, failPrim p = false := by
  unfold rxPlan; split <;> simp [failPrim]

theorem txrxPlan_noFail (cfg : Config) (b : Byte) : ∀ p ∈ txrxPlan cfg b, failPrim p = false := by
  intro p hp
  rcases List.mem_append.1 hp with hp | hp
  · rcases (by simpa [txPlan] using hp : p = .pollTx ∨ p = .send b) with rfl | rfl <;> rfl
  · exact rxPlan_noFail cfg p hp

theorem framePlan_noFail (begins : Bool) : ∀ p ∈ framePlan begins, failPrim p = false := by
  simp [framePlan, failPrim]

theorem copyPlan_noFail (cfg : Config) (dst addr size : Word) : ∀ p ∈ copyPlan cfg dst addr size, failPrim p = false := by
  intro p hp
  simp only [copyPlan, commandPlan, List.mem_append, List.mem_flatMap, List.mem_singleton] at hp
  rcases hp with ((hp | ⟨b, _, hp⟩) | rfl) | hp
  · exact framePlan_noFail true p hp
  · exact txrxPlan_noFail cfg b p hp
  · rfl
  · exact framePlan_noFail false p hp

/-- A round keeps it. -/
theorem Kept.round {P} (k : Kept P) {s s'} (hs : P s) (hr : Round s s') : P s' := by
  cases hr with
  | listed h => exact k.turn _ _ _ (by rw [h]; exact List.suffix_cons _ _) hs
  | own h => exact k.turn s (.core s.cur) s.sched (List.suffix_refl _) hs
  | engine h _ _ => exact k.turn s .engine s.sched (List.suffix_refl _) hs

/-- A run keeps it. -/
theorem Kept.run {P} (k : Kept P) {s} (hs : P s) : P (Machine.run s) := by
  refine run_induct (P := P) (Q := P) (fun s s' hs _ hr => k.round hs hr) (fun s hs _ => hs) ?_ hs
  intro s s' hs _ hl _
  have := k.turn s (.core s.cur) s.sched (List.suffix_refl _) hs
  change P (coreTurn s.cur s).state at this
  rwa [hl] at this

/-- An operation keeps it. -/
theorem Kept.exec {P} (k : Kept P) {i s t} (hs : P s) (h : exec i s = .next t) : P t := by
  have op : ∀ (f : State → State), ((s.core s.cur).fstat = .running → (s.core s.cur).todo = [] →
      (s.core s.cur).stop = none → P (f s)) → operate f s = .next t → P t := by
    intro f hf ho
    unfold operate at ho
    split at ho
    · rename_i x _; cases x <;> cases ho
    · rename_i hn
      cases ho
      split
      · exact k.run hs
      · rename_i hb
        split
        · rename_i hr; exact hf hr (by simpa [State.busy] using hb) hn
        · exact hs
  have lead : ∀ j (f : State → State), (s.core s.cur).stop = none → (s.cur = s.cfg.leadHart → P (f s)) →
      P (leadOnly j f s) := by
    intro j f hn hf
    unfold leadOnly
    split
    · rename_i hl; exact hf hl
    · exact k.stop _ _ hs hn
  have perf : ∀ j ps, (∀ p ∈ ps, failPrim p = false) → (s.core s.cur).fstat = .running → (s.core s.cur).todo = [] →
      (s.core s.cur).stop = none → P (leadOnly j (perform j ps) s) :=
    fun j ps hp hr ht hn => lead _ _ hn fun hl => k.run (k.issue _ _ _ hs hl hr ht hn hp)
  have snoc : ∀ ps r, failPrim r = false → (∀ p ∈ ps, failPrim p = false) → ∀ p ∈ ps ++ [r], failPrim p = false := by
    intro ps r hr hp p h
    rcases List.mem_append.1 h with h | h
    · exact hp p h
    · rw [List.mem_singleton.1 h, hr]
  cases i with
  | copy dst addr size =>
    refine op _ (fun hr ht hn => lead _ _ hn fun hl => ?_) h
    split
    · exact k.stop _ _ hs hn
    · split
      · exact k.stop _ _ hs hn
      · exact k.run (k.issue _ _ _ hs hl hr ht hn (snoc _ _ rfl (copyPlan_noFail _ _ _ _)))
  | clkdiv a b =>
    change execClkdiv a b s = _ at h
    unfold execClkdiv at h
    refine op _ (fun hr ht hn => ?_) h
    split
    · exact k.retire _ _ hs
    · exact k.stop _ _ hs hn
  | diagEncode a b c =>
    change execDiagEncode a b c s = _ at h
    unfold execDiagEncode at h
    refine op _ (fun hr ht hn => ?_) h
    split
    · exact k.retire _ _ hs
    · exact k.stop _ _ hs hn
  | diagDecode d =>
    change execDiagDecode d s = _ at h
    unfold execDiagDecode at h
    exact op _ (fun hr ht hn => k.retire _ _ hs) h
  | fail c f =>
    change execFail c f s = _ at h
    unfold execFail at h
    split at h
    · rename_i x _; cases x <;> cases h
    · rename_i hn
      cases h
      split
      · exact k.run hs
      · exact k.run (k.fail _ _ _ hs hn)
  | tx b => exact op _ (perf _ _ (by simp [txPlan, failPrim])) h
  | rx => exact op _ (perf _ _ (snoc _ _ rfl (rxPlan_noFail _))) h
  | txrx b => exact op _ (perf _ _ (snoc _ _ rfl (txrxPlan_noFail _ b))) h
  | frameBegin => exact op _ (perf _ _ (by simp [framePlan, failPrim])) h
  | frameEnd => exact op _ (perf _ _ (by simp [framePlan, failPrim])) h

/-- A step in which the executing core does nothing keeps it. -/
theorem Kept.idleStep {P} (k : Kept P) {s} (hs : P s) : P (idleStep s) := by
  unfold Machine.idleStep
  split
  · rename_i t ts h; exact k.turn _ _ _ (by rw [h]; exact List.suffix_cons _ _) hs
  · split
    · exact k.turn s .engine s.sched (List.suffix_refl _) hs
    · exact hs

/-- A step keeps it. -/
theorem Kept.step {P} (k : Kept P) {s t} (hs : P s) (h : step s = .next t) : P t := by
  unfold Machine.step at h
  split at h
  · cases h
  · split at h
    · cases h; exact k.run hs
    · split at h
      · split at h
        · rename_i x _ _; cases x <;> cases h
        · cases h; exact k.idleStep hs
      · rename_i hn
        have hs' : P s.turnTaken := k.sched _ _ (List.tail_suffix _) hs
        split at h
        · cases h; exact k.idleStep hs
        · split at h
          · cases h; exact k.idleStep hs
          · split at h
            · exact k.exec hs' h
            · cases h; exact k.stop _ _ hs' hn

/-- A predicate that the executing core's primitives, the other cores' failing primitives, the engine and the entries of `fail`
keep, while the executing core has an operation in progress. -/
structure OwnKept (Q : State → Prop) : Prop where
  sched : ∀ u ts, Q u → Q { u with sched := ts }
  own : ∀ u p ps, OthersOnlyFail u → Q u → (u.core u.cur).todo = p :: ps → Q (prim u.cur p ps u).state
  other : ∀ u h p ps, (u.core u.cur).todo ≠ [] → Q u → h ≠ u.cur → failPrim p = true → Q (prim h p ps u).state
  engine : ∀ u, (u.core u.cur).todo ≠ [] → Q u → Q (engineStep u)
  enter : ∀ u h c, (u.core u.cur).todo ≠ [] → Q u → (u.core h).stop = none → Entry u h c → Q (u.setCore h c)

/-- R133: what `fail` is made of. -/
theorem failPlan_all (d : Option Code) : ∀ p ∈ failPlan d, failPrim p = true := by
  cases d <;> simp [failPlan, failPrim]

/-- A core that enters `fail`, or whose run ends there, has only primitives of `fail` left. -/
theorem Entry.todo {s : State} {h : Nat} {c : Core} (he : Entry s h c) : ∀ p ∈ c.todo, failPrim p = true := by
  rcases he with ⟨d, _, _, e, _⟩ | ⟨_, e, _⟩ <;> rw [e]
  · exact failPlan_all d
  · simp

/-- That the other cores only fail is kept when one core is replaced. -/
theorem othersOnlyFail_set {u u' : State} {h c} (ho : OthersOnlyFail u) (hcur : u'.cur = u.cur)
    (e : u'.cores = u.cores.set h c)
    (hc : h ≠ u.cur → ∀ p ∈ c.todo, failPrim p = true) : OthersOnlyFail u' := by
  intro k hk p hp
  rw [hcur] at hk
  rcases core_of_set e k with ⟨h1, h2, _⟩ | h1
  · rw [h1] at hp; subst h2; exact hc hk p hp
  · rw [h1] at hp; exact ho k hk p hp

/-- That the other cores only fail depends on the cores alone. -/
theorem othersOnlyFail_congr {u u' : State} (ho : OthersOnlyFail u) (hcur : u'.cur = u.cur)
    (e : u'.cores = u.cores) : OthersOnlyFail u' := by
  intro k hk p hp; rw [core_congr e] at hp; rw [hcur] at hk; exact ho k hk p hp

/-- That the other cores only fail is kept by every turn. -/
theorem othersOnlyFail_turn {u u' : State} (ho : OthersOnlyFail u) (hcur : u'.cur = u.cur) (ht : TurnCores u u') :
    OthersOnlyFail u' := by
  cases ht with
  | same e => exact othersOnlyFail_congr ho hcur e
  | prim h p ps c ht e hm =>
    refine othersOnlyFail_set ho hcur e (fun hk q hq => ?_)
    have hp := ho h hk p (by rw [ht]; simp)
    cases hm with
    | on _ _ _ e1 => rw [e1] at hq; exact ho h hk q (by rw [ht]; simp [hq])
    | returned _ _ _ _ e1 | halted _ _ _ _ _ e1 | faulted _ _ _ _ _ e1 => rw [e1] at hq; simp at hq
    | copied a n e1 => subst e1; simp [failPrim] at hp
  | entry h c _ _ e he => exact othersOnlyFail_set ho hcur (by rw [e]; rfl) fun _ => he.todo

section
variable {Q : State → Prop} (k : OwnKept Q)
include k

/-- A turn keeps it, and that the other cores only fail. -/
theorem OwnKept.turn {u t} (hne : (u.core u.cur).todo ≠ []) (ho : OthersOnlyFail u) (hq : Q u) :
    OthersOnlyFail (turn t u).state ∧ Q (turn t u).state := by
  refine ⟨othersOnlyFail_turn ho (turn_queues t u).2.2.1 (turn_cores t u), ?_⟩
  cases t with
  | core h =>
    rw [show Machine.turn (.core h) u = coreTurn h u from rfl]
    unfold coreTurn
    split
    · exact hq
    · rename_i p ps ht
      by_cases hk : h = u.cur
      · subst hk; exact k.own u p ps ho hq ht
      · exact k.other u h p ps hne hq hk (ho h hk p (by rw [ht]; simp))
  | engine => exact k.engine _ hne hq
  | trap h cause =>
    rcases trapTurn_cases h cause u with ⟨e, _⟩ | ⟨hh, hs, e⟩ <;> rw [e]
    · exact hq
    · obtain ⟨c, e, he⟩ := takeTrap_entry cause hh
      rw [e]; exact k.enter u h c hne hq hs he
  | call h code f =>
    rcases callTurn_cases h code f u with e | ⟨hh, hs, _, _, e⟩ <;> rw [e]
    · exact hq
    · obtain ⟨c, e, _, he⟩ := enterFail_entry h code f u
      rw [e]; exact k.enter u h c hne hq hs he

/-- A round keeps it, and that the other cores only fail. -/
theorem OwnKept.round {u u'} (hne : (u.core u.cur).todo ≠ []) (ho : OthersOnlyFail u) (hq : Q u)
    (hr : Round u u') : OthersOnlyFail u' ∧ Q u' := by
  cases hr with
  | @listed t ts h => exact k.turn (u := { u with sched := ts }) hne ho (k.sched u ts hq)
  | own h => exact k.turn (t := .core u.cur) hne ho hq
  | engine h _ _ => exact k.turn (t := .engine) hne ho hq

/-- A run keeps it, and ends with the operation over or in a poll. -/
theorem OwnKept.run {u} (ho : OthersOnlyFail u) (hq : Q u) :
    let t := Machine.run u
    OthersOnlyFail t ∧ Q t ∧ ((t.core t.cur).todo = [] ∨ Polling t) := by
  refine run_induct (P := fun u => OthersOnlyFail u ∧ Q u) (Q := fun t =>
      OthersOnlyFail t ∧ Q t ∧ ((t.core t.cur).todo = [] ∨ Polling t)) ?_ ?_ ?_ ⟨ho, hq⟩
  · intro s s' hs hne hr; exact k.round hne hs.1 hs.2 hr
  · intro s hs ht; exact ⟨hs.1, hs.2, .inl ht⟩
  · intro s s' hs _ hl _
    obtain ⟨c1, c2, _, _, _, _, _, p, ps, hp, hpp⟩ := coreTurn_spun hl
    have := k.turn (t := .core s.cur) (by rw [hp]; simp) hs.1 hs.2
    rw [show Machine.turn (.core s.cur) s = coreTurn s.cur s from rfl, hl] at this
    exact ⟨this.1, this.2, .inr ⟨p, ps, by rw [c2, core_congr c1]; exact hp, hpp⟩⟩

end

/-- What a primitive leaves as it was. -/
structure PrimSame (p : Prim) (u u' : State) : Prop where
  cfg : u'.cfg = u.cfg
  cur : u'.cur = u.cur
  wire : u'.wire = u.wire
  ret : isRet p = false → u'.idx = u.idx ∧ u'.results = u.results
  inh : (∀ b, p ≠ .writeInh b) → u'.inh = u.inh
  mem : (∀ a, p ≠ .store a) → u'.mem = u.mem
  tx : (∀ b, p ≠ .send b) → u'.txq = u.txq ∧ u'.txdata = u.txdata
  rx : p ≠ .pollRx → p ≠ .readRx → u'.rxq = u.rxq

/-- Every primitive leaves what is not its own. -/
theorem primSame (h : Nat) (p : Prim) (ps : List Prim) (u : State) : PrimSame p u (prim h p ps u).state := by
  have hc := prim_case h p ps u
  generalize prim h p ps u = m at hc
  cases hc with
  | foreign | overflow | underflow | copied | copy | halt => constructor <;> simp
  | pollTx | spinTx => obtain ⟨w, hw, _⟩ := readTxcnt_state h u; constructor <;> simp [hw]
  | send _ hw => rcases writeTxdata_state hw with h1 | ⟨_, _, h1⟩ <;> constructor <;> simp [h1]
  | pollRx | spinRx =>
    obtain ⟨w, h1 | ⟨_, _, _, _, _, _, _, h1⟩⟩ := readRxrdy_state h u <;> constructor <;> simp [h1]
  | readRx _ hr => obtain ⟨w, h1 | ⟨_, _, _, h1⟩⟩ := readRxdata_state hr <;> constructor <;> simp [h1]
  | readInh => rcases readInhWord_state h u with h1 | h1 <;> constructor <;> simp [h1]
  | @writeInh begins =>
    rcases writeInhWord_state h (withInhibit u.cfg.inhibitBit (frameLevel u.cfg begins) (u.core h).inhWord) u with
      h1 | ⟨_, h1⟩ <;> constructor <;> simp [h1]
  | store => constructor <;> simp [storeByte]
  | con => constructor <;> simp [consoleOut]
  | gpio => constructor <;> simp [gpioAmo]
  | ret | retByte => constructor <;> simp [isRet]

/-- What a primitive of `fail` is not. -/
theorem failPrim_ne {p} (h : failPrim p = true) : isRet p = false ∧ (∀ b, p ≠ .writeInh b) ∧ (∀ a, p ≠ .store a) ∧
    (∀ b, p ≠ .send b) ∧ p ≠ .pollRx ∧ p ≠ .readRx := by
  cases p <;> simp [failPrim] at h <;> simp [isRet]

/-- A class of primitives closed under `copy`'s unfolding still holds the executing core's after one of them. -/
theorem own_todo {u p ps} {C : Prim → Prop} (ht : (u.core u.cur).todo = p :: ps) (hC : ∀ q ∈ p :: ps, C q)
    (hcopy : ∀ a n, C (.copyBytes a (n+1)) → ∀ q ∈ txrxPlan u.cfg 0 ++ [.store a, .copyBytes (a + 1) n], C q) :
    let u' := (prim u.cur p ps u).state
    ∀ q ∈ (u'.core u'.cur).todo, C q := by
  intro u'
  have hcur : u'.cur = u.cur := (prim_queues u.cur p ps u).2.2.1
  rw [hcur]
  rcases prim_cores u.cur p ps u with ⟨_, e, _⟩ | ⟨c, _, e, _, hm⟩
  · rw [core_congr e, ht]; exact hC
  · have hlen : u.cur < u.cores.length := lt_of_todo_ne_nil (by rw [ht]; simp)
    rw [show u'.core u.cur = c by simp [u', State.core, e, List.getD, hlen]]
    cases hm with
    | on _ _ _ e1 => rw [e1]; intro q hq; exact hC q (by simp [hq])
    | returned _ _ _ _ e1 | halted _ _ _ _ _ e1 | faulted _ _ _ _ _ e1 => rw [e1]; simp
    | copied a n e1 _ _ _ e2 =>
      subst e1
      rw [e2]
      intro q hq
      rw [← List.append_assoc] at hq
      rcases List.mem_append.1 hq with hq | hq
      · exact hcopy a n (hC _ (by simp)) q hq
      · exact hC q (by simp [hq])

/-- Another core's primitive leaves the executing core. -/
theorem other_own {u h} (p ps) (hk : h ≠ u.cur) :
    let u' := (prim h p ps u).state
    u'.core u'.cur = u.core u.cur := by
  dsimp only
  rw [(prim_queues h p ps u).2.2.1]; exact prim_core_ne p ps u (Ne.symm hk)

/-- The engine leaves the executing core. -/
theorem engine_own (u) : (engineStep u).core (engineStep u).cur = u.core u.cur := by
  rw [(engineStep_queues u).2.2.1]; exact core_congr (engineStep_cores u) _

/-- What an engine step leaves as it was. -/
theorem engine_same (u) : let u' := engineStep u
    u'.cfg = u.cfg ∧ u'.cur = u.cur ∧ u'.idx = u.idx ∧ u'.results = u.results ∧ u'.inh = u.inh ∧ u'.mem = u.mem ∧
      u'.txdata = u.txdata := by
  rcases engineStep_state u with ⟨e, _⟩ | ⟨b, q, _, _, _, _, _, _, e⟩ <;> rw [e] <;> simp

/-- A class of primitives that holds `fail`'s still holds the executing core's when some core enters `fail`. -/
theorem enter_own {u : State} {h c} (C : Prim → Prop) (hC : ∀ q ∈ (u.core u.cur).todo, C q)
    (hf : ∀ q, failPrim q = true → C q) (he : Entry u h c) :
    ∀ q ∈ ((u.setCore h c).core (u.setCore h c).cur).todo, C q := by
  rw [setCore_cur]
  rcases core_setCore_cases u h u.cur c with ⟨h1, h2, _⟩ | h1
  · rw [h1]; intro q hq; exact hf q (he.todo q hq)
  · rw [h1]; exact hC

/-- A class of primitives closed under what happens, and a state predicate that the class keeps. -/
theorem ownKept_of_class {C : Prim → Prop} {R : State → Prop} (hf : ∀ q, failPrim q = true → C q)
    (hcopy : ∀ cfg a n, C (.copyBytes a (n+1)) → ∀ q ∈ txrxPlan cfg 0 ++ [.store a, .copyBytes (a + 1) n], C q)
    (hsched : ∀ u ts, R u → R { u with sched := ts }) (hcore : ∀ u h c, R u → R (u.setCore h c))
    (hprim : ∀ u h p ps, (u.core u.cur).todo ≠ [] → C p → R u → (h = u.cur → (u.core u.cur).todo = p :: ps) →
        (h ≠ u.cur → failPrim p = true) → R (prim h p ps u).state)
    (hengine : ∀ u, R u → R (engineStep u)) :
    OwnKept (fun u => (∀ q ∈ (u.core u.cur).todo, C q) ∧ R u) where
  sched u ts h := ⟨h.1, hsched _ _ h.2⟩
  own u p ps ho h ht := ⟨own_todo ht (by rw [← ht]; exact h.1) (hcopy u.cfg), hprim u u.cur p ps
      (by rw [ht]; simp) (h.1 p (by rw [ht]; simp)) h.2 (fun _ => ht) (fun x => absurd rfl x)⟩
  other u h p ps hne hq hk hp := ⟨by rw [other_own p ps hk]; exact hq.1, hprim u h p ps hne (hf p hp) hq.2
      (fun e => absurd e hk) (fun _ => hp)⟩
  engine u hne hq := ⟨by rw [engine_own]; exact hq.1, hengine _ hq.2⟩
  enter u h c hne hq _ he := ⟨enter_own C hq.1 hf he, hcore _ _ _ hq.2⟩

end Sys2Proof.Laws
end

