-- ==== Sys2Proof/Laws/Alone.lean ====
section
/-! SUPPORT. What an operation that starts comes to (`ExecCase`), the run of the executing core with no turn listed, one
primitive after the other, and the steps of the machine one after the other. -/

namespace Sys2Proof.Laws

open Sys2Proof Sys2Proof.Machine

/-! ## Starting an operation -/

/-- A core that can start an operation starts it. -/
theorem ready_exec {s : State} (hr : Ready s) (k) : operate k s = .next (k s) := by
  obtain ⟨_, hr, ht, hn⟩ := hr
  have hb : s.busy = false := by simp [State.busy, ht]
  simp [operate, hb, hr, hn]

/-- The lead core starts an operation on the controller. -/
theorem exec_perform {s : State} (h : LeadReady s) (i : Instr) (ps) :
    operate (leadOnly i (perform i ps)) s =
      .next (run (s.setCore s.cur { s.core s.cur with op := some i, todo := ps })) := by
  rw [ready_exec h.1]; unfold leadOnly; rw [if_pos h.2]; rfl

/-- The end of the executing core's run, as statements say it. -/
theorem endsIn_eq (s : State) (x : Stop) : s.endsIn x = s.stopCore s.cur x := rfl

/-- `diag_encode` on a core that can start it. -/
theorem exec_diagEncode {s : State} (h : Ready s) (st f c) :
    exec (.diagEncode st f c) s = .next (match composeCode st f c with
      | .ok d => s.retire (.code d)
      | .error r => s.endsIn (.refused r)) := by
  simp only [exec, execDiagEncode, ready_exec h] <;> rfl

/-- `diag_decode` on a core that can start it. -/
theorem exec_diagDecode {s : State} (h : Ready s) (d) :
    exec (.diagDecode d) s = .next (s.retire (.fields (decodeCode d))) := by
  simp only [exec, execDiagDecode, ready_exec h]

/-- `clkdiv` on a core that can start it. -/
theorem exec_clkdiv {s : State} (h : Ready s) (a b) :
    exec (.clkdiv a b) s = .next (match clkdivValue a b with
      | some d => s.retire (.divisor d)
      | none => s.endsIn (.refused .clkdivDomain)) := by
  simp only [exec, execClkdiv, ready_exec h] <;> rfl

/-- `fail` on a core that can start it. -/
theorem exec_fail {s : State} (hr : Ready s) (code f) :
    exec (.fail code f) s = .next (run (enterFail s.cur code f s)) := by
  change execFail code f s = _
  unfold execFail
  rw [hr.2.2.2]
  dsimp only
  rw [if_neg (by simp [State.busy, hr.2.2.1])]

/-- A run whose operation could not start is over. -/
theorem run_stopCore (s : State) (x : Stop) : run (s.stopCore s.cur x) = s.stopCore s.cur x :=
  run_done (todo_stopCore_self s s.cur x)

/-- The lead core enters `fail`. -/
theorem enterFail_lead {s : State} {h code f} (hr : (s.core h).fstat = .running)
    (hl : h = s.cfg.leadHart) : enterFail h code f s = match composeCode s.cfg.bootstage f code with
      | .ok d => s.setCore h { s.core h with
          fstat := .failing (some d), op := some (.fail code f), todo := failPlan (some d) }
      | .error r => s.stopCore h (.refused r) := by
  unfold enterFail; dsimp only; rw [hr]; dsimp only; rw [if_pos hl] <;> rfl

/-- Another core enters `fail`. -/
theorem enterFail_other {s : State} {h code f} (hr : (s.core h).fstat = .running)
    (hl : h ≠ s.cfg.leadHart) : enterFail h code f s = s.setCore h { s.core h with
      fstat := .failing none, op := some (.fail code f), todo := failPlan none } := by
  unfold enterFail; dsimp only; rw [hr]; dsimp only; rw [if_neg hl]

/-- R152: a core that is failing or halted. -/
theorem enterFail_not {s : State} {h code f} (hr : (s.core h).fstat ≠ .running) :
    enterFail h code f s = s.stopCore h (.fault (.nestedFail h code)) := by
  unfold enterFail; dsimp only
  cases hf : (s.core h).fstat with
  | running => exact absurd hf hr
  | failing d => rfl
  | halted d => rfl

/-- The primitives of an operation on the controller, none for the others. -/
def planOf (cfg : Config) : Instr → List Prim
  | .tx b => txPlan b ++ [Prim.ret Result.unit]
  | .rx => rxPlan cfg ++ [Prim.retByte]
  | .txrx b => txrxPlan cfg b ++ [Prim.retByte]
  | .frameBegin => framePlan true ++ [Prim.ret Result.unit]
  | .frameEnd => framePlan false ++ [Prim.ret Result.unit]
  | .copy dst addr size => copyPlan cfg dst addr size ++ [Prim.ret Result.ok]
  | _ => []

/-- The operation is on the controller. -/
def isSpi : Instr → Bool
  | .tx _ | .rx | .txrx _ | .frameBegin | .frameEnd | .copy _ _ _ => true
  | _ => false

/-- What an operation that starts comes to: it returns at once, it is refused, it faults on a foreign core, or its primitives run. -/
inductive ExecCase (i : Instr) (s : State) : State → Prop
  | pure (r : Result) (hi : isSpi i = false) (hf : ∀ c f, i ≠ .fail c f) : ExecCase i s (s.retire r)
  | refused (r) : ExecCase i s (s.endsIn (.refused r))
  | foreign (hi : isSpi i = true) (hl : s.cur ≠ s.cfg.leadHart) :
      ExecCase i s (s.endsIn (.fault (.foreignAccess s.cur (some i))))
  | spi (hi : isSpi i = true) (hl : s.cur = s.cfg.leadHart)
      (hr : ∀ dst addr size, i = .copy dst addr size → CopyRange s.cfg dst size) :
      ExecCase i s (run (s.setCore s.cur { s.core s.cur with op := some i, todo := planOf s.cfg i }))
  | fail (c f d) (hi : i = .fail c f) : ExecCase i s (run
      (s.setCore s.cur { s.core s.cur with fstat := .failing d, op := some i, todo := failPlan d }))

/-- An operation on a core that can start it comes to one of these. -/
theorem execCase {i s} (hr : Ready s) : ∃ t, exec i s = .next t ∧ ExecCase i s t := by
  have spi : ∀ ps, ps = planOf s.cfg i → isSpi i = true → (∀ dst addr size, i ≠ .copy dst addr size) →
      ∃ t, operate (leadOnly i (perform i ps)) s = .next t ∧ ExecCase i s t := by
    rintro ps rfl hi hn
    refine ⟨_, ready_exec hr _, ?_⟩
    unfold leadOnly
    split
    · exact .spi hi (by assumption) (fun d a z e => absurd e (hn d a z))
    · exact .foreign hi (by assumption)
  cases i with
  | copy dst addr size =>
    refine ⟨_, ready_exec hr _, ?_⟩
    unfold leadOnly
    split
    · split
      · exact .refused _
      · beta_reduce
        split
        · exact .refused _
        · refine .spi rfl (by assumption) ?_
          intro d a z e; cases e
          rename_i h1 h2
          refine ⟨by omega, ?_⟩
          by_cases h : size.toNat = 0
          · exact .inl h
          · right; simpa [h] using h2
    · exact .foreign rfl (by assumption)
  | clkdiv a b =>
    refine ⟨_, exec_clkdiv hr a b, ?_⟩
    split
    · exact .pure _ rfl (by simp)
    · exact .refused _
  | diagEncode a b c =>
    refine ⟨_, exec_diagEncode hr a b c, ?_⟩
    split
    · exact .pure _ rfl (by simp)
    · exact .refused _
  | diagDecode d => exact ⟨_, exec_diagDecode hr d, .pure _ rfl (by simp)⟩
  | fail c f =>
    refine ⟨_, exec_fail hr c f, ?_⟩
    rcases enterFail_cases s.cur c f s with ⟨d, _, e⟩ | ⟨r, _, _, _, e⟩ | ⟨hn, _⟩
    · rw [e]; exact .fail c f d rfl
    · rw [e, run_stopCore]; exact .refused r
    · exact absurd hr.2.1 hn
  | tx b => exact spi _ rfl rfl (by simp)
  | rx => exact spi _ rfl rfl (by simp)
  | txrx b => exact spi _ rfl rfl (by simp)
  | frameBegin => exact spi _ rfl rfl (by simp)
  | frameEnd => exact spi _ rfl rfl (by simp)

/-- The core that the start of an operation leaves. -/
theorem issue_core {s : State} (hr : Ready s) (c) : (s.setCore s.cur c).core
    (s.setCore s.cur c).cur = c := core_setCore_self c hr.1

/-- Starting an operation leaves the other cores. -/
theorem othersOnlyFail_issue {s : State} (ho : OthersOnlyFail s) (c) : OthersOnlyFail (s.setCore s.cur c) :=
  othersOnlyFail_set ho rfl rfl (fun h => absurd rfl h)

/-- An operation on a core that can start it, in any schedule: it returned at once, its core's run ended before any access, or
its run kept the predicate and is over or in a poll. -/
theorem exec_own {Q : State → Prop} (k : OwnKept Q) {i s t} (hr : Ready s) (ho : OthersOnlyFail s)
    (hspi : isSpi i = true → s.cur = s.cfg.leadHart → (∀ dst addr size, i = .copy dst addr size →
        CopyRange s.cfg dst size) → Q (s.setCore s.cur { s.core s.cur with op := some i, todo := planOf s.cfg i }))
    (hfail : ∀ c f d, i = .fail c f → Q (s.setCore s.cur
      { s.core s.cur with fstat := .failing d, op := some i, todo := failPlan d }))
    (h : exec i s = .next t) :
    (isSpi i = false ∧ (∀ c f, i ≠ .fail c f) ∧ ∃ r, t = s.retire r) ∨
      (∃ x, t = s.endsIn x ∧ ((∃ r, x = .refused r) ∨ x = .fault (.foreignAccess s.cur (some i)))) ∨
      (OthersOnlyFail t ∧ Q t ∧ ((t.core t.cur).todo = [] ∨ Polling t)) := by
  obtain ⟨t', ht, hc⟩ := execCase (i := i) hr
  rw [h] at ht
  cases ht
  cases hc with
  | pure r hi hf => exact .inl ⟨hi, hf, r, rfl⟩
  | refused r => exact .inr (.inl ⟨_, rfl, .inl ⟨r, rfl⟩⟩)
  | foreign => exact .inr (.inl ⟨_, rfl, .inr rfl⟩)
  | spi hi hl hr' => exact .inr (.inr (k.run (othersOnlyFail_issue ho _) (hspi hi hl hr')))
  | fail c f d hi => exact .inr (.inr (k.run (othersOnlyFail_issue ho _) (hfail c f d hi)))

/-! ## Running alone -/

/-- With no turn listed, the primitive at the head of the executing core's list. -/
theorem run_prim {s s' : State} {p : Prim} {ps : List Prim} (hs : s.sched = [])
    (ht : (s.core s.cur).todo = p :: ps) (hm : prim s.cur p ps s = .moved s') : run s = run s' :=
  run_moved (by rw [ht]; simp) hs (by unfold coreTurn; rw [ht]; exact hm)

/-- The top byte as a number. -/
theorem txcntTop_toNat (w : Word) : (txcntTop w).toNat = (w >>> 24).toNat := by
  simp [txcntTop, BitVec.extractLsb'_toNat, Nat.shiftRight_eq_div_pow]; omega

/-- R85: the test of the transmit poll. -/
theorem txSpace_iff (t : Byte) : txSpace t = true ↔ t.toNat < 0x0F := by
  simp [txSpace, txcntLimit, BitVec.lt_def]

/-- R87: the test of the receive poll. -/
theorem rxReady_iff (m w : Word) : rxReady m w = true ↔ (w &&& m) ≠ 0 := by simp [rxReady]

/-- R88: the byte field by a shift. -/
theorem getField_eq (l : Nat) (w : Word) : getField l w = (w >>> l).setWidth 8 := by
  apply BitVec.eq_of_getLsbD_eq; intro i hi; simp [getField]

/-- The last primitive of an operation without a byte. -/
theorem run_ret {s : State} (hs : s.sched = []) (hc : s.cur < s.cores.length) {r} (ht :
    (s.core s.cur).todo = [.ret r]) :
    run s = s.returns r := by
  rw [run_prim hs ht (s' := (s.retire r).setCore s.cur { s.core s.cur with op := none, todo := [] }) rfl]
  rw [run_done]
  · rfl
  · rw [setCore_cur, retire_cur, core_setCore_self _ (by simpa using hc)]

/-- The last primitive of an operation that returns the byte received. -/
theorem run_retByte {s : State} (hs : s.sched = []) (hc : s.cur < s.cores.length) (ht :
    (s.core s.cur).todo = [.retByte]) :
    run s = s.returns (.byte (s.core s.cur).rxByte) := by
  rw [run_prim hs ht (s' := (s.retire (.byte
      (s.core s.cur).rxByte)).setCore s.cur { s.core s.cur with op := none, todo := [] }) rfl]
  rw [run_done]
  · rfl
  · rw [setCore_cur, retire_cur, core_setCore_self _ (by simpa using hc)]

/-- R90: poll and send under the reference controller, where the poll sees room at once. -/
theorem run_tx {s : State} {b : Byte} {ps : List Prim} (ha : Alone s) (hl : s.cur = s.cfg.leadHart)
    (hc : s.cur < s.cores.length)
    (hb : s.cfg.txByteLsb ≤ 24) (hsp : (s.cfg.txcntFn.getD s.txq.length 0xFF).toNat < 0x0F)
        (hd : s.txq.length < s.cfg.txDepth)
    (ht : (s.core s.cur).todo = .pollTx :: .send b :: ps) :
    ∃ w : Word, (w >>> 24).toNat = (s.cfg.txcntFn.getD s.txq.length 0xFF).toNat ∧
     run s = run ({ s.drawn with
        txq := s.txq ++ [b]
        txdata := txWord s.cfg.txByteLsb b
        hist := s.hist ++ [.ioR s.cur s.cfg.offTxcnt w, .ioW s.cur s.cfg.offTxdata (txWord s.cfg.txByteLsb b)]
        cores := s.cores.set s.cur { s.core s.cur with todo := ps } } : State) := by
  obtain ⟨w, hw, htop⟩ := readTxcnt_state s.cur s
  have h1 : (readTxcnt s.cur s).1 = s.cfg.txcntFn.getD s.txq.length 0xFF := by simp [readTxcnt, ha.1]
  refine ⟨w, by rw [← txcntTop_toNat, htop, h1], ?_⟩
  rw [run_prim ha.2 ht (s' := (s.drawn.record (.ioR s.cur s.cfg.offTxcnt w)).setTodo s.cur (.send b :: ps)) (by
    unfold prim; dsimp only; rw [onController_lead _ hl, if_pos (by rw [h1]; exact (txSpace_iff _).2 hsp), hw])]
  refine run_prim (p := .send b) (ps := ps) ?_ ?_ ?_
  · simpa using ha.2
  · simp [State.setTodo, core_setCore_self, hc]
  · unfold prim; dsimp only
    rw [onController_lead _ (by simpa using hl)]
    have : s.txq.length ≠ s.cfg.txDepth := by omega
    simp [writeTxdata, ha.1, this, State.setTodo, State.setCore, State.record, State.core, getField_txWord hb, hc]

/-! ## Steps in a row -/

/-- The first of some steps. -/
theorem core_run_succ (n : Nat) (s : State) : core.run (n + 1) s =
    match step s with
    | .next s' => core.run n s'
    | .fault r => .fault r
    | .refused r => .refused r := by
  simp only [Host.Core.run]
  cases h : step s <;> simp_all [core]

/-- Whether a state may launch does not depend on what its cores do. -/
theorem launchOk_setCore (s : State) (h : Nat) (c : Core) : launchOk (s.setCore h c) = launchOk s := by
  simp [launchOk]; rfl

/-- The step of a machine whose executing core is in an operation. -/
theorem step_busy {s : State} (hl : launchOk s = true) (ht : (s.core s.cur).todo ≠ []) : step s = .next (run s) := by
  unfold step
  rw [if_neg (by simp [hl]), if_pos (by simpa [State.busy] using ht)]

end Sys2Proof.Laws
end

