-- ==== Sys2Proof/Laws/PerInstr.lean ====
section
/-! SUPPORT. What is proved once for each operation of spec/opcode_table.json, for statements about all of them. -/

namespace Sys2Proof.Laws.EncodeShape

open Sys2Proof

/-- R77: the operation's selector is one of the table's, its bytes begin with it, and they fit a slot. -/
def Statement (i : Instr) : Prop :=
  (selector i).toNat ∈ [0x01, 0x02, 0x03, 0x04, 0x05, 0x06, 0x07, 0x10, 0x11, 0x20] ∧
    (encode i).head? = some (selector i) ∧ (encode i).length ≤ slotBytes

theorem tx (b : Byte) : Statement (.tx b) := by
  simp [Statement, selector, encode, operandBytes, slotBytes]

theorem rx : Statement (.rx) := by
  simp [Statement, selector, encode, operandBytes, slotBytes]

theorem txrx (b : Byte) : Statement (.txrx b) := by
  simp [Statement, selector, encode, operandBytes, slotBytes]

theorem frameBegin : Statement (.frameBegin) := by
  simp [Statement, selector, encode, operandBytes, slotBytes]

theorem frameEnd : Statement (.frameEnd) := by
  simp [Statement, selector, encode, operandBytes, slotBytes]

theorem copy (dst addr size : Word) : Statement (.copy dst addr size) := by
  simp [Statement, selector, encode, operandBytes, wordBytes, slotBytes]

theorem clkdiv (input target : Word) : Statement (.clkdiv input target) := by
  simp [Statement, selector, encode, operandBytes, wordBytes, slotBytes]

theorem diagEncode (stage : BitVec 4) (isTrap : Byte) (code : Code) : Statement (.diagEncode stage isTrap code) := by
  simp [Statement, selector, encode, operandBytes, wordBytes, codeBytes, slotBytes]

theorem diagDecode (d : Code) : Statement (.diagDecode d) := by
  simp [Statement, selector, encode, operandBytes, wordBytes, codeBytes, slotBytes]

theorem fail (code : Code) (isTrap : Byte) : Statement (.fail code isTrap) := by
  simp [Statement, selector, encode, operandBytes, wordBytes, codeBytes, slotBytes]

end Sys2Proof.Laws.EncodeShape
end

