-- ==== Sys2Proof/Tests/Slice0.lean ====
section
/-! SUPPORT. The model's own tests. Expected results come from spec/95_test_vectors.md (the vector is named) or are read off
the rule a test names. The second half shows, for each statement with hypotheses, a state and operands that meet them. -/

namespace Sys2Proof.Tests

open Sys2Proof Sys2Proof.Machine

/-! ## Helpers -/

/-- What a next state shows, none where there is no next state. -/
def after {α : Type} (o : Host.Outcome State Fault Refusal) (f : State → α) : Option α :=
  match o with
  | .next s => some (f s)
  | _ => none

/-- The fault or refusal in which a next state's executing core has ended. -/
def stopOf (o : Host.Outcome State Fault Refusal) : Option Stop :=
  match o with
  | .next t => (t.core t.cur).stop
  | _ => none

/-- The fault or refusal that an outcome answers. -/
def answerOf (o : Host.Outcome State Fault Refusal) : Option Stop :=
  match o with
  | .next _ => none
  | .fault r => some (.fault r)
  | .refused r => some (.refused r)

/-- REF under the generic interface with these draws (R24). -/
def generic (ws : List Word) : State :=
  { State.reset with cfg := { Config.ref with iface := .generic }, draws := ws }

/-- REF under the reference controller with a device that gives these answers. -/
def device (rs : List Byte) : State := { State.reset with miso := rs }

/-- REF where core 1 executes, which is not the lead. -/
def onCore1 : State := { State.reset with cur := 1 }

/-- REF with the executing core inside `rx`, its poll still to come. -/
def polling : State :=
  { State.reset with cores := [{ Core.reset with op := some .rx, todo := [.pollRx, .readRx, .retByte] }, Core.reset] }

/-- REF with core 0 halted. -/
def halted : State := { State.reset with cores := [{ Core.reset with fstat := .halted (some 7) }, Core.reset] }

/-! ## WellFormed: each check refuses an ill-formed term -/

theorem test_wf_diag_encode_flag : WellFormed (.diagEncode 0xA 2 0) = false ∧ WellFormed (.diagEncode 0xA 1 0) = true := by
  decide

theorem test_wf_fail_flag : WellFormed (.fail 5 3) = false ∧ WellFormed (.fail 5 0) = true := by decide

/-! ## Decoding: words written out from R77 and the operand order of notes/assumptions/7.md -/

theorem test_decode_tx : decodeTableWord 8 0x01 = some (.tx 0) ∧ decode [0x01, 0xA5] = .ok (.tx 0xA5) := by decide

theorem test_decode_rx : decodeTableWord 8 0x02 = some .rx := by decide

theorem test_decode_txrx : decodeTableWord 8 0x03 = some (.txrx 0) ∧ decode [0x03, 0x9F] = .ok (.txrx 0x9F) := by decide

theorem test_decode_frame : decodeTableWord 8 0x04 = some .frameBegin ∧ decodeTableWord 8 0x05 = some .frameEnd := by decide

theorem test_decode_copy : decodeTableWord 8 0x06 = some (.copy 0 0 0) ∧
    decode [0x06, 0x00, 0x00, 0x00, 0x80, 0xEF, 0xCD, 0xAB, 0x01, 0x01, 0x00, 0x00, 0x00] =
      .ok (.copy 0x80000000 0x01ABCDEF 1) := by decide

theorem test_decode_clkdiv : decodeTableWord 8 0x07 = some (.clkdiv 0 0) ∧
    decode [0x07, 0xE8, 0x80, 0x00, 0x00, 0x10, 0x27, 0x00, 0x00] = .ok (.clkdiv 33000 10000) := by decide

theorem test_decode_diag_encode : decodeTableWord 8 0x10 = some (.diagEncode 0 0 0) ∧
    decode [0x10, 0x0F, 0x01, 0x0B, 0x00, 0x00, 0x00, 0x00, 0x00, 0x00, 0x80] =
      .ok (.diagEncode 0xF 1 0x800000000000000B) := by decide

theorem test_decode_diag_decode : decodeTableWord 8 0x11 = some (.diagDecode 0) ∧
    decode [0x11, 0x07, 0x00, 0x00, 0x00, 0x00, 0x00, 0x80, 0xA1] = .ok (.diagDecode 0xA180000000000007) := by decide

theorem test_decode_fail : decodeTableWord 8 0x20 = some (.fail 0 0) ∧
    decode [0x20, 0x02, 0x00, 0x00, 0x00, 0x00, 0x00, 0x00, 0x00, 0x01] = .ok (.fail 2 1) := by decide

/-- O4 to O7. -/
theorem test_decode_unknown : decode [0x00] = .error (.unknownOp 0x00) ∧ decode [0x08] = .error (.unknownOp 0x08) ∧
    decode [0x12] = .error (.unknownOp 0x12) ∧ decode [0xFF] = .error (.unknownOp 0xFF) := by decide

/-- R81's examples. -/
theorem test_text : instrText (.tx 0xA5) = "tx 0xA5" ∧
    instrText (.diagEncode 0xA 1 0x8000000000000007) = "diag_encode 0xA, 0x01, 0x8000000000000007" := by decide

/-! ## One step of each operation -/

/-- T2: three reads, bits 23 to 0 ignored. -/
theorem test_tx_polls : after (exec (.tx 0xA5) (generic [0x0F000000, 0xFF000000, 0x00FFFFFF]))
    (fun t => (t.txdata, t.idx, t.hist)) =
      some (0xA5, 1, [.ioR 0 0 0x0F000000, .ioR 0 0 0xFF000000, .ioR 0 0 0x00FFFFFF, .ioW 0 4 0xA5]) := by decide

/-- T7: with 15 bytes queued the poll waits for one exchange; 15 bytes are queued again at the end. -/
theorem test_tx_waits : after (exec (.tx 0x33) { device [0x5C] with txq := List.replicate 15 0 })
    (fun t => (t.txq.length, t.rxq, t.txq.getLastD 0)) = some (15, [0x5C], 0x33) := by decide

/-- R-2: the first read is not ready, and RXDATA bits 31 to 8 are ignored. -/
theorem test_rx_polls : after (exec .rx (generic [0x00000002, 0xFFFFFFFF, 0xFFFFFF3C])) (fun t => (t.results, t.draws)) =
    some ([.byte 0x3C], []) := by decide

/-- R-5: the ready read carries the byte. -/
theorem test_rx_same_read : after (exec .rx { generic [0, 0x8000005A] with cfg := { Config.ref with
    iface := .generic, rxSameRead := true, offRxrdy := 0x0C, rxrdyMask := 0x80000000 } })
    (fun t => (t.results, t.hist)) = some ([.byte 0x5A], [.ioR 0 0x0C 0, .ioR 0 0x0C 0x8000005A]) := by decide

/-- X1: one exchange, and the FIFOs empty again. -/
theorem test_txrx : after (exec (.txrx 0x9F) (device [0xEF])) (fun t => (t.results, t.wire, t.txq, t.rxq)) =
    some ([.byte 0xEF], [⟨false, 0x9F, 0xEF⟩], [], []) := by decide

/-- X2: the stale byte comes first. -/
theorem test_txrx_stale : after (exec (.txrx 0x9F) { device [0xEF] with rxq := [0x55] }) (fun t => (t.results, t.txq)) =
    some ([.byte 0x55], [0x9F]) := by decide

/-- B1, and B6 with the inhibit bit at 3 and the begin level 0. -/
theorem test_frame_begin : after (exec .frameBegin { State.reset with inh := 4 }) (fun t => t.inh) = some 5 ∧
    after (exec .frameBegin { State.reset with
      inh := 0xFFFFFFFF, cfg := { Config.ref with inhibitBit := 3, inhBegin := false } }) (fun t => t.inh) =
      some 0xFFFFFFF7 := by decide

/-- B4, and B7. -/
theorem test_frame_end : after (exec .frameEnd { State.reset with inh := 0xFFFFFFFF }) (fun t => t.inh) =
    some 0xFFFFFFFE ∧ after (exec .frameEnd { State.reset with
      inh := 0xFFFFFFF7, cfg := { Config.ref with inhibitBit := 3, inhBegin := false } }) (fun t => t.inh) =
      some 0xFFFFFFFF := by decide

/-- C-1: bytes on the wire, bytes in memory. -/
theorem test_copy : after (exec (.copy 0x80000000 0x123456 2) (device [0xFF, 0xFF, 0xFF, 0xFF, 0x11, 0x22]))
    (fun t => (t.mem, t.wire.map Exchange.mosi, t.wire.all (·.level), t.inh)) =
      some ([(0x80000000, 0x11), (0x80000001, 0x22)], [0x03, 0x12, 0x34, 0x56, 0, 0], true, 0) := by decide

/-- C-6, and C-2 whose range is empty. -/
theorem test_copy_edges : stopOf (exec (.copy 0xFFFFFFFF 0x10 2) State.reset) = some (.refused .dstWrap) ∧
    after (exec (.copy 0x80000000 0 0) (device [1, 2, 3, 4])) (fun t => (t.mem, t.wire.length, t.results)) =
      some ([], 4, [.ok]) := by decide

/-- K1, K4, K6 and K14. -/
theorem test_clkdiv : clkdivValue 33000 10000 = some 1 ∧ clkdivValue 20001 10000 = some 1 ∧ clkdivValue 0 7 = some 0 ∧
    clkdivValue 4294967294 1 = some 2147483646 := by decide

/-- K15, K16, K17. -/
theorem test_clkdiv_refused : stopOf (exec (.clkdiv 4294967295 1) State.reset) = some (.refused .clkdivDomain) ∧
    stopOf (exec (.clkdiv 1000 0) State.reset) = some (.refused .clkdivDomain) ∧
    stopOf (exec (.clkdiv 1 2147483648) State.reset) = some (.refused .clkdivDomain) := by decide

/-- E3, E8 and E10: a full payload, a cause without its top bit, a cause bit that is dropped. -/
theorem test_diag_encode : composeCode 0xA 0 0x00FFFFFFFFFFFFFF = .ok 0xA0FFFFFFFFFFFFFF ∧
    composeCode 0xA 1 0x7FFFFFFFFFFFFFFF = .ok 0xA17FFFFFFFFFFFFF ∧
    composeCode 0xA 1 0x0080000000000003 = .ok 0xA100000000000003 := by decide

/-- E5, E14. -/
theorem test_diag_encode_refused : stopOf (exec (.diagEncode 0xA 0 0x0100000000000000) State.reset) = some (.refused .payloadWidth) ∧ stopOf (exec (.diagEncode 0xA 2 0) State.reset) = some (.refused .trapFlag) := by decide

/-- G1, G2, G8. -/
theorem test_diag_decode :
    decodeCode 0xA180000000000007 = ⟨0xA, 1, 0x80000000000007, some 1, some 7, .trap⟩ ∧
    decodeCode 0xA000000000000002 = ⟨0xA, 0, 2, none, none, .logic⟩ ∧
    decodeCode 0x1F00000000000000 = ⟨1, 0xF, 0, none, none, .notEncoderOutput⟩ := by decide

/-- F4: the second inversion takes the indicator back. -/
theorem test_fail_lead : after (exec (.fail 0x8000000000000007 1)
    { State.reset with gpioVal := 0x20, gpioEn := 0x20, gpioInv := 0x20 })
    (fun t => (t.console, t.gpioVal, t.gpioEn, t.gpioInv, (t.core 0).fstat)) =
      some ([.txReset, .hex32 0xA1800000, .hex32 0x00000007], 0x20, 0x20, 0, .halted (some 0xA180000000000007)) := by
  decide

/-- F8: a core other than the lead checks nothing of the code. -/
theorem test_fail_other : after (exec (.fail 0x0100000000000000 0) onCore1)
    (fun t => (t.console, t.gpioVal, t.gpioEn, t.gpioInv, (t.core 1).fstat)) =
      some ([], 0x20, 0x20, 0x20, .halted none) := by decide

/-- F9: a trap on a halted core. -/
theorem test_trap_halted : stopOf (step { halted with sched := [.trap 0 3] }) = some (.fault (.nestedFail 0 3)) := by decide

/-- T3 and R-6: a poll that is never satisfied is no fault and no result: the core still polls. -/
theorem test_poll_waits : after (exec (.tx 0) (generic [0x0F000000, 0x0F000000])) (fun t => ((t.core 0).todo, t.idx)) =
    some ([.pollTx, .send 0, .ret .unit], 0) ∧
    after (exec .rx State.reset) (fun t => ((t.core 0).todo, t.idx)) = some ([.pollRx, .readRx, .retByte], 0) := by decide

/-- R145: core 1's nested failure and the engine's overflow end their own runs, and the lead core's `tx` returns. -/
theorem test_faults_are_the_agents_own : after (exec (.tx 7) { device [0xEE] with
      cores := [Core.reset, { Core.reset with fstat := .halted none }]
      rxq := List.replicate 16 0, txq := [1], sched := [.call 1 5 0, .engine] })
    (fun t => ((t.idx, t.txq, t.wire.length), (t.core 0).stop, (t.core 1).stop, t.engineFault)) =
      some ((1, [7], 1), none, some (.fault (.nestedFail 1 5)), some (.rxOverflow 0xEE)) := by decide

/-- R146: the mark stays, and once nothing else can happen a step answers it. -/
theorem test_refusal_is_answered : answerOf (step { State.reset with
    cores := [{ Core.reset with stop := some (.refused .trapFlag) }, Core.reset] }) = some (.refused .trapFlag) := by decide

/-- `withFetchWord` places the operation where the next step fetches. -/
theorem test_fetch_word : after (step (State.reset.withFetchWord 8 0x04)) (fun t => (t.inh, t.idx)) = some (1, 1) := by decide

/-! ## Witnesses: for each statement with hypotheses, a state and operands that meet them -/

/-- What a next state shows, as a next state. -/
theorem next_of {α : Type} {o : Host.Outcome State Fault Refusal} {f : State → α} {x : α} (h : after o f = some x) :
    ∃ t, o = .next t ∧ f t = x := by
  cases o with
  | next t => exact ⟨t, rfl, by simpa [after] using h⟩
  | fault r => cases h
  | refused r => cases h

/-- REF with core 1 in the middle of `fail` and turns of every agent listed. -/
def busyOthers : State :=
  { device [0x5A, 1, 2, 3, 4, 5] with
    cores := [Core.reset, { Core.reset with fstat := .failing none, op := some (.fail 5 0), todo := failPlan none }]
    sched := [.core 1, .core 0, .core 0, .engine, .core 1, .engine, .core 0, .core 1] }

/-- REF with the operation of these bytes at the position. -/
def programmed (slot : Slot) : State := { State.reset with prog := [slot] }

/-- Two cores of which only the first may be in an operation other than `fail`. -/
theorem othersOnlyFail_two {s : State} {c d : Core} (hc : s.cores = [c, d]) (hcur : s.cur = 0)
    (hd : ∀ p ∈ d.todo, failPrim p = true) : OthersOnlyFail s := by
  intro h hh p hp
  rw [hcur] at hh
  match h with
  | 0 => exact absurd rfl hh
  | 1 => rw [show s.core 1 = d by simp [State.core, hc]] at hp; exact hd p hp
  | n + 2 => rw [show s.core (n + 2) = Core.reset by simp [State.core, hc, List.getD]] at hp; cases hp

theorem witness_othersOnlyFail : OthersOnlyFail busyOthers ∧ OthersOnlyFail State.reset :=
  ⟨othersOnlyFail_two rfl rfl (by decide), othersOnlyFail_two rfl rfl (by decide)⟩

theorem witness_ready : Ready State.reset ∧ LeadReady State.reset ∧ Ready busyOthers ∧ LeadReady busyOthers := by
  unfold LeadReady Ready; decide

theorem witness_DecoderIsTotal : (byteAt [0x01] 0).toNat ∈ [0x01, 0x02, 0x03, 0x04, 0x05, 0x06, 0x07, 0x10, 0x11, 0x20] ∧
    ∀ b ∈ ([0x00, 0x08, 0x0F, 0x12, 0x1F, 0x21, 0xFF] : List Byte),
      (byteAt [b] 0).toNat ∉ [0x01, 0x02, 0x03, 0x04, 0x05, 0x06, 0x07, 0x10, 0x11, 0x20] := by decide

theorem witness_StepRunsDecodedOperation : launchOk (programmed [0x04]) = true ∧ Ready (programmed [0x04]) ∧
    othersTurn (programmed [0x04]) = false ∧ fetch (programmed [0x04]) = some [0x04] ∧
    decode [0x04] = .ok .frameBegin := by unfold Ready; decide

theorem witness_UnknownSelectorIsRefused : (∀ b ∈ ([0x00, 0x08, 0x0F, 0x12, 0x1F, 0x21, 0xFF] : List Byte),
    launchOk (programmed [b]) = true ∧ Ready (programmed [b]) ∧ othersTurn (programmed [b]) = false ∧
      fetch (programmed [b]) = some [b] ∧
      b.toNat ∉ [0x01, 0x02, 0x03, 0x04, 0x05, 0x06, 0x07, 0x10, 0x11, 0x20]) ∧
    ∃ t, step (programmed [0x08]) = .next t ∧ (t.sched, t.txq) = ([], []) :=
  ⟨by unfold Ready; decide, next_of (by decide)⟩

theorem witness_NoOperationStartsInsideAnother : (polling.core polling.cur).fstat = .running ∧
    (polling.core polling.cur).stop = none ∧ (polling.core polling.cur).todo ≠ [] ∧ launchOk polling = true := by decide

theorem witness_OperationReturnsOrPolls : Ready busyOthers ∧
    (∃ t, exec (.txrx 0x9F) busyOthers = .next t ∧ (t.core 0).todo = []) ∧
    (∃ t, exec .rx State.reset = .next t ∧ (t.core 0).todo = [.pollRx, .readRx, .retByte]) :=
  ⟨witness_ready.2.2.1, next_of (by decide), next_of (by decide)⟩

theorem witness_PositionAdvancesByOne : Ready busyOthers ∧ OthersOnlyFail busyOthers ∧
    (∃ t, exec (.txrx 0x9F) busyOthers = .next t ∧ t.idx = 1) ∧
    (∃ t, exec (.fail 0x5 0) State.reset = .next t ∧ t.idx = 0) ∧
    (∃ t, exec (.clkdiv 1 0) State.reset = .next t ∧ t.idx = 0) ∧ ∃ t, exec .rx State.reset = .next t ∧ t.idx = 0 :=
  ⟨witness_ready.2.2.1, witness_othersOnlyFail.1, next_of (by decide), next_of (by decide), next_of (by decide),
    next_of (by decide)⟩

/-- A step that moves, and one of a machine in which core 1 and the engine have ended in a fault. -/
theorem witness_StepFrame : (∃ t, step (programmed [0x03, 0x9F]) = .next t ∧ t.wire.length = 1) ∧
    ∃ t, step { programmed [0x04] with
      engineFault := some (.rxOverflow 1)
      cores := [Core.reset, { Core.reset with stop := some (.fault (.nestedFail 1 5)) }] } = .next t ∧ t.inh = 1 :=
  ⟨next_of (by decide), next_of (by decide)⟩

/-- At the program's end on the lead core, which has returned, and on another. -/
theorem witness_ReturnedRunStays :
    (EndReturned State.reset ∧ launchOk State.reset = true ∧ AtProgramEnd State.reset ∧ State.reset.sched = []) ∧
    launchOk onCore1 = true ∧ AtProgramEnd onCore1 ∧ onCore1.cur ≠ onCore1.cfg.leadHart ∧ onCore1.sched = [] := by
  unfold EndReturned AtProgramEnd; decide

/-- Each alternative at the first value out of range. -/
theorem witness_BadConfigurationIsRefused :
    (∃ c : Config, c.rxSameRead = true ∧ c.offRxrdy ≠ c.offRxdata) ∧
    ({ Config.ref with spiBase := 1 } : Config).spiBase % 4 ≠ 0 ∧
    ({ Config.ref with offTxcnt := 3 } : Config).offTxcnt % 4 ≠ 0 ∧
    ({ Config.ref with offTxdata := 5 } : Config).offTxdata % 4 ≠ 0 ∧
    ({ Config.ref with offRxrdy := 9 } : Config).offRxrdy % 4 ≠ 0 ∧
    ({ Config.ref with offRxdata := 13 } : Config).offRxdata % 4 ≠ 0 ∧
    ({ Config.ref with offInh := 18 } : Config).offInh % 4 ≠ 0 ∧
    ({ Config.ref with gpioBase := 2 } : Config).gpioBase % 4 ≠ 0 ∧
    ({ Config.ref with gpioOffVal := 1 } : Config).gpioOffVal % 4 ≠ 0 ∧
    ({ Config.ref with gpioOffEn := 6 } : Config).gpioOffEn % 4 ≠ 0 ∧
    ({ Config.ref with gpioOffInv := 11 } : Config).gpioOffInv % 4 ≠ 0 ∧
    24 < ({ Config.ref with txByteLsb := 25 } : Config).txByteLsb ∧
    24 < ({ Config.ref with rxByteLsb := 25 } : Config).rxByteLsb ∧
    31 < ({ Config.ref with inhibitBit := 32 } : Config).inhibitBit ∧
    31 < ({ Config.ref with gpioFaultBit := 32 } : Config).gpioFaultBit ∧
    ({ Config.ref with rxrdyMask := 0 } : Config).rxrdyMask = 0 ∧
    (∃ e, 2 ^ 56 ≤ (errCode { Config.ref with errCodes := [0x0100000000000000] } e).toNat) ∧
    (∃ e e', e ≠ e' ∧ errCode { Config.ref with errCodes := [1, 1] } e = errCode { Config.ref with errCodes := [1, 1] } e') :=
  ⟨⟨{ Config.ref with rxSameRead := true }, by decide⟩, by decide, by decide, by decide, by decide, by decide, by decide,
    by decide, by decide, by decide, by decide, by decide, by decide, by decide, by decide, by decide,
    ⟨.unhandledMedium, by decide⟩, ⟨.unhandledMedium, .unhandledBootRoutine, by decide⟩⟩

theorem witness_EncoderComposesCode : Ready State.reset ∧ ((2 : Byte) ≠ 0 ∧ (2 : Byte) ≠ 1) ∧
    ((255 : Byte) ≠ 0 ∧ (255 : Byte) ≠ 1) ∧ 2 ^ 56 ≤ (0x0100000000000000 : Code).toNat ∧
    (0x00FFFFFFFFFFFFFF : Code).toNat < 2 ^ 56 ∧
    (∃ t, exec (.diagEncode 0xA 1 (-1)) State.reset = .next t ∧ t.results = [.code 0xA1FFFFFFFFFFFFFF]) ∧
    ∃ t, exec (.diagEncode 0xA 0 0x00FFFFFFFFFFFFFF) State.reset = .next t ∧ t.results = [.code 0xA0FFFFFFFFFFFFFF] :=
  ⟨witness_ready.1, by decide, by decide, by decide, by decide, next_of (by decide), next_of (by decide)⟩

theorem witness_EncoderIsPure : Ready State.reset ∧ Ready onCore1 := by unfold Ready; decide

theorem witness_LogicRoundTrip : Ready State.reset ∧ (0 : Code).toNat < 2 ^ 56 ∧
    (0x00FFFFFFFFFFFFFF : Code).toNat < 2 ^ 56 := ⟨witness_ready.1, by decide⟩

theorem witness_TrapLaw : Ready State.reset ∧ (0x8000000000000000 : Code).toInt < 0 ∧
    ¬ (0x7FFFFFFFFFFFFFFF : Code).toInt < 0 := ⟨witness_ready.1, by decide⟩

/-- The nibbles at the ends of each class. -/
theorem witness_DecoderSplitsCode : Ready State.reset ∧ (decodeCode 0xA000000000000002).trap = 0 ∧
    (decodeCode 0xA180000000000007).trap = 1 ∧ 2 ≤ (decodeCode 0x0200000000000000).trap.toNat ∧
    2 ≤ (decodeCode 0x0F00000000000000).trap.toNat := ⟨witness_ready.1, by decide⟩

theorem witness_CauseBitsDropped : Ready State.reset ∧
    (((0x0080000000000003 ^^^ 3 : Code)) &&& 0x807FFFFFFFFFFFFF) = 0 ∧
    (((0x0040000000000003 ^^^ 3 : Code)) &&& 0x807FFFFFFFFFFFFF) ≠ 0 := ⟨witness_ready.1, by decide⟩

theorem witness_CodeHasStatedLayout : Ready State.reset ∧
    (payloadOf 1 7 = .ok 7 ∧ ∃ t, exec (.diagEncode 0xA 1 7) State.reset = .next t ∧ t.results = [.code 0xA100000000000007]) ∧
    payloadOf 0 7 = .ok 7 ∧ ∃ t, exec (.diagEncode 0xA 0 7) State.reset = .next t ∧ t.results = [.code 0xA000000000000007] :=
  ⟨witness_ready.1, ⟨by decide, next_of (by decide)⟩, by decide, next_of (by decide)⟩

theorem witness_EnumerantsAreDecodable : configOk Config.ref = true ∧
    composeCode Config.ref.bootstage 0 (errCode Config.ref .sdAcmd41) = .ok 0xA000000000000007 ∧
    (decodeCode 0xA000000000000007).payload.toNat = (errCode Config.ref .sdAcmd41).toNat := by decide

/-- `input + 2 * target - 1` at 2^32 - 1 and one above. -/
theorem witness_ClkdivIsTheFormula : Ready State.reset ∧
    2 ^ 32 - 1 < (4294967295 : Word).toNat + 2 * (1 : Word).toNat - 1 ∧
    ((1 : Word) ≠ 0 ∧ (4294967294 : Word).toNat + 2 * (1 : Word).toNat - 1 ≤ 2 ^ 32 - 1) ∧
    ((0x7FFFFFFF : Word) ≠ 0 ∧ (0 : Word).toNat + 2 * (0x7FFFFFFF : Word).toNat - 1 ≤ 2 ^ 32 - 1) :=
  ⟨witness_ready.1, by decide⟩

theorem witness_ClkdivIsSmallest : Ready State.reset ∧ 0 < (33000 : Word).toNat ∧ 0 < (10000 : Word).toNat ∧
    (33000 : Word).toNat + 2 * (10000 : Word).toNat - 1 ≤ 2 ^ 32 - 1 ∧
    (∃ t, exec (.clkdiv 33000 10000) State.reset = .next t ∧ t.results = [.divisor 1]) ∧
    ((33000 : Word).toNat : ℚ) / (2 * ((1 : ℚ) + 1)) ≤ ((10000 : Word).toNat : ℚ) :=
  ⟨witness_ready.1, by decide, by decide, by decide, next_of (by decide), by
    rw [show (33000 : Word).toNat = 33000 from rfl, show (10000 : Word).toNat = 10000 from rfl]; norm_num⟩

/-- `input = 2 * target`, and the largest targets with input 0. -/
theorem witness_ClkdivCorners : Ready State.reset ∧ (0 < (2 : Word).toNat ∧ 0 < (1 : Word).toNat ∧
    (2 : Word).toNat + 2 * (1 : Word).toNat - 1 ≤ 2 ^ 32 - 1 ∧ (2 : Word).toNat ≤ 2 * (1 : Word).toNat) ∧
    (0 < (2147483648 : Word).toNat ∧ 2 * (2147483648 : Word).toNat - 1 ≤ 2 ^ 32 - 1) ∧
    ∃ t, exec (.clkdiv 0xFFFFFFFE 1) State.reset = .next t ∧ t.results = [.divisor 0x7FFFFFFE] :=
  ⟨witness_ready.1, by decide, by decide, next_of (by decide)⟩

/-- 14 bytes queued: the largest occupancy at which the poll is satisfied. -/
def nearlyFull : State := { State.reset with txq := List.replicate 14 0 }

theorem witness_TxSendsByte : LeadReady nearlyFull ∧ Alone nearlyFull ∧ nearlyFull.cfg.txByteLsb ≤ 24 ∧
    (nearlyFull.cfg.txcntFn.getD nearlyFull.txq.length 0xFF).toNat < 0x0F ∧
    nearlyFull.txq.length < nearlyFull.cfg.txDepth := by unfold LeadReady Ready Alone; decide

/-- One read in vain at 0x0F and one at 0xFF, and then 0x0E. -/
theorem witness_TxPollsThenSends : LeadReady (generic [0x0F000000, 0xFF000000, 0x0EFFFFFF]) ∧
    GenericDraws (generic [0x0F000000, 0xFF000000, 0x0EFFFFFF]) ([0x0F000000, 0xFF000000] ++ 0x0EFFFFFF :: []) ∧
    (∀ v ∈ ([0x0F000000, 0xFF000000] : List Word), 0x0F ≤ (v >>> 24).toNat) ∧
    ((0x0EFFFFFF : Word) >>> 24).toNat < 0x0F :=
  ⟨by unfold LeadReady Ready; decide, ⟨rfl, rfl, rfl⟩, by simp, by decide⟩

theorem witness_TxStillPollsWhileNearlyFull : LeadReady (generic [0x0F000000]) ∧
    GenericDraws (generic [0x0F000000]) [0x0F000000] ∧ ∀ v ∈ ([0x0F000000] : List Word), 0x0F ≤ (v >>> 24).toNat :=
  ⟨by unfold LeadReady Ready; decide, ⟨rfl, rfl, rfl⟩, by simp⟩

/-- 15 bytes queued and a wedged engine. -/
def wedged : State := { State.reset with txq := List.replicate 15 0, engineLive := false }

theorem witness_TxOnWedgedFifoNeverReturns : launchOk wedged = true ∧ LeadReady wedged ∧ Alone wedged ∧
    wedged.engineLive = false ∧ 0x0F ≤ (wedged.cfg.txcntFn.getD wedged.txq.length 0xFF).toNat := by
  unfold LeadReady Ready Alone; decide

/-- With a separate RXDATA read, and with the byte in the ready read. -/
theorem witness_RxReturnsOldestByte : ∀ c ∈ [Config.ref,
      { Config.ref with rxSameRead := true, offRxrdy := 0x0C, rxrdyMask := 0x80000000 }],
    let s : State := { State.reset with cfg := c, rxq := [0x5A, 0x11] }
    LeadReady s ∧ Alone s ∧ fieldsOk s.cfg = true ∧ sameReadOk s.cfg = true ∧ s.rxq = [0x5A, 0x11] := by
  unfold LeadReady Ready Alone; decide

theorem witness_RxPollsThenReturnsByte : LeadReady (generic [2, 0xFFFFFFFF, 0xFFFFFF3C]) ∧
    (∀ v ∈ ([2] : List Word), (v &&& Config.ref.rxrdyMask) = 0) ∧ ((0xFFFFFFFF : Word) &&& Config.ref.rxrdyMask) ≠ 0 ∧
    GenericDraws (generic [2, 0xFFFFFFFF, 0xFFFFFF3C]) ([2] ++ 0xFFFFFFFF :: 0xFFFFFF3C :: []) ∧
    (generic []).cfg.rxSameRead = false :=
  ⟨by unfold LeadReady Ready; decide, by simp [Config.ref], by decide, ⟨rfl, rfl, rfl⟩, rfl⟩

/-- The generic interface with the byte in the ready read. -/
def genericSame (ws : List Word) : State :=
  { generic ws with
    cfg := { Config.ref with iface := .generic, rxSameRead := true, offRxrdy := 0x0C, rxrdyMask := 0x80000000 } }

theorem witness_RxPollsThenReturnsByte_same : LeadReady (genericSame [0, 0x8000005A]) ∧
    (genericSame []).cfg.rxSameRead = true ∧ ((0 : Word) &&& 0x80000000) = 0 ∧ ((0x8000005A : Word) &&& 0x80000000) ≠ 0 ∧
    GenericDraws (genericSame [0, 0x8000005A]) ([0] ++ 0x8000005A :: []) :=
  ⟨by unfold LeadReady Ready; decide, rfl, by decide, by decide, ⟨rfl, rfl, rfl⟩⟩

theorem witness_RxOnEmptyFifosNeverReturns : launchOk busyOthers = true ∧ LeadReady busyOthers ∧
    OthersOnlyFail busyOthers ∧ busyOthers.cfg.iface = .reference ∧ busyOthers.txq = [] ∧ busyOthers.rxq = [] ∧
    (∃ t, exec .rx busyOthers = .next t ∧ t.idx = 0) ∧ LeadReady State.reset ∧ State.reset.sched = [] :=
  ⟨by decide, witness_ready.2.2.2, witness_othersOnlyFail.1, rfl, rfl, rfl, next_of (by decide), witness_ready.2.1, rfl⟩

/-- FIFOs of one byte. -/
def shallow : State :=
  { device [0xEF] with cfg := { Config.ref with txDepth := 1, rxDepth := 1, txcntFn := [0, 0x0F] } }

theorem witness_TxrxExchangesByte : LeadReady shallow ∧ AloneLive shallow ∧ fieldsOk shallow.cfg = true ∧
    shallow.txq = [] ∧ shallow.rxq = [] ∧ (shallow.cfg.txcntFn.getD 0 0xFF).toNat < 0x0F ∧ 0 < shallow.cfg.txDepth ∧
    0 < shallow.cfg.rxDepth := by unfold LeadReady Ready AloneLive Alone; decide

theorem witness_TxrxHasOneByteInFlight : LeadReady busyOthers ∧ OthersOnlyFail busyOthers ∧
    busyOthers.cfg.iface = .reference ∧ busyOthers.cfg.txByteLsb ≤ 24 ∧ busyOthers.txq = [] ∧ busyOthers.rxq = [] ∧
    (∃ t, exec (.txrx 0x9F) busyOthers = .next t ∧ t.idx = busyOthers.idx + 1) ∧ 0 < busyOthers.cfg.txDepth ∧
    0 < busyOthers.cfg.rxDepth :=
  ⟨witness_ready.2.2.2, witness_othersOnlyFail.1, rfl, by decide, rfl, rfl, next_of (by decide), by decide, by decide⟩

theorem witness_NoTxOverflowNoRxUnderflow : Ready busyOthers ∧ OthersOnlyFail busyOthers ∧
    busyOthers.cfg.iface = .reference ∧ busyOthers.txq.length ≤ busyOthers.cfg.txDepth ∧ TxcntLaw busyOthers.cfg ∧
    ∃ t, exec (.txrx 0x9F) busyOthers = .next t ∧ t.idx = 1 :=
  ⟨witness_ready.2.2.1, witness_othersOnlyFail.1, rfl, by decide, by unfold TxcntLaw; decide, next_of (by decide)⟩

/-- `rxq` full, and one byte below; and an engine that has faulted. -/
theorem witness_EngineTurnExchangesHead : (∀ n ∈ [15, 16],
    let s : State := { State.reset with txq := [1], rxq := List.replicate n 0, sched := [.engine] }
    launchOk s = true ∧ (s.core s.cur).todo = [] ∧ s.cfg.iface = .reference ∧ s.engineFault = none ∧
      (s.rxq.length = s.cfg.rxDepth ↔ n = 16)) ∧
    let s : State := { State.reset with txq := [1], sched := [.engine], engineFault := some (.rxOverflow 2) }
    launchOk s = true ∧ (s.core s.cur).todo = [] ∧ s.cfg.iface = .reference ∧ s.engineFault ≠ none := by
  decide

/-- Both interfaces, with and without an earlier INH write. -/
theorem witness_FrameOperationsWriteInhibit : LeadReady State.reset ∧ State.reset.sched = [] ∧
    State.reset.cfg.iface = .reference ∧ LeadReady (generic []) ∧ (generic []).cfg.iface = .generic ∧
    lastWritten 0x10 (generic []).hist = none ∧ lastWritten 0x10 [.ioW 0 0x10 7, .ioR 0 0x10 7] = some 7 := by
  unfold LeadReady Ready; decide

theorem witness_FrameReadsBackLastWrite : LeadReady State.reset ∧ State.reset.sched = [] ∧ LeadReady (generic [5]) := by
  unfold LeadReady Ready; decide

/-- The last byte of memory, and no byte. -/
theorem witness_CopyReadsFlash : LeadReady shallow ∧ AloneLive shallow ∧ fieldsOk shallow.cfg = true ∧
    shallow.txq = [] ∧ shallow.rxq = [] ∧ (shallow.cfg.txcntFn.getD 0 0xFF).toNat < 0x0F ∧ 0 < shallow.cfg.txDepth ∧
    0 < shallow.cfg.rxDepth ∧ CopyRange shallow.cfg 0xFFFFFFFF 1 ∧ CopyRange shallow.cfg 0x10000000 0 := by
  unfold LeadReady Ready AloneLive Alone CopyRange; decide

theorem witness_CopyFrameInAnySchedule : LeadReady busyOthers ∧ OthersOnlyFail busyOthers ∧
    busyOthers.cfg.iface = .reference ∧ fieldsOk busyOthers.cfg = true ∧ busyOthers.txq = [] ∧ busyOthers.rxq = [] ∧
    CopyRange busyOthers.cfg 0x80000000 1 ∧
    ∃ t, exec (.copy 0x80000000 0x123456 1) busyOthers = .next t ∧ t.idx = busyOthers.idx + 1 :=
  ⟨witness_ready.2.2.2, witness_othersOnlyFail.1, rfl, by decide, rfl, rfl, by unfold CopyRange; decide,
    next_of (by decide)⟩

/-- Four command bytes and one data byte, each poll satisfied at its first read, after an INH write and before any; and with
the byte in the ready read. -/
theorem witness_CopyStoresDrawnBytes :
    let r : Word × Word × Word := (0x0EFFFFFF, 0xFFFFFFFF, 0xFFFFFF3C)
    let s : State := { generic ((List.replicate 5 [r.1, r.2.1, r.2.2]).flatten) with hist := [.ioW 0 0x10 4] }
    let s' : State := genericSame (4 :: (List.replicate 5 [r.1, r.2.1]).flatten)
    (LeadReady s ∧ LeadReady s') ∧ lastWritten 0x10 s.hist = some 4 ∧ lastWritten 0x10 s'.hist = none ∧
      GenericDraws s ([] ++ (List.replicate 5 r).flatMap (fun r => [r.1, r.2.1, r.2.2]) ++ []) ∧
      GenericDraws s' ([4] ++ (List.replicate 5 r).flatMap (fun r => [r.1, r.2.1]) ++ []) ∧
      (List.replicate 5 r).length = 4 + (1 : Word).toNat ∧ (r.1 >>> 24).toNat < 0x0F ∧
      (r.2.1 &&& s.cfg.rxrdyMask) ≠ 0 ∧ (r.2.1 &&& s'.cfg.rxrdyMask) ≠ 0 ∧ CopyRange s.cfg 0x80000000 1 :=
  ⟨by unfold LeadReady Ready; decide, by decide, by decide, ⟨rfl, rfl, rfl⟩, ⟨rfl, rfl, rfl⟩, by decide, by decide,
    by decide, by decide, by unfold CopyRange; decide⟩

/-- One byte past the end of memory; the controller's first byte, and the GPIO block's last. -/
theorem witness_CopyIsRefusedBeforeAnyAccess : (Ready onCore1 ∧ onCore1.cur ≠ onCore1.cfg.leadHart) ∧
    (Ready State.reset ∧ State.reset.cur = State.reset.cfg.leadHart) ∧
    2 ^ 32 < (0xFFFFFFFF : Word).toNat + (2 : Word).toNat ∧
    ((0x0FFFFFFF : Word).toNat + (2 : Word).toNat ≤ 2 ^ 32 ∧
      (0x0FFFFFFF : Word).toNat ≤ 0x10000000 ∧ 0x10000000 < (0x0FFFFFFF : Word).toNat + (2 : Word).toNat ∧
      Config.ref.spiBase ≤ 0x10000000 ∧ 0x10000000 < Config.ref.spiBase + Config.ref.spiBytes) ∧
    ((0x10001FFF : Word).toNat + (1 : Word).toNat ≤ 2 ^ 32 ∧
      Config.ref.gpioBase ≤ 0x10001FFF ∧ 0x10001FFF < Config.ref.gpioBase + Config.ref.gpioBytes) :=
  ⟨by unfold Ready; decide, by unfold Ready; decide, by decide, by decide, by decide⟩

theorem witness_FailOnLeadReportsAndHalts : LeadReady State.reset ∧ State.reset.sched = [] ∧
    ((1 : Byte) = 1) ∧ ((0 : Byte) = 0 ∧ (0x00FFFFFFFFFFFFFF : Code).toNat < 2 ^ 56) := ⟨witness_ready.2.1, by decide⟩

theorem witness_FailOnOtherCoreOnlySignals : Ready onCore1 ∧ onCore1.cur ≠ onCore1.cfg.leadHart ∧
    onCore1.sched = [] := by unfold Ready; decide

theorem witness_FailRefusedOrNested : LeadReady State.reset ∧ ((2 : Byte) ≠ 0 ∧ (2 : Byte) ≠ 1) ∧
    2 ^ 56 ≤ (0x0100000000000000 : Code).toNat ∧ (halted.core halted.cur).fstat ≠ .running ∧
    (halted.core halted.cur).stop = none := ⟨witness_ready.2.1, by decide⟩

theorem witness_Acmd41EndToEnd : LeadReady State.reset ∧ State.reset.sched = [] ∧ configOk State.reset.cfg = true :=
  ⟨witness_ready.2.1, by decide⟩

/-- REF with core 1 halted, or with its run ended in a fault. -/
def core1Is (c : Core) : State := { State.reset with cores := [Core.reset, c] }

/-- Traps: each core running, core 0 halted, core 1 ended in a fault. Calls: core 1 idle, halted, inside `fail`'s plan, and the
lead core. -/
theorem witness_TrapOrCallEntersFailPath : (∀ h ∈ [0, 1], let s : State := { State.reset with sched := [.trap h 3] }
    launchOk s = true ∧ (s.core s.cur).todo = [] ∧ s.sched = .trap h 3 :: [] ∧ h < s.cores.length ∧
      (s.core h).stop = none ∧ (s.core h).fstat = .running ∧ (s.core h).todo = []) ∧
    (let s : State := { halted with sched := [.trap 0 3] }
     launchOk s = true ∧ (s.core s.cur).todo = [] ∧ s.sched = .trap 0 3 :: [] ∧ 0 < s.cores.length ∧
      (s.core 0).stop = none ∧ (s.core 0).fstat ≠ .running) ∧
    (let s : State := core1Is { Core.reset with stop := some (.fault .rxUnderflow) }
     launchOk s = true ∧ (s.core 1).stop ≠ none) ∧
    (let s : State := { core1Is { Core.reset with fstat := .halted none } with sched := [.call 1 5 0] }
     launchOk s = true ∧ (s.core s.cur).todo = [] ∧ 1 ≠ s.cfg.leadHart ∧ (s.core 1).stop = none ∧
      (s.core 1).fstat ≠ .running) ∧
    (let s : State := core1Is { Core.reset with todo := [.halt] }
     launchOk s = true ∧ (s.core s.cur).todo = [] ∧ (s.core 1).fstat = .running ∧ (s.core 1).todo ≠ []) := by decide

theorem witness_TrapAbandonsOperation : let s : State := { polling with sched := [.trap 0 0x8000000000000007] }
    launchOk s = true ∧ s.cur = s.cfg.leadHart ∧ (s.core s.cur).fstat = .running ∧ (s.core s.cur).stop = none ∧
      (s.core s.cur).todo ≠ [] ∧ s.sched = [.trap s.cur 0x8000000000000007] := by decide

/-- REF with core 0 ended in this. -/
def ended (x : Stop) : State := { State.reset with cores := [{ Core.reset with stop := some x }, Core.reset] }

theorem witness_HaltedAtRest : HaltedAtRest halted ∧ HaltedAtRest { halted with prog := [[0x02]], sched := [.core 0] } ∧
    ∀ x, HaltedAtRest (ended x) := by
  refine ⟨?_, ?_, fun x => ?_⟩ <;> (intro c hc _; simp [halted, ended, Core.reset] at hc; rcases hc with rfl | rfl <;> rfl)

theorem witness_HaltedCoreDoesNothing : HaltedAtRest halted ∧ halted.cur < halted.cores.length ∧
    (halted.core halted.cur).fstat = .halted (some 7) ∧ (halted.core halted.cur).stop = none ∧
    (∀ c f, Instr.rx ≠ .fail c f) ∧ launchOk halted = true ∧ AtRest halted ∧
    (HaltedAtRest { halted with prog := [[0x02]], sched := [.core 0] } ∧
      launchOk { halted with prog := [[0x02]], sched := [.core 0] } = true) ∧
    (∀ x ∈ [Stop.fault .rxUnderflow, .refused .dstWrap], HaltedAtRest (ended x) ∧
      ((ended x).core (ended x).cur).stop = some x ∧ launchOk (ended x) = true ∧ AtRest (ended x)) :=
  ⟨witness_HaltedAtRest.1, by decide, by decide, by decide, by simp, by decide, by unfold AtRest; decide,
    ⟨witness_HaltedAtRest.2.1, by decide⟩,
    fun x hx => ⟨witness_HaltedAtRest.2.2 x, by revert x; decide, by revert x; decide, by revert x; unfold AtRest; decide⟩⟩

/-- Each of the six operations. -/
theorem witness_ForeignAccessFaults : Ready onCore1 ∧ onCore1.cur ≠ onCore1.cfg.leadHart ∧
    ∀ i ∈ [Instr.tx 0, .rx, .txrx 0, .frameBegin, .frameEnd, .copy 0 0 0],
      stopOf (exec i onCore1) = some (.fault (.foreignAccess 1 (some i))) := by unfold Ready; decide

/-- A halted core over a step, and a failing one that halts in it, each inside its `fail`. -/
theorem witness_FailStatusNeverGoesBack : (halted.core 0).fstat = .halted (some 7) ∧
    (∃ t, step halted = .next t ∧ (t.core 0).fstat = .halted (some 7)) ∧
    (let s : State := { State.reset with cores := [
      { Core.reset with fstat := .failing (some 0xA000000000000007), op := some (.fail 7 0), todo := [.halt] },
      { Core.reset with fstat := .halted none, op := some (.fail 9 1) }] }
     FailStatusFits s ∧ (s.core 0).fstat = .failing (some 0xA000000000000007) ∧
       ∃ t, step s = .next t ∧ (t.core 0).fstat = .halted (some 0xA000000000000007)) := by
  refine ⟨by decide, next_of (by decide), fun h => ?_, by decide, next_of (by decide)⟩
  match h with
  | 0 => exact ⟨by decide, 7, 0, rfl, fun _ => ⟨_, rfl, by decide⟩, fun h => absurd rfl h⟩
  | 1 => exact ⟨by decide, 9, 1, rfl, by decide, fun _ => rfl⟩
  | _ + 2 => exact fun p hp => by cases hp

theorem witness_HaltedAtRestIsKept : HaltedAtRest halted ∧ (∃ t, step halted = .next t ∧ t.idx = 0) ∧
    ∃ t, step { ended (.fault .rxUnderflow) with sched := [.engine] } = .next t ∧
      (t.core 0).stop = some (.fault .rxUnderflow) := ⟨witness_HaltedAtRest.1, next_of (by decide), next_of (by decide)⟩

/-- Core 1 goes on with its `fail` while the executing core does nothing. -/
theorem witness_OthersOnlyFailIsKept : OthersOnlyFail busyOthers ∧
    ∃ t, step busyOthers = .next t ∧ (t.core 1).todo = [.gpio .en, .gpio .inv, .halt] :=
  ⟨witness_othersOnlyFail.1, next_of (by decide)⟩

/-- Two cores of which the second has no console event to hand over. -/
theorem onlyLeadReports_two {s : State} {c d : Core} (hc : s.cores = [c, d]) (hl : s.cfg.leadHart = 0)
    (hd : ∀ p ∈ d.todo, isCon p = false) : OnlyLeadReports s := by
  intro h hh p hp
  rw [hl] at hh
  match h with
  | 0 => exact absurd rfl hh
  | 1 => rw [show s.core 1 = d by simp [State.core, hc]] at hp; exact hd p hp
  | n + 2 => rw [show s.core (n + 2) = Core.reset by simp [State.core, hc, List.getD]] at hp; cases hp

/-- One step that touches the controller, the FIFOs and memory. -/
theorem witness_invariants : (∀ e ∈ (programmed [0x06, 0, 0, 0, 0x80, 0, 0, 0, 0, 1, 0, 0, 0]).hist,
      foreignEvent Config.ref e = false) ∧
    OnlyLeadReports (programmed [0x06, 0, 0, 0, 0x80, 0, 0, 0, 0, 1, 0, 0, 0]) ∧
    Memory.wf (programmed [0x06, 0, 0, 0, 0x80, 0, 0, 0, 0, 1, 0, 0, 0]).mem = true ∧
    FifosWithinDepth (programmed [0x06, 0, 0, 0, 0x80, 0, 0, 0, 0, 1, 0, 0, 0]) ∧
    ∃ t, step (programmed [0x06, 0, 0, 0, 0x80, 0, 0, 0, 0, 1, 0, 0, 0]) = .next t ∧ (t.wire.length, t.mem.length) = (5, 1) :=
  ⟨by decide, onlyLeadReports_two rfl rfl (by decide), by decide, by unfold FifosWithinDepth; decide, next_of (by decide)⟩

/-- A failing step, with the fault bit set before it. -/
theorem witness_GpioOtherBitsKept : (∃ t, step (programmed [0x20, 5, 0, 0, 0, 0, 0, 0, 0, 0]) = .next t ∧ t.gpioInv = 0x20) ∧
    ({ State.reset with gpioVal := 0x20 } : State).gpioVal.getLsbD Config.ref.gpioFaultBit = true :=
  ⟨next_of (by decide), by decide⟩

theorem witness_FaultIndicatorCountsFailures : (∃ t, step (programmed [0x20, 5, 0, 0, 0, 0, 0, 0, 0, 0]) = .next t ∧
      invertCount Config.ref t.hist = 1) ∧ Config.ref.gpioInvertOp = .xor ∧
    ({ Config.ref with gpioInvertOp := .or } : Config).gpioInvertOp = .or := ⟨next_of (by decide), by decide⟩

theorem witness_InhOtherBitsKept : Ready busyOthers ∧ OthersOnlyFail busyOthers ∧
    (∃ t, exec .frameBegin busyOthers = .next t ∧ t.inh = 1) ∧ ∃ t, exec (.tx 1) busyOthers = .next t ∧ t.inh = 0 :=
  ⟨witness_ready.2.2.1, witness_othersOnlyFail.1, next_of (by decide), next_of (by decide)⟩

/-- REF inside a `copy` that an earlier step left in a poll, with the byte arrived. -/
def inCopy : State :=
  { State.reset with
    rxq := [0x3C]
    cores := [{ Core.reset with
      op := some (.copy 0x80000000 0 1)
      todo := [.pollRx, .readRx, .store 0x80000000, .copyBytes 0x80000001 0, .readInh, .writeInh false, .ret .ok] },
      Core.reset] }

/-- A `copy` that goes on: it writes INH and memory, inside its range. -/
theorem witness_resumed_copy : OthersOnlyFail inCopy ∧ TodoFits inCopy ∧ currentOp inCopy = some (.copy 0x80000000 0 1) ∧
    copyWrites (currentOp inCopy) 0x80000000 ∧ ∃ t, step inCopy = .next t ∧ (t.mem, t.idx) = ([(0x80000000, 0x3C)], 1) := by
  have hc : currentOp inCopy = some (.copy 0x80000000 0 1) := by decide
  have hw : copyWrites (some (.copy 0x80000000 0 1)) 0x80000000 := ⟨_, _, _, rfl, by decide, by decide⟩
  refine ⟨othersOnlyFail_two rfl rfl (by decide), ⟨?_, fun _ => trivial⟩, hc, hc ▸ hw, next_of (by decide)⟩
  intro p hp
  change p ∈ [Prim.pollRx, .readRx, .store 0x80000000, .copyBytes 0x80000001 0, .readInh, .writeInh false, .ret .ok] at hp
  simp only [List.mem_cons, List.not_mem_nil, or_false] at hp
  rcases hp with rfl | rfl | rfl | rfl | rfl | rfl | rfl
  · trivial
  · trivial
  · exact hw
  · exact ⟨rfl, fun k hk => absurd hk (Nat.not_lt_zero k)⟩
  · exact (rfl : framesInh (some (.copy 0x80000000 0 1)) = true)
  · exact (rfl : framesInh (some (.copy 0x80000000 0 1)) = true)
  · trivial

/-- Inside the range, and just below and above it. -/
theorem witness_OnlyCopyWritesMemory : Ready busyOthers ∧ OthersOnlyFail busyOthers ∧
    ∃ t, exec (.copy 0x80000000 0 1) busyOthers = .next t ∧
      (readMem t.mem 0x7FFFFFFF, readMem t.mem 0x80000000, readMem t.mem 0x80000001) = (none, some 4, none) :=
  ⟨witness_ready.2.2.1, witness_othersOnlyFail.1, next_of (by decide)⟩

theorem witness_FailAndEncoderLeaveController : let s : State := { busyOthers with sched := [.core 1, .core 0, .core 1] }
    Ready s ∧ OthersOnlyFail s ∧ (∀ u ∈ s.sched, u ≠ .engine) ∧
      (∃ t, exec (.fail 5 0) s = .next t ∧ t.txq = []) ∧ ∃ t, exec (.clkdiv 100 1) s = .next t ∧ t.idx = 1 :=
  ⟨by unfold Ready; decide, othersOnlyFail_two rfl rfl (by decide), by decide, next_of (by decide), next_of (by decide)⟩

end Sys2Proof.Tests
end

section
/-! PROOFS. The statements of spec/00_scope.md: what no step changes (R6, R25, R34, R41), that the other cores only fail (R13),
and how a listed turn of the trap source or of another core enters the fail path (R13, R150, R152). -/

namespace Sys2Proof.Proofs

open Sys2Proof Sys2Proof.Machine Sys2Proof.Laws

/-! ## The other cores only fail -/

/-- R13: turns, issues, entries of `fail`, returns and the ends of runs keep that the other cores only fail. The one case with
content is a turn, in which another core may enter `fail` (`othersOnlyFail_turn`). -/
theorem othersOnlyFail_kept : Kept OthersOnlyFail where
  turn s t ts _ ho :=
    othersOnlyFail_turn (u := { s with sched := ts }) ho (turn_queues t { s with sched := ts }).2.2.1 (turn_cores t _)
  issue _ _ _ ho _ _ _ _ _ := othersOnlyFail_issue ho _
  fail s c f ho _ := by
    obtain ⟨k, e, _⟩ := enterFail_entry s.cur c f s
    rw [e]
    exact othersOnlyFail_issue ho k
  retire _ _ ho := ho
  stop _ _ ho _ := othersOnlyFail_issue ho _
  sched _ _ _ ho := ho

/-- Settles O52: `othersOnlyFail_kept`, over a step. -/
theorem othersOnlyFailIsKept : Obligations.OthersOnlyFailIsKept :=
  fun _ _ ho h => othersOnlyFail_kept.step ho h

/-! ## What no step changes, and what only grows -/

/-- R6, R13, R16, R25, R34, R41: `t` may come after `s`, as far as the cores' marks and the listed turns do not say: the
parameters and the machine's other constants stay, a fault of the engine is not cleared, the records only grow, the position does
not go back, and draws and answers are taken from the front. -/
structure Frame (s t : State) : Prop where
  cfg : t.cfg = s.cfg
  ncores : t.cores.length = s.cores.length
  cur : t.cur = s.cur
  prog : t.prog = s.prog
  otherRegs : t.otherRegs = s.otherRegs
  engineLive : t.engineLive = s.engineLive
  engineFault : ∀ r, s.engineFault = some r → t.engineFault = some r
  hist : s.hist <+: t.hist
  wire : s.wire <+: t.wire
  console : s.console <+: t.console
  results : s.results <+: t.results
  idx : s.idx ≤ t.idx
  draws : t.draws <:+ s.draws
  miso : t.miso <:+ s.miso

theorem Frame.refl (s : State) : Frame s s := by
  constructor <;> simp

theorem Frame.trans {s t u : State} (a : Frame s t) (b : Frame t u) : Frame s u where
  cfg := b.cfg.trans a.cfg
  ncores := b.ncores.trans a.ncores
  cur := b.cur.trans a.cur
  prog := b.prog.trans a.prog
  otherRegs := b.otherRegs.trans a.otherRegs
  engineLive := b.engineLive.trans a.engineLive
  engineFault r h := b.engineFault r (a.engineFault r h)
  hist := a.hist.trans b.hist
  wire := a.wire.trans b.wire
  console := a.console.trans b.console
  results := a.results.trans b.results
  idx := a.idx.trans b.idx
  draws := b.draws.trans a.draws
  miso := b.miso.trans a.miso

/-- R41: an event more. -/
theorem frame_record (s : State) (e : Event) : Frame s (s.record e) := by
  constructor <;> simp

/-- R24, R32: a draw taken, and the event of the read. -/
theorem frame_drawn_record (s : State) (e : Event) : Frame s (s.drawn.record e) := by
  constructor <;> simp [drawn_draws, List.tail_suffix]

theorem frame_readTxcnt (h : Nat) (s : State) : Frame s (readTxcnt h s).2 := by
  obtain ⟨w, e, _⟩ := readTxcnt_state h s
  rw [e]
  exact frame_drawn_record s _

theorem frame_readRxrdy (h : Nat) (s : State) : Frame s (readRxrdy h s).2.2 := by
  obtain ⟨w, e | ⟨_, q, _, _, _, _, _, e⟩⟩ := readRxrdy_state h s <;> rw [e]
  · exact frame_drawn_record s _
  · exact { frame_drawn_record s _ with }

theorem frame_readRxdata {h : Nat} {s : State} {r : Byte × State} (hr : readRxdata h s = some r) : Frame s r.2 := by
  obtain ⟨w, e | ⟨q, _, _, e⟩⟩ := readRxdata_state hr <;> rw [e]
  · exact frame_drawn_record s _
  · exact { frame_drawn_record s _ with }

theorem frame_readInhWord (h : Nat) (s : State) : Frame s (readInhWord h s).2 := by
  rcases readInhWord_state h s with e | e <;> rw [e]
  · exact frame_record s _
  · exact frame_drawn_record s _

theorem frame_writeTxdata {h : Nat} {b : Byte} {s s' : State} (hw : writeTxdata h b s = some s') : Frame s s' := by
  rcases writeTxdata_state hw with e | ⟨_, _, e⟩ <;> rw [e] <;> exact { frame_record s _ with }

theorem frame_writeInhWord (h : Nat) (w : Word) (s : State) : Frame s (writeInhWord h w s) := by
  rcases writeInhWord_state h w s with e | ⟨_, e⟩ <;> rw [e] <;> exact { frame_record s _ with }

/-- R31, R145: an exchange makes the wire and the history longer and takes an answer; a faulted engine makes none. -/
theorem frame_engineStep (s : State) : Frame s (engineStep s) := by
  rcases engineStep_state s with ⟨e, _⟩ | ⟨b, q, rx, f, _, hf, _, _, e⟩ <;> rw [e]
  · exact Frame.refl s
  · constructor <;> simp [hf, List.tail_suffix]

theorem frame_gpioAmo (h : Nat) (r : GpioReg) (s : State) : Frame s (gpioAmo h r s) := by
  constructor <;> simp [gpioAmo]

/-- Every shared operation keeps what is `Frame` to a state before it. -/
theorem frame_closed (s : State) : Closed (Frame s) where
  sched _ _ f := { f with }
  readTxcnt h u _ f := f.trans (frame_readTxcnt h u)
  readRxrdy h u _ f := f.trans (frame_readRxrdy h u)
  readRxdata _ _ _ _ hr f := f.trans (frame_readRxdata hr)
  readInh h u _ f := f.trans (frame_readInhWord h u)
  writeTxdata _ _ _ _ _ hw f := f.trans (frame_writeTxdata hw)
  writeInh h w u _ f := f.trans (frame_writeInhWord h w u)
  engine u f := f.trans (frame_engineStep u)
  store h a b u f := f.trans { frame_record u (.mem h a b) with }
  console h e u f := f.trans { frame_record u (.con h e) with console := ⟨_, rfl⟩ }
  gpio h r u f := f.trans (frame_gpioAmo h r u)
  retire u _ f := f.trans { Frame.refl u with results := ⟨_, rfl⟩, idx := Nat.le_succ _ }
  core u _ _ f := f.trans { Frame.refl u with ncores := List.length_set }

/-- R145, R146: every core of the first state whose run has ended has ended in the second one, too, and the turns listed in the
second one are the last of those in the first. -/
structure MarksAndTurns (s t : State) : Prop where
  stop : ∀ h, (s.core h).stop ≠ none → (t.core h).stop ≠ none
  sched : t.sched <:+ s.sched

/-- A core's replacement keeps the marks where that core's run had not ended. -/
theorem MarksAndTurns.setCore {s u : State} (m : MarksAndTurns s u) {h : Nat} (c : Core) (hn : (u.core h).stop = none) :
    MarksAndTurns s (u.setCore h c) where
  stop k hk := by
    rcases core_setCore_cases u h k c with ⟨_, rfl, _⟩ | e
    · exact absurd hn (m.stop k hk)
    · rw [e]; exact m.stop k hk
  sched := m.sched

/-- R13, R145, R146: every turn, issue and end of a run keeps the marks, and none lists a turn. -/
theorem marksAndTurns_kept (s : State) : Kept (MarksAndTurns s) where
  turn u t ts hts m :=
    { stop := fun h hh => (turn_cores t { u with sched := ts }).stop (m.stop h hh)
      sched := by rw [(turn_queues t { u with sched := ts }).1]; exact hts.trans m.sched }
  issue _ _ _ m _ _ _ hn _ := m.setCore _ hn
  fail u c f m hn := by
    obtain ⟨k, e, _⟩ := enterFail_entry u.cur c f u
    rw [e]
    exact m.setCore k hn
  retire _ _ m := ⟨m.stop, m.sched⟩
  stop _ _ m hn := m.setCore _ hn
  sched _ _ hts m := ⟨m.stop, hts.trans m.sched⟩

/-- Settles O9: `Frame` for the data and the records, `MarksAndTurns` for the cores' marks and the list of turns, both over a
step. -/
theorem stepFrame : Obligations.StepFrame := by
  intro s t h
  have f : Frame s t := (frame_closed s).step (.refl s) h
  have m : MarksAndTurns s t := (marksAndTurns_kept s).step ⟨fun _ => id, List.suffix_refl _⟩ h
  exact ⟨f.cfg, f.ncores, f.cur, f.prog, f.otherRegs, f.engineLive, f.engineFault, m.stop, f.hist, f.wire, f.console,
    f.results, f.idx, f.draws, f.miso, m.sched⟩

/-! ## The code by shifts -/

/-- A bit of the mask of bits 54 to 0 (R121). -/
theorem getLsbD_causeMask (i : Nat) : (0x007FFFFFFFFFFFFF : Code).getLsbD i = decide (i < 55) := by
  change (BitVec.ofNat 64 (2 ^ 55 - 1)).getLsbD i = _
  rw [BitVec.getLsbD_ofNat, Nat.testBit_two_pow_sub_one]
  simp; omega

/-- R121: the payload of a trap is the compressed cause by shifts: bits 54 to 0 of the cause, and its bit 63 above them. -/
theorem trapPayload_eq_shifts (c : Code) : (trapPayload c).setWidth 64 = causeByShifts c := by
  apply BitVec.eq_of_getLsbD_eq
  intro i hi
  rw [BitVec.getLsbD_setWidth, getLsbD_trapPayload, causeByShifts, BitVec.getLsbD_or, BitVec.getLsbD_and,
    getLsbD_causeMask, BitVec.getLsbD_shiftLeft, BitVec.getLsbD_ushiftRight, BitVec.getLsbD_extractLsb',
    BitVec.getLsbD_extractLsb']
  rcases Nat.lt_trichotomy i 55 with h | rfl | h
  · simp [h, hi]
  · simp
  · have h0 : ¬ i < 55 := by omega
    have h1 : ¬ i - 55 < 1 := by omega
    have h2 : 64 ≤ 63 + (i - 55) := by omega
    simp [h0, h1, BitVec.getLsbD_of_ge c _ h2]

/-- A bit above the ones that a flag of four bits needs. -/
theorem getLsbD_flag_of_ge {flag : Byte} (hf : flag.toNat < 2 ^ 4) {i : Nat} (hi : 4 ≤ i) : flag.getLsbD i = false :=
  Nat.testBit_lt_two_pow (hf.trans_le (Nat.pow_le_pow_right (by decide) hi))

/-- R126: stage, flag and payload side by side are the code by shifts, where the flag fits its four bits. -/
theorem packCode_eq_shifts (stage : BitVec 4) {flag : Byte} (hf : flag.toNat < 2 ^ 4) (p : BitVec 56) :
    packCode stage flag p = codeByShifts stage flag (p.setWidth 64) := by
  apply BitVec.eq_of_getLsbD_eq
  intro i hi
  simp only [getLsbD_packCode, codeByShifts, BitVec.getLsbD_or, BitVec.getLsbD_shiftLeft, BitVec.getLsbD_setWidth]
  rcases Nat.lt_or_ge i 56 with h | h
  · have h1 : i < 60 := by omega
    simp [h, h1, hi]
  · have h0 : ¬ i < 56 := by omega
    have hp : p.getLsbD i = false := BitVec.getLsbD_of_ge p i h
    have hw : i - 56 < 64 := by omega
    rcases Nat.lt_or_ge i 60 with h1 | h1
    · have h2 : i - 56 < 4 := by omega
      simp [h0, h1, h2, hi, hw, hp]
    · have h2 : ¬ i - 56 < 4 := by omega
      have h3 : ¬ i < 60 := by omega
      have h4 : i - 56 - 4 = i - 60 := by omega
      have h5 : i - 60 < 64 := by omega
      simp [h0, h2, h3, h4, h5, hi, hp, getLsbD_flag_of_ge hf (Nat.not_lt.1 h2)]

/-- R121, R150: a trap composes its code from its cause, on every cause. -/
theorem composeCode_trap_shifts (stage : BitVec 4) (cause : Code) :
    composeCode stage 1 cause = .ok (codeByShifts stage 1 (causeByShifts cause)) := by
  rw [composeCode_trap, packCode_eq_shifts stage (by decide), trapPayload_eq_shifts]

/-! ## A turn of the trap source or of another core's call -/

/-- A turn that is not the executing core's own, in a state whose executing core is in no operation: the step is that turn,
whether or not that core's run has ended. -/
theorem step_listed {s : State} {t : Turn} {ts : List Turn} (hl : launchOk s = true) (ht : (s.core s.cur).todo = [])
    (hs : s.sched = t :: ts) (hne : t ≠ .core s.cur) :
    step s = .next (turn t { s with sched := ts }).state := by
  have hidle : idleStep s = (turn t { s with sched := ts }).state := by unfold idleStep; rw [hs]
  have hb : s.busy = false := by simp [State.busy, ht]
  have hq : quiet s = false := by simp [quiet, hs]
  have ho : othersTurn s = true := by simp [othersTurn, hs, hne]
  rw [← hidle]
  unfold step
  cases hx : (s.core s.cur).stop <;> simp [hl, hb, hq, ho]

/-- R13: which agents go on. -/
theorem goesOn_iff (s : State) (h : Nat) : s.goesOn h = true ↔ h < s.cores.length ∧ (s.core h).stop = none := by
  simp [State.goesOn]

/-- R150: a trap turn on a core that goes on. -/
theorem turn_trap {s : State} {h : Nat} (hg : h < s.cores.length ∧ (s.core h).stop = none) (cause : Code) :
    turn (.trap h cause) s = .moved (takeTrap h cause s) :=
  if_pos ((goesOn_iff s h).2 hg)

/-- A trap turn on any other core. -/
theorem turn_trap_idle {s : State} {h : Nat} (hg : ¬ (h < s.cores.length ∧ (s.core h).stop = none)) (cause : Code) :
    turn (.trap h cause) s = .moved s :=
  if_neg fun h' => hg ((goesOn_iff s h).1 h')

/-- R13, R136: a call turn that starts `fail`, or ends the run of a core that is in it already. -/
theorem turn_call {s : State} {h : Nat} (hg : h < s.cores.length ∧ (s.core h).stop = none) (hl : h ≠ s.cfg.leadHart)
    (hc : (s.core h).fstat ≠ .running ∨ (s.core h).todo = []) (code : Code) (isTrap : Byte) :
    turn (.call h code isTrap) s = .moved (enterFail h code isTrap s) :=
  if_pos ⟨(goesOn_iff s h).2 hg, hl, hc⟩

/-- R99: any other call turn: on a core that does not go on, on the lead core, or on one inside an operation. -/
theorem turn_call_idle {s : State} {h : Nat}
    (hn : ¬ (h < s.cores.length ∧ (s.core h).stop = none) ∨ h = s.cfg.leadHart ∨
      ((s.core h).fstat = .running ∧ (s.core h).todo ≠ [])) (code : Code) (isTrap : Byte) :
    turn (.call h code isTrap) s = .moved s := by
  refine if_neg fun ⟨hg, hl, hc⟩ => ?_
  rcases hn with hn | hn | ⟨hr, ht⟩
  · exact hn ((goesOn_iff s h).1 hg)
  · exact hl hn
  · exact hc.elim (absurd hr) ht

/-- R133, R136, R150: a trap on a running core, with the code of the lead core or without one. -/
theorem takeTrap_running {s : State} {h : Nat} (hh : h < s.cores.length) (hr : (s.core h).fstat = .running) (cause : Code) :
    let d : Option Code :=
      if h = s.cfg.leadHart then some (codeByShifts s.cfg.bootstage 1 (causeByShifts cause)) else none
    takeTrap h cause s = s.setCore h { s.core h with
      fstat := .failing d, op := some (.fail cause 1), todo := failPlan d, cause := cause } := by
  intro d
  rcases takeTrap_cases cause hh with ⟨d', ⟨_, hlead, hother⟩, e⟩ | ⟨hn, _⟩
  · have hd : d' = d := by
      by_cases hl : h = s.cfg.leadHart
      · obtain ⟨c, hc, rfl⟩ := hlead hl
        rw [composeCode_trap_shifts] at hc
        cases hc
        exact (if_pos hl).symm
      · rw [hother hl]
        exact (if_neg hl).symm
    rw [e, hd]
  · exact absurd hr hn

/-- R152: a trap on a core that is failing or halted. -/
theorem takeTrap_not_running {s : State} {h : Nat} (hh : h < s.cores.length) (hn : (s.core h).fstat ≠ .running)
    (cause : Code) : takeTrap h cause s = s.setCore h { s.core h with
      todo := [], cause := cause, stop := some (.fault (.nestedFail h cause)) } := by
  rcases takeTrap_cases cause hh with ⟨_, ⟨hr, _⟩, _⟩ | ⟨_, e⟩
  · exact absurd hr hn
  · exact e

/-- Settles O46: the step is the listed turn (`step_listed`), and the turn is one of the cases above. -/
theorem trapOrCallEntersFailPath : Obligations.TrapOrCallEntersFailPath := by
  intro s h code isTrap ts hl ht
  dsimp only
  -- The turn is taken in this state, whose cores and configuration are those of `s`.
  let u : State := { s with sched := ts }
  refine ⟨fun hs => ?_, fun hs => ?_⟩
  · rw [step_listed hl ht hs (by simp)]
    refine ⟨fun hg hr => ?_, fun hg hn => ?_, fun hg => ?_⟩
    · rw [turn_trap (s := u) hg, takeTrap_running (s := u) hg.1 hr]; rfl
    · rw [turn_trap (s := u) hg, takeTrap_not_running (s := u) hg.1 hn]; rfl
    · rw [turn_trap_idle (s := u) hg]; rfl
  · rw [step_listed hl ht hs (by simp)]
    refine ⟨fun hg hne hr hc => ?_, fun hg hne hn => ?_, fun hg => ?_⟩
    · rw [turn_call (s := u) hg hne (.inr hc), enterFail_other (s := u) hr hne]; rfl
    · rw [turn_call (s := u) hg hne (.inl hn), enterFail_not (s := u) hn]; rfl
    · rw [turn_call_idle (s := u) hg]; rfl

end Sys2Proof.Proofs
end

section
/-! PROOFS. The statements of spec/10_state.md, first part: what every step keeps (R26, R27, R29, R30, R44). -/

namespace Sys2Proof.Proofs

open Sys2Proof Sys2Proof.Machine Sys2Proof.Laws

/-! ## Fail statuses -/

/-- R29, R139: every core's fail status in the second state is one that it may have come to from the first. -/
def StatusesFollow (s t : State) : Prop := ∀ h, FStatLe (s.core h).fstat (t.core h).fstat

/-- Replacing a core by one whose status may follow keeps it. -/
theorem StatusesFollow.setCore {s u : State} (f : StatusesFollow s u) {h : Nat} {c : Core}
    (hc : FStatLe (u.core h).fstat c.fstat) : StatusesFollow s (u.setCore h c) := by
  intro k
  rcases core_setCore_cases u h k c with ⟨e, rfl, _⟩ | e <;> rw [e]
  · exact fstatLe_trans (f k) hc
  · exact f k

/-- Turns (`TurnCores.fstatLe`), issues, entries of `fail` and the ends of runs keep it. -/
theorem statusesFollow_kept (s : State) : Kept (StatusesFollow s) where
  turn u t ts _ f k := fstatLe_trans (f k) ((turn_cores t { u with sched := ts }).fstatLe k)
  issue _ _ _ f _ _ _ _ _ := f.setCore (fstatLe_refl _)
  fail u c g f _ := by
    obtain ⟨k, e, _, he⟩ := enterFail_entry u.cur c g u
    rw [e]
    exact f.setCore he.fstatLe
  retire _ _ f := f
  stop _ _ f _ := f.setCore (fstatLe_refl _)
  sched _ _ _ f := f

/-- R29: how one core's fail status goes with its operation: `FailStatusFits` for core `h` alone. -/
def CoreFits (cfg : Config) (h : Nat) (c : Core) : Prop :=
  match c.fstat with
  | .running => ∀ p ∈ c.todo, failPrim p = false
  | .failing d | .halted d =>
    (∀ p ∈ c.todo, failPrim p = true) ∧
      ∃ code isTrap, c.op = some (.fail code isTrap) ∧
        (h = cfg.leadHart → ∃ x, composeCode cfg.bootstage isTrap code = .ok x ∧ d = some x) ∧
        (h ≠ cfg.leadHart → d = none)

theorem failStatusFits_iff (s : State) : FailStatusFits s ↔ ∀ h, CoreFits s.cfg h (s.core h) := Iff.rfl

/-- A running core with nothing of `fail` left to do. -/
theorem coreFits_running {cfg : Config} {h : Nat} {c : Core} (hf : c.fstat = .running) :
    CoreFits cfg h c ↔ ∀ p ∈ c.todo, failPrim p = false := by
  simp [CoreFits, hf]

/-- A core of the same status and operation with no other kind of primitive left fits as well. -/
theorem CoreFits.of_todo {cfg : Config} {h : Nat} {c c' : Core} (f : CoreFits cfg h c) (hf : c'.fstat = c.fstat)
    (ho : c'.op = c.op) (ht : ∀ p ∈ c'.todo, p ∈ c.todo) : CoreFits cfg h c' := by
  unfold CoreFits at f ⊢
  rw [hf, ho]
  split <;> simp_all

/-- R151: a core that enters `fail`, or whose run ends there, fits. -/
theorem coreFits_entry {s : State} {h : Nat} {c : Core} (f : CoreFits s.cfg h (s.core h)) (he : Entry s h c) :
    CoreFits s.cfg h c := by
  rcases he with ⟨d, _, hf, ht, _, code, isTrap, ho, _, hlead, hother⟩ | ⟨hf, ht, _, ho⟩
  · unfold CoreFits
    rw [hf, ht]
    exact ⟨failPlan_all d, code, isTrap, ho, hlead, hother⟩
  · exact f.of_todo hf ho (by simp [ht])

/-- A core that has performed one of its primitives fits: a return and a round of `copy` are a running core's, and `halt` a
failing or halted one's, whose code stays. -/
theorem coreFits_moved {s s' : State} {h : Nat} {p : Prim} {ps : List Prim} {c : Core} (f : CoreFits s.cfg h (s.core h))
    (ht : (s.core h).todo = p :: ps) (hm : Moved s s' h p ps c) : CoreFits s.cfg h c := by
  have running : failPrim p = false → (s.core h).fstat = .running := by
    intro hp
    unfold CoreFits at f
    cases hf : (s.core h).fstat <;> simp_all
  cases hm with
  | on hf _ ho hc => exact f.of_todo hf ho (by simp +contextual [hc, ht])
  | returned hp hf _ _ hc =>
    have hr := running (by cases p <;> simp_all [isRet, failPrim])
    exact (coreFits_running (hf.trans hr)).2 (by simp [hc])
  | copied a n hp hf _ _ hc =>
    have hr := running (by simp [hp, failPrim])
    have hps := (coreFits_running hr).1 f
    refine (coreFits_running (hf.trans hr)).2 fun q hq => ?_
    rw [hc] at hq
    simp only [List.mem_append, List.mem_cons, List.not_mem_nil, or_false] at hq
    rcases hq with hq | (rfl | rfl) | hq
    · exact txrxPlan_noFail _ _ q hq
    · rfl
    · rfl
    · exact hps q (by simp [ht, hq])
  | halted d hp _ hle hf hc ho =>
    subst hp
    unfold CoreFits at f ⊢
    rw [hf, hc, ho]
    cases hs : (s.core h).fstat <;> simp_all [FStatLe, failPrim]
  | faulted _ _ _ hf _ hc ho => exact f.of_todo hf ho (by simp [hc])

/-- Replacing a core by one that fits. -/
theorem failStatusFits_setCore {s : State} {h : Nat} {c : Core} (f : FailStatusFits s) (hc : CoreFits s.cfg h c) :
    FailStatusFits (s.setCore h c) := by
  refine (failStatusFits_iff _).2 fun k => ?_
  rcases core_setCore_cases s h k c with ⟨e, rfl, _⟩ | e <;> rw [e]
  · exact hc
  · exact f k

/-- That statuses fit depends on the parameters and the cores alone. -/
theorem failStatusFits_congr {s s' : State} (f : FailStatusFits s) (hcfg : s'.cfg = s.cfg) (e : s'.cores = s.cores) :
    FailStatusFits s' := by
  intro k
  rw [core_congr e, hcfg]
  exact f k

theorem failStatusFits_turn {s s' : State} (f : FailStatusFits s) (hcfg : s'.cfg = s.cfg) (ht : TurnCores s s') :
    FailStatusFits s' := by
  cases ht with
  | same e => exact failStatusFits_congr f hcfg e
  | prim h p ps c ht e hm =>
    exact failStatusFits_congr (failStatusFits_setCore f (coreFits_moved (f h) ht hm)) hcfg e
  | entry h c _ _ e he =>
    rw [e]
    exact failStatusFits_setCore f (coreFits_entry (f h) he)

/-- R29: turns, issues, entries of `fail`, returns and the ends of runs keep that statuses fit. -/
theorem failStatusFits_kept : Kept FailStatusFits where
  turn s t ts _ f :=
    failStatusFits_turn (s := { s with sched := ts }) f (turn_queues t { s with sched := ts }).2.2.2.1 (turn_cores t _)
  issue s i ps f _ hr _ _ hp :=
    failStatusFits_setCore f ((coreFits_running (c := { s.core s.cur with op := some i, todo := ps }) hr).2 hp)
  fail s c g f _ := by
    obtain ⟨k, e, _, he⟩ := enterFail_entry s.cur c g s
    rw [e]
    exact failStatusFits_setCore f (coreFits_entry (f _) he)
  retire _ _ f := f
  stop s _ f _ := failStatusFits_setCore f (CoreFits.of_todo (f s.cur) rfl rfl (by simp))
  sched _ _ _ f := f

/-- Settles O50: the statuses at reset, `statusesFollow_kept` for where a status may go, and `failStatusFits_kept` for what it
goes with. -/
theorem failStatusNeverGoesBack : Obligations.FailStatusNeverGoesBack := by
  refine ⟨by decide, fun s t h => ⟨fun k d => ?_, fun f => failStatusFits_kept.step f h⟩⟩
  have hle := (statusesFollow_kept s).step (fun _ => fstatLe_refl _) h k
  constructor <;> intro hs <;> rw [hs] at hle <;> exact hle

/-! ## The lead core and the controller, the console -/

/-- A core that is not the lead has no console event left to hand over once it enters `fail` (R136). -/
theorem noReport_entry {s : State} {h : Nat} {c : Core} (he : Entry s h c) (hl : h ≠ s.cfg.leadHart) :
    ∀ p ∈ c.todo, isCon p = false := by
  rcases he with ⟨d, _, _, ht, _, _, _, _, _, _, hother⟩ | ⟨_, ht, _⟩ <;> rw [ht]
  · rw [hother hl]; decide
  · simp

/-- A primitive hands over no more than it did: none of the primitives it leaves is a new console event. -/
theorem noReport_moved {s s' : State} {h : Nat} {p : Prim} {ps : List Prim} {c : Core} (hm : Moved s s' h p ps c)
    (hps : ∀ q ∈ ps, isCon q = false) : ∀ q ∈ c.todo, isCon q = false := by
  cases hm with
  | on _ _ _ ht => rw [ht]; exact hps
  | returned _ _ _ _ ht | halted _ _ _ _ _ ht | faulted _ _ _ _ _ ht => simp [ht]
  | copied a n _ _ _ _ ht =>
    intro q hq
    rw [ht, ← List.append_assoc] at hq
    rcases List.mem_append.1 hq with hq | hq
    · have hp : q ∈ txrxPlan s.cfg 0 ∨ q = .store a ∨ q = .copyBytes (a + 1) n := by simpa using hq
      rcases hp with hp | rfl | rfl
      · have := txrxPlan_noFail _ _ q hp
        cases q <;> simp_all [isCon, failPrim]
      · rfl
      · rfl
    · exact hps q hq

theorem onlyLeadReports_setCore {s : State} {h : Nat} {c : Core} (o : OnlyLeadReports s)
    (hc : h ≠ s.cfg.leadHart → ∀ p ∈ c.todo, isCon p = false) : OnlyLeadReports (s.setCore h c) := by
  intro k hk p hp
  rcases core_setCore_cases s h k c with ⟨e, rfl, _⟩ | e <;> rw [e] at hp
  · exact hc hk p hp
  · exact o k hk p hp

theorem onlyLeadReports_congr {s s' : State} (o : OnlyLeadReports s) (hcfg : s'.cfg = s.cfg) (e : s'.cores = s.cores) :
    OnlyLeadReports s' := by
  intro k hk
  rw [core_congr e]
  exact o k (hcfg ▸ hk)

theorem onlyLeadReports_turn {s s' : State} (o : OnlyLeadReports s) (hcfg : s'.cfg = s.cfg) (ht : TurnCores s s') :
    OnlyLeadReports s' := by
  cases ht with
  | same e => exact onlyLeadReports_congr o hcfg e
  | prim h p ps c ht e hm =>
    refine onlyLeadReports_congr (onlyLeadReports_setCore o fun hl => noReport_moved hm fun q hq => ?_) hcfg e
    exact o h hl q (by simp [ht, hq])
  | entry h c _ _ e he =>
    rw [e]
    exact onlyLeadReports_setCore o (noReport_entry he)

/-- R26, R134: no event of the history is an access to the controller, or a console event, by another core than the lead. -/
def NoForeignEvent (s : State) : Prop := ∀ e ∈ s.hist, foreignEvent s.cfg e = false

/-- A state whose history is that of another with an event more that is not foreign. -/
theorem NoForeignEvent.snoc {s s' : State} {e : Event} (n : NoForeignEvent s) (hcfg : s'.cfg = s.cfg)
    (hh : s'.hist = s.hist ++ [e]) (he : foreignEvent s.cfg e = false) : NoForeignEvent s' := by
  intro x hx
  rw [hh] at hx
  rw [hcfg]
  rcases List.mem_append.1 hx with hx | hx
  · exact n x hx
  · rw [List.mem_singleton.1 hx]; exact he

theorem NoForeignEvent.congr {s s' : State} (n : NoForeignEvent s) (hcfg : s'.cfg = s.cfg) (hh : s'.hist = s.hist) :
    NoForeignEvent s' := by
  unfold NoForeignEvent
  rw [hcfg, hh]
  exact n

/-- R26: a primitive's event is foreign only where it is a console event of another core than the lead: the controller's
accesses are the lead core's (`PrimCase`). -/
theorem noForeignEvent_prim {h : Nat} {p : Prim} {ps : List Prim} {s : State} (n : NoForeignEvent s)
    (hp : isCon p = true → h = s.cfg.leadHart) : NoForeignEvent (prim h p ps s).state := by
  have hc := prim_case h p ps s
  generalize prim h p ps s = m at hc
  cases hc with
  | foreign | overflow | underflow | copied | copy | halt | ret | retByte => exact n.congr rfl rfl
  | pollTx hl | spinTx hl =>
    obtain ⟨w, e, _⟩ := readTxcnt_state h s
    exact n.snoc (e := .ioR h s.cfg.offTxcnt w) (by simp [e]) (by simp [e]) (by simp [foreignEvent, hl])
  | send hl hw =>
    rcases writeTxdata_state hw with e | ⟨_, _, e⟩ <;>
      exact n.snoc (e := .ioW h s.cfg.offTxdata (txWord s.cfg.txByteLsb _)) (by simp [e]) (by simp [e]; rfl)
        (by simp [foreignEvent, hl])
  | pollRx hl | spinRx hl =>
    obtain ⟨w, e | ⟨_, _, _, _, _, _, _, e⟩⟩ := readRxrdy_state h s <;>
      exact n.snoc (e := .ioR h s.cfg.offRxrdy w) (by simp [e]) (by simp [e]) (by simp [foreignEvent, hl])
  | readRx hl hr =>
    obtain ⟨w, e | ⟨_, _, _, e⟩⟩ := readRxdata_state hr <;>
      exact n.snoc (e := .ioR h s.cfg.offRxdata w) (by simp [e]) (by simp [e]) (by simp [foreignEvent, hl])
  | readInh hl =>
    rcases readInhWord_state h s with e | e <;>
      exact n.snoc (e := .ioR h s.cfg.offInh (readInhWord h s).1) (by simp [e]) (by simp [e]) (by simp [foreignEvent, hl])
  | @writeInh begins hl =>
    let w := withInhibit s.cfg.inhibitBit (frameLevel s.cfg begins) (s.core h).inhWord
    rcases writeInhWord_state h w s with e | ⟨_, e⟩ <;>
      exact n.snoc (e := .ioW h s.cfg.offInh w) (by simp [w, e]) (by simp [w, e]) (by simp [foreignEvent, hl])
  | @store a => exact n.snoc (e := .mem h a (s.core h).rxByte) rfl rfl rfl
  | @con e => exact n.snoc (e := .con h e) rfl rfl (by simp [foreignEvent, hp rfl])
  | @gpio r =>
    exact n.snoc (e := .gpio h (gpioOp s.cfg r) (gpioOff s.cfg r) (faultMask s.cfg.gpioFaultBit) (s.gpio r))
      (by simp [gpioAmo]) (by simp [gpioAmo]) rfl

/-- An exchange is the engine's event, and no core's. -/
theorem noForeignEvent_engineStep {s : State} (n : NoForeignEvent s) : NoForeignEvent (engineStep s) := by
  rcases engineStep_state s with ⟨e, _⟩ | ⟨b, q, rx, f, _, _, _, _, e⟩ <;> rw [e]
  · exact n
  · exact n.snoc (e := .ex b (s.answer (inhLevel s.cfg.inhibitBit s.inh) b)) rfl rfl rfl

theorem noForeignEvent_turn {t : Turn} {s : State} (n : NoForeignEvent s) (o : OnlyLeadReports s) :
    NoForeignEvent (turn t s).state := by
  cases t with
  | core h =>
    change NoForeignEvent (coreTurn h s).state
    unfold coreTurn
    split
    · exact n
    · rename_i p ps ht
      refine noForeignEvent_prim n fun hp => ?_
      by_contra hl
      have := o h hl p (by simp [ht])
      simp_all
  | engine => exact noForeignEvent_engineStep n
  | trap h cause =>
    rcases trapTurn_cases h cause s with ⟨e, _⟩ | ⟨hh, _, e⟩ <;> rw [e]
    · exact n
    · obtain ⟨c, e, _⟩ := takeTrap_entry cause hh
      rw [e]; exact n
  | call h code isTrap =>
    rcases callTurn_cases h code isTrap s with e | ⟨_, _, _, _, e⟩ <;> rw [e]
    · exact n
    · obtain ⟨c, e, _⟩ := enterFail_entry h code isTrap s
      rw [e]; exact n

/-- R26, R134, R136: the lead core alone has accessed the controller and handed over console events, and has any left. -/
theorem leadOnlyEvents_kept : Kept (fun s => NoForeignEvent s ∧ OnlyLeadReports s) where
  turn s t ts _ := fun ⟨n, o⟩ =>
    ⟨noForeignEvent_turn (s := { s with sched := ts }) n o, onlyLeadReports_turn (s := { s with sched := ts }) o
      (turn_queues t { s with sched := ts }).2.2.2.1 (turn_cores t _)⟩
  issue _ _ _ := fun ⟨n, o⟩ hl _ _ _ _ => ⟨n, onlyLeadReports_setCore o fun hn => absurd hl hn⟩
  fail s c g := fun ⟨n, o⟩ _ => by
    obtain ⟨k, e, _, he⟩ := enterFail_entry s.cur c g s
    rw [e]
    exact ⟨n, onlyLeadReports_setCore o (noReport_entry he)⟩
  retire _ _ h := h
  stop _ _ := fun ⟨n, o⟩ _ => ⟨n, onlyLeadReports_setCore o fun _ => by simp⟩
  sched _ _ _ h := h

/-- R28, R159: the console record of the second state is that of the first with the console events by which the history has
grown. -/
def ConsoleFollows (s t : State) : Prop :=
  ∃ es, t.hist = s.hist ++ es ∧ t.console = s.console ++ conEvents es

/-- An event that is not the console's, with the record as before. -/
theorem ConsoleFollows.snoc {s t u : State} {e : Event} (f : ConsoleFollows s t) (hh : u.hist = t.hist ++ [e])
    (he : conEvents [e] = []) (hc : u.console = t.console) : ConsoleFollows s u := by
  obtain ⟨es, h1, h2⟩ := f
  refine ⟨es ++ [e], by rw [hh, h1, List.append_assoc], ?_⟩
  have : conEvents (es ++ [e]) = conEvents es ++ conEvents [e] := List.filterMap_append
  rw [hc, h2, this, he, List.append_nil]

/-- Every shared operation that hands the console an event records it in the history. -/
theorem consoleFollows_closed (s : State) : Closed (ConsoleFollows s) where
  sched _ _ f := f
  readTxcnt h u _ f := by
    obtain ⟨w, e, _⟩ := readTxcnt_state h u
    exact f.snoc (e := .ioR h u.cfg.offTxcnt w) (by simp [e]) rfl (by simp [e])
  readRxrdy h u _ f := by
    obtain ⟨w, e | ⟨_, _, _, _, _, _, _, e⟩⟩ := readRxrdy_state h u <;>
      exact f.snoc (e := .ioR h u.cfg.offRxrdy w) (by simp [e]) rfl (by simp [e])
  readRxdata h u _ _ hr f := by
    obtain ⟨w, e | ⟨_, _, _, e⟩⟩ := readRxdata_state hr <;>
      exact f.snoc (e := .ioR h u.cfg.offRxdata w) (by simp [e]) rfl (by simp [e])
  readInh h u _ f := by
    rcases readInhWord_state h u with e | e <;>
      exact f.snoc (e := .ioR h u.cfg.offInh (readInhWord h u).1) (by rw [e]; simp) rfl (by rw [e]; simp)
  writeTxdata h b u _ _ hw f := by
    rcases writeTxdata_state hw with e | ⟨_, _, e⟩ <;>
      exact f.snoc (e := .ioW h u.cfg.offTxdata (txWord u.cfg.txByteLsb b)) (by rw [e]; rfl) rfl (by rw [e]; rfl)
  writeInh h w u _ f := by
    rcases writeInhWord_state h w u with e | ⟨_, e⟩ <;>
      exact f.snoc (e := .ioW h u.cfg.offInh w) (by rw [e]; rfl) rfl (by rw [e]; rfl)
  engine u f := by
    rcases engineStep_state u with ⟨e, _⟩ | ⟨b, _, _, _, _, _, _, _, e⟩ <;> rw [e]
    · exact f
    · exact f.snoc (e := .ex b (u.answer (inhLevel u.cfg.inhibitBit u.inh) b)) rfl rfl rfl
  store h a b _ f := f.snoc (e := .mem h a b) rfl rfl rfl
  console h e _ := fun ⟨es, h1, h2⟩ => by
    refine ⟨es ++ [.con h e], by simp [consoleOut, h1], ?_⟩
    have : conEvents (es ++ [.con h e]) = conEvents es ++ [e] := List.filterMap_append
    simp [consoleOut, h2, this]
  gpio h r u f := f.snoc (e := .gpio h (gpioOp u.cfg r) (gpioOff u.cfg r) (faultMask u.cfg.gpioFaultBit) (u.gpio r))
    (by simp [gpioAmo]) rfl (by simp [gpioAmo])
  retire _ _ f := f
  core _ _ _ f := f

/-- Settles O53: `leadOnlyEvents_kept` for what only the lead core does, `consoleFollows_closed` for the record. -/
theorem onlyLeadTouchesController : Obligations.OnlyLeadTouchesController := by
  intro s t hn ho h
  obtain ⟨hn', ho'⟩ := leadOnlyEvents_kept.step (s := s) ⟨hn, ho⟩ h
  obtain ⟨es, h1, h2⟩ := (consoleFollows_closed s).step ⟨[], by simp, by simp [conEvents]⟩ h
  exact ⟨hn', ho', by rw [h2, h1, List.drop_left]⟩

/-! ## Memory, FIFOs and GPIO -/

/-- R44: of the shared operations only `MemWrite` changes memory, and it keeps the form. -/
theorem memoryWf_closed : Closed (fun s => Memory.wf s.mem = true) where
  sched _ _ w := w
  readTxcnt h s _ w := by obtain ⟨_, e, _⟩ := readTxcnt_state h s; simpa [e] using w
  readRxrdy h s _ w := by
    obtain ⟨_, e | ⟨_, _, _, _, _, _, _, e⟩⟩ := readRxrdy_state h s <;> simpa [e] using w
  readRxdata _ _ _ _ hr w := by obtain ⟨_, e | ⟨_, _, _, e⟩⟩ := readRxdata_state hr <;> simpa [e] using w
  readInh h s _ w := by rcases readInhWord_state h s with e | e <;> rw [e] <;> simpa using w
  writeTxdata _ _ _ _ _ hw w := by rcases writeTxdata_state hw with e | ⟨_, _, e⟩ <;> simpa [e] using w
  writeInh h v s _ w := by rcases writeInhWord_state h v s with e | ⟨_, e⟩ <;> simpa [e] using w
  engine s w := by rw [(engine_same s).2.2.2.2.2.1]; exact w
  store _ a b _ w := writeMem_wf a b w
  console _ _ _ w := w
  gpio _ _ _ w := by simpa [gpioAmo] using w
  retire _ _ w := w
  core _ _ _ w := w

/-- Settles O54: the one shared operation that writes memory keeps the canonical form (`writeMem_wf`). -/
theorem memoryStaysCanonical : Obligations.MemoryStaysCanonical :=
  fun _ _ w h => memoryWf_closed.step w h

/-- FIFOs that are no longer than before. -/
theorem fifosWithinDepth_mono {s s' : State} (f : FifosWithinDepth s) (hcfg : s'.cfg = s.cfg)
    (ht : s'.txq.length ≤ s.txq.length) (hr : s'.rxq.length ≤ s.rxq.length) : FifosWithinDepth s' := by
  unfold FifosWithinDepth at f ⊢
  rw [hcfg]
  omega

/-- R30, R35, R37: the TXDATA write and the engine's exchange are the two operations that append, each to a FIFO that is not full;
the others leave the FIFOs or pop them. -/
theorem fifosWithinDepth_closed : Closed FifosWithinDepth where
  sched _ _ f := f
  readTxcnt h s _ f := by
    obtain ⟨_, e, _⟩ := readTxcnt_state h s
    exact fifosWithinDepth_mono f (by simp [e]) (by simp [e]) (by simp [e])
  readRxrdy h s _ f := by
    obtain ⟨_, e | ⟨_, q, hq, _, _, _, _, e⟩⟩ := readRxrdy_state h s
    · exact fifosWithinDepth_mono f (by simp [e]) (by simp [e]) (by simp [e])
    · exact fifosWithinDepth_mono f (by simp [e]) (by simp [e]) (by simp [e, hq])
  readRxdata _ s _ _ hr f := by
    obtain ⟨_, e | ⟨q, hq, _, e⟩⟩ := readRxdata_state hr
    · exact fifosWithinDepth_mono f (by simp [e]) (by simp [e]) (by simp [e])
    · exact fifosWithinDepth_mono f (by simp [e]) (by simp [e]) (by simp [e, hq])
  readInh h s _ f := by
    rcases readInhWord_state h s with e | e <;> rw [e] <;> exact fifosWithinDepth_mono f (by simp) (by simp) (by simp)
  writeTxdata _ _ s _ _ hw f := by
    rcases writeTxdata_state hw with e | ⟨_, hne, e⟩
    · exact fifosWithinDepth_mono f (by simp [e]) (by simp [e]) (by simp [e])
    · obtain ⟨h1, h2⟩ := f
      rw [e]
      exact ⟨by simp; omega, h2⟩
  writeInh h v s _ f := by
    rcases writeInhWord_state h v s with e | ⟨_, e⟩ <;> exact fifosWithinDepth_mono f (by simp [e]) (by simp [e]) (by simp [e])
  engine s f := by
    rcases engineStep_state s with ⟨e, _⟩ | ⟨b, q, rx, g, _, _, hq, hrx, e⟩
    · rw [e]; exact f
    · obtain ⟨h1, h2⟩ := f
      rw [hq, List.length_cons] at h1
      rw [e]
      refine ⟨by simp; omega, ?_⟩
      rcases hrx with ⟨_, rfl, _⟩ | ⟨hne, rfl, _⟩
      · exact h2
      · simp; omega
  store _ _ _ _ f := f
  console _ _ _ f := f
  gpio _ _ _ f := fifosWithinDepth_mono f (by simp [gpioAmo]) (by simp [gpioAmo]) (by simp [gpioAmo])
  retire _ _ f := f
  core _ _ _ f := f

/-- Settles O55: `fifosWithinDepth_closed`, over a step. -/
theorem fifosStayWithinDepth : Obligations.FifosStayWithinDepth :=
  fun _ _ f h => fifosWithinDepth_closed.step f h

/-- R27, R137: the second state's GPIO words have every bit of the first's but the fault bit, and the fault bits of VAL and EN
where the first's are set. -/
structure GpioFollows (s t : State) : Prop where
  cfg : t.cfg = s.cfg
  other : ∀ r k, k ≠ s.cfg.gpioFaultBit → (t.gpio r).getLsbD k = (s.gpio r).getLsbD k
  set : ∀ r, gpioOp s.cfg r = .or →
    (s.gpio r).getLsbD s.cfg.gpioFaultBit = true → (t.gpio r).getLsbD s.cfg.gpioFaultBit = true

/-- A bit of the fault indicator's mask (R137). -/
theorem getLsbD_faultMask_ne {bit k : Nat} (h : k ≠ bit) : (faultMask bit).getLsbD k = false := by
  unfold faultMask
  rw [BitVec.getLsbD_shiftLeft, BitVec.getLsbD_one]
  by_cases hk : k < bit
  · simp [hk]
  · have : k - bit ≠ 0 := by omega
    simp [this]

/-- R62: an atomic operation with the fault mask leaves every other bit. -/
theorem getLsbD_amoResult_ne (op : AmoOp) (old : Word) {bit k : Nat} (h : k ≠ bit) :
    (amoResult op old (faultMask bit)).getLsbD k = old.getLsbD k := by
  cases op <;> simp [amoResult, getLsbD_faultMask_ne h]

/-- A state with the same parameters and GPIO words. -/
theorem GpioFollows.congr {s t u : State} (f : GpioFollows s t) (hcfg : u.cfg = t.cfg) (hg : ∀ r, u.gpio r = t.gpio r) :
    GpioFollows s u where
  cfg := hcfg.trans f.cfg
  other r := by rw [hg]; exact f.other r
  set r := by rw [hg]; exact f.set r

/-- R62, R137: the atomic operation on one of the words. -/
theorem GpioFollows.amo {s t : State} (f : GpioFollows s t) (h : Nat) (r : GpioReg) : GpioFollows s (gpioAmo h r t) := by
  -- The word operated on, and the others.
  have self : (gpioAmo h r t).gpio r = amoResult (gpioOp s.cfg r) (t.gpio r) (faultMask s.cfg.gpioFaultBit) := by
    simp [gpioAmo, f.cfg]
  have rest : ∀ r', r' ≠ r → (gpioAmo h r t).gpio r' = t.gpio r' := fun r' hr => by
    simp [gpioAmo, gpio_setGpio_ne _ _ hr]
  refine ⟨by simp [gpioAmo, f.cfg], fun r' k hk => ?_, fun r' ho hb => ?_⟩ <;> by_cases hr : r' = r
  · subst hr
    rw [self, getLsbD_amoResult_ne _ _ hk]
    exact f.other r' k hk
  · rw [rest r' hr]
    exact f.other r' k hk
  · subst hr
    rw [self, ho]
    simp [amoResult, f.set r' ho hb]
  · rw [rest r' hr]
    exact f.set r' ho hb

/-- Every shared operation but the atomic one leaves the GPIO words. -/
theorem gpioFollows_closed (s : State) : Closed (GpioFollows s) where
  sched _ _ f := f.congr rfl (by rintro ⟨⟩ <;> rfl)
  readTxcnt h u _ f := by
    obtain ⟨_, e, _⟩ := readTxcnt_state h u
    exact f.congr (by simp [e]) (by rintro ⟨⟩ <;> simp [e, State.gpio])
  readRxrdy h u _ f := by
    obtain ⟨_, e | ⟨_, _, _, _, _, _, _, e⟩⟩ := readRxrdy_state h u <;>
      exact f.congr (by simp [e]) (by rintro ⟨⟩ <;> simp [e, State.gpio])
  readRxdata _ _ _ _ hr f := by
    obtain ⟨_, e | ⟨_, _, _, e⟩⟩ := readRxdata_state hr <;>
      exact f.congr (by simp [e]) (by rintro ⟨⟩ <;> simp [e, State.gpio])
  readInh h u _ f := by
    rcases readInhWord_state h u with e | e <;> rw [e] <;>
      exact f.congr (by simp) (by rintro ⟨⟩ <;> simp [State.gpio])
  writeTxdata _ _ _ _ _ hw f := by
    rcases writeTxdata_state hw with e | ⟨_, _, e⟩ <;>
      exact f.congr (by simp [e]) (by rintro ⟨⟩ <;> simp [e, State.gpio])
  writeInh h w u _ f := by
    rcases writeInhWord_state h w u with e | ⟨_, e⟩ <;>
      exact f.congr (by simp [e]) (by rintro ⟨⟩ <;> simp [e, State.gpio])
  engine u f := by
    rcases engineStep_state u with ⟨e, _⟩ | ⟨_, _, _, _, _, _, _, _, e⟩ <;> rw [e]
    · exact f
    · exact f.congr rfl (by rintro ⟨⟩ <;> rfl)
  store _ _ _ _ f := f.congr rfl (by rintro ⟨⟩ <;> rfl)
  console _ _ _ f := f.congr rfl (by rintro ⟨⟩ <;> rfl)
  gpio h r _ f := f.amo h r
  retire _ _ f := f.congr rfl (by rintro ⟨⟩ <;> rfl)
  core _ _ _ f := f.congr rfl (by rintro ⟨⟩ <;> rfl)

/-- Settles O56: `gpioFollows_closed` over a step, word by word; VAL and EN are operated on with OR (R137). -/
theorem gpioOtherBitsKept : Obligations.GpioOtherBitsKept := by
  intro s t h
  have f : GpioFollows s t := (gpioFollows_closed s).step ⟨rfl, fun _ _ _ => rfl, fun _ _ => id⟩ h
  exact ⟨fun k hk => ⟨f.other .val k hk, f.other .en k hk, f.other .inv k hk⟩, f.set .val rfl, f.set .en rfl⟩

end Sys2Proof.Proofs
end

section
/-! PROOFS. The statements of spec/10_state.md, second part: what every operation keeps in any schedule while the other cores only
fail (R16, R23, R38, R44, R90, R93). -/

namespace Sys2Proof.Proofs

open Sys2Proof Sys2Proof.Machine Sys2Proof.Laws

/-- What a primitive of the executing core makes of that core: a poll that read in vain leaves it, any other moves it. -/
theorem own_prim {u : State} {p : Prim} {ps : List Prim} (ht : (u.core u.cur).todo = p :: ps) :
    let u' := (prim u.cur p ps u).state
    (u'.core u'.cur = u.core u.cur ∧ (p = .pollTx ∨ p = .pollRx)) ∨ Moved u u' u.cur p ps (u'.core u'.cur) := by
  intro u'
  have hlen : u.cur < u.cores.length := lt_of_todo_ne_nil (by simp [ht])
  have hcur : u'.cur = u.cur := (prim_queues u.cur p ps u).2.2.1
  rw [hcur]
  rcases prim_cores u.cur p ps u with ⟨_, e, hp⟩ | ⟨c, _, e, _, hm⟩
  · exact .inl ⟨core_congr e _, hp⟩
  · have : u'.core u.cur = c := by simp [u', State.core, e, List.getD, hlen]
    exact .inr (this ▸ hm)

/-! ## The position -/

/-- R82: what is left of an operation on the controller: its one return comes last, and nothing is of `fail`. -/
def EndsInReturn (ps : List Prim) : Prop :=
  ∃ qs r, ps = qs ++ [r] ∧ isRet r = true ∧ ∀ q ∈ qs, isRet q = false ∧ failPrim q = false

/-- The first of such primitives: the return alone, or one before it. -/
theorem endsInReturn_cons {p : Prim} {ps : List Prim} (h : EndsInReturn (p :: ps)) :
    isRet p = true ∨ (isRet p = false ∧ failPrim p = false ∧ EndsInReturn ps) := by
  obtain ⟨qs, r, e, hr, hq⟩ := h
  cases qs with
  | nil =>
    obtain ⟨rfl, -⟩ : p = r ∧ ps = [] := by simpa using e
    exact .inl hr
  | cons q qs =>
    obtain ⟨rfl, rfl⟩ : p = q ∧ ps = qs ++ [r] := by simpa using e
    obtain ⟨h1, h2⟩ := hq p (by simp)
    exact .inr ⟨h1, h2, qs, r, rfl, hr, fun q h => hq q (by simp [h])⟩

theorem endsInReturn_append {qs ps : List Prim} (hq : ∀ q ∈ qs, isRet q = false ∧ failPrim q = false)
    (h : EndsInReturn ps) : EndsInReturn (qs ++ ps) := by
  obtain ⟨qs', r, rfl, hr, hq'⟩ := h
  refine ⟨qs ++ qs', r, by simp, hr, fun q h => ?_⟩
  rcases List.mem_append.1 h with h | h
  · exact hq q h
  · exact hq' q h

theorem txrxPlan_noRet (cfg : Config) (b : Byte) : ∀ p ∈ txrxPlan cfg b, isRet p = false := by
  cases h : cfg.rxSameRead <;> simp [txrxPlan, txPlan, rxPlan, h, isRet]

theorem copyPlan_noRet (cfg : Config) (dst addr size : Word) : ∀ p ∈ copyPlan cfg dst addr size, isRet p = false := by
  intro p hp
  simp only [copyPlan, commandPlan, List.mem_append, List.mem_flatMap, List.mem_singleton] at hp
  rcases hp with ((hp | ⟨b, _, hp⟩) | rfl) | hp
  · rcases (by simpa [framePlan] using hp : p = .readInh ∨ p = .writeInh true) with rfl | rfl <;> rfl
  · exact txrxPlan_noRet cfg b p hp
  · rfl
  · rcases (by simpa [framePlan] using hp : p = .readInh ∨ p = .writeInh false) with rfl | rfl <;> rfl

/-- R90 to R102: every operation on the controller ends in its return. -/
theorem endsInReturn_planOf (cfg : Config) {i : Instr} (hi : isSpi i = true) : EndsInReturn (planOf cfg i) := by
  have snoc : ∀ ps r, isRet r = true → (∀ q ∈ ps, isRet q = false) → (∀ q ∈ ps, failPrim q = false) →
      EndsInReturn (ps ++ [r]) := fun ps r hr h1 h2 => ⟨ps, r, rfl, hr, fun q hq => ⟨h1 q hq, h2 q hq⟩⟩
  cases i with
  | tx b => exact snoc _ _ rfl (by simp [txPlan, isRet]) (by simp [txPlan, failPrim])
  | rx => exact snoc _ _ rfl (fun q hq => txrxPlan_noRet cfg 0 q (List.mem_append_right _ hq)) (rxPlan_noFail cfg)
  | txrx b => exact snoc _ _ rfl (txrxPlan_noRet cfg b) (txrxPlan_noFail cfg b)
  | frameBegin => exact snoc _ _ rfl (by simp [framePlan, isRet]) (framePlan_noFail true)
  | frameEnd => exact snoc _ _ rfl (by simp [framePlan, isRet]) (framePlan_noFail false)
  | copy dst addr size => exact snoc _ _ rfl (copyPlan_noRet cfg dst addr size) (copyPlan_noFail cfg dst addr size)
  | clkdiv | diagEncode | diagDecode | fail => simp [isSpi] at hi

/-- R15, R16: a return gives one result and advances the position, and leaves its core with nothing to do. -/
theorem prim_isRet {h : Nat} {p : Prim} (hp : isRet p = true) (ps : List Prim) (s : State) :
    ∃ r, (prim h p ps s).state = (s.retire r).setCore h { s.core h with op := none, todo := [] } := by
  cases p with
  | ret r => exact ⟨r, rfl⟩
  | retByte => exact ⟨_, rfl⟩
  | _ => simp [isRet] at hp

/-- R16: how far the operation `i` that started in `s` has come. -/
inductive Progress (i : Instr) (s u : State) : Prop
  /-- its return is still to come -/
  | pending (idx : u.idx = s.idx) (results : u.results = s.results) (hi : ∀ c f, i ≠ .fail c f)
      (todo : EndsInReturn (u.core u.cur).todo)
  /-- it has returned -/
  | returned (idx : u.idx = s.idx + 1) (results : ∃ r, u.results = s.results ++ [r]) (hi : ∀ c f, i ≠ .fail c f)
      (todo : (u.core u.cur).todo = [])
  /-- it never returns: its core is in `fail`, or its core's run has ended -/
  | lost (idx : u.idx = s.idx) (results : u.results = s.results) (todo : ∀ p ∈ (u.core u.cur).todo, failPrim p = true)
      (h : (u.core u.cur).fstat ≠ .running ∨ (u.core u.cur).stop ≠ none)

/-- Progress is the position's, the results' and the executing core's. -/
theorem Progress.congr {i : Instr} {s u u' : State} (q : Progress i s u) (hi : u'.idx = u.idx)
    (hr : u'.results = u.results) (hc : u'.core u'.cur = u.core u.cur) : Progress i s u' := by
  cases q with
  | pending a b c d => exact .pending (hi.trans a) (hr.trans b) c (hc ▸ d)
  | returned a b c d => exact .returned (hi.trans a) (hr ▸ b) c (hc ▸ d)
  | lost a b c d => exact .lost (hi.trans a) (hr.trans b) (hc ▸ c) (hc ▸ d)

/-- No status that may follow another than `Running` is `Running` (R29). -/
theorem ne_running_of_fstatLe {f g : FStat} (h : FStatLe f g) (hf : f ≠ .running) : g ≠ .running := by
  cases f with
  | running => exact absurd rfl hf
  | failing d => rcases h with rfl | rfl <;> simp
  | halted d => cases h; simp

/-- A primitive of the executing core, before the return, at it, or where none will come. -/
theorem progress_own {i : Instr} {s u : State} {p : Prim} {ps : List Prim} (q : Progress i s u)
    (ht : (u.core u.cur).todo = p :: ps) : Progress i s (prim u.cur p ps u).state := by
  have hlen : u.cur < u.cores.length := lt_of_todo_ne_nil (by simp [ht])
  cases q with
  | pending hidx hres hi htodo =>
    rw [ht] at htodo
    rcases endsInReturn_cons htodo with hret | ⟨hnr, hnf, hps⟩
    · obtain ⟨r, e⟩ := prim_isRet (h := u.cur) hret ps u
      rw [e]
      refine .returned (by simp [hidx]) ⟨r, by simp [hres]⟩ hi ?_
      rw [setCore_cur, retire_cur, core_setCore_self _ (by simpa using hlen)]
    · obtain ⟨hidx', hres'⟩ := (primSame u.cur p ps u).ret hnr
      have hidx'' := hidx'.trans hidx
      have hres'' := hres'.trans hres
      rcases own_prim ht with ⟨hc, _⟩ | hm
      · exact .pending hidx'' hres'' hi (by rw [hc, ht]; exact htodo)
      · cases hm with
        | on _ _ _ e => exact .pending hidx'' hres'' hi (by rw [e]; exact hps)
        | returned hp => simp [hnr] at hp
        | copied a n _ _ _ _ e =>
          refine .pending hidx'' hres'' hi ?_
          rw [e]
          refine endsInReturn_append (fun q hq => ⟨txrxPlan_noRet _ _ q hq, txrxPlan_noFail _ _ q hq⟩)
            (endsInReturn_append (by simp [isRet, failPrim]) hps)
        | halted _ hp => simp [hp, failPrim] at hnf
        | faulted r _ _ _ hs e => exact .lost hidx'' hres'' (by simp [e]) (.inr (by simp [hs]))
  | returned _ _ _ htodo => simp [ht] at htodo
  | lost hidx hres htodo h =>
    have hp : failPrim p = true := htodo p (by simp [ht])
    obtain ⟨hidx', hres'⟩ := (primSame u.cur p ps u).ret (failPrim_ne hp).1
    refine .lost (hidx'.trans hidx) (hres'.trans hres)
      (own_todo ht (ht ▸ htodo) fun a n hc => by simp [failPrim] at hc) ?_
    rcases own_prim ht with ⟨hc, _⟩ | hm
    · rwa [hc]
    · refine h.imp (ne_running_of_fstatLe hm.fstatLe) fun hs => ?_
      rcases hm.stop with e | ⟨r, e⟩ <;> rw [e]
      · exact hs
      · simp

/-- R151: where the executing core itself enters `fail`, its operation never returns. -/
theorem progress_enter {i : Instr} {s u : State} {h : Nat} {c : Core} (hne : (u.core u.cur).todo ≠ [])
    (q : Progress i s u) (he : Entry u h c) : Progress i s (u.setCore h c) := by
  have here : u.idx = s.idx ∧ u.results = s.results := by
    cases q with
    | pending a b | lost a b => exact ⟨a, b⟩
    | returned _ _ _ ht => exact absurd ht hne
  rcases core_setCore_cases u h u.cur c with ⟨e, -, -⟩ | e
  · refine .lost here.1 here.2 (by rw [setCore_cur, e]; exact he.todo) ?_
    rw [setCore_cur, e]
    rcases he with ⟨d, _, hf, _⟩ | ⟨_, _, ⟨x, hx, _⟩, _⟩
    · exact .inl (by simp [hf])
    · exact .inr (by simp [hx])
  · exact q.congr rfl rfl e

/-- R13, R16: the other cores' primitives are of `fail`, and neither they nor the engine return anything. -/
theorem progress_kept (i : Instr) (s : State) : OwnKept (Progress i s) where
  sched _ _ q := q.congr rfl rfl rfl
  own _ _ _ _ q ht := progress_own q ht
  other u h p ps _ q hk hp := by
    obtain ⟨hi, hr⟩ := (primSame h p ps u).ret (failPrim_ne hp).1
    exact q.congr hi hr (other_own p ps hk)
  engine u _ q := by
    obtain ⟨_, _, hi, hr, _⟩ := engine_same u
    exact q.congr hi hr (engine_own u)
  enter _ _ _ hne q _ he := progress_enter hne q he

/-- R16: where the run stops, a pending operation's core polls. -/
theorem Progress.outcome {i : Instr} {s t : State} (q : Progress i s t)
    (hend : (t.core t.cur).todo = [] ∨ Polling t) :
    (t.idx = s.idx + 1 ∧ (∃ r, t.results = s.results ++ [r]) ∧ (∀ c f, i ≠ .fail c f)) ∨
      (t.idx = s.idx ∧ t.results = s.results ∧
        (Polling t ∨ (t.core t.cur).fstat ≠ .running ∨ (t.core t.cur).stop ≠ none)) := by
  cases q with
  | pending a b _ htodo =>
    refine .inr ⟨a, b, .inl (hend.resolve_left fun h => ?_)⟩
    obtain ⟨qs, r, e, _⟩ := htodo
    simp [h] at e
  | returned a b c _ => exact .inl ⟨a, b, c⟩
  | lost a b _ h => exact .inr ⟨a, b, .inr h⟩

/-- Settles O8: an operation returns at once, ends its core's run before any access, or its run keeps `Progress`. -/
theorem positionAdvancesByOne : Obligations.PositionAdvancesByOne := by
  intro i s t hr ho h
  have hspi : isSpi i = true → Progress i s
      (s.setCore s.cur { s.core s.cur with op := some i, todo := planOf s.cfg i }) := fun hi =>
    .pending rfl rfl (by rintro c f rfl; simp [isSpi] at hi) (by rw [issue_core hr]; exact endsInReturn_planOf _ hi)
  have hfail : ∀ d, Progress i s
      (s.setCore s.cur { s.core s.cur with fstat := .failing d, op := some i, todo := failPlan d }) := fun d =>
    .lost rfl rfl (by rw [issue_core hr]; exact failPlan_all d) (.inl (by rw [issue_core hr]; simp))
  rcases exec_own (progress_kept i s) hr ho (fun hi _ _ => hspi hi) (fun _ _ d _ => hfail d) h with
    ⟨_, hi, r, rfl⟩ | ⟨x, rfl, _⟩ | ⟨_, q, hend⟩
  · exact .inl ⟨rfl, ⟨r, rfl⟩, hi⟩
  · refine .inr ⟨rfl, rfl, .inr (.inr ?_)⟩
    rw [endsIn_eq, State.stopCore, issue_core hr]
    simp
  · exact q.outcome hend

/-! ## No overflow of `txq` and no underflow of `rxq` -/

/-- R85, R87, R90: every TXDATA write that is left follows a satisfied transmit poll, and every RXDATA read a satisfied receive
poll that left its byte in `rxq` (`same` is `P_RX_SAME_READ`). `room` and `byte` are what is known before the first primitive: that
`txq` has room, and that `rxq` has a byte. -/
def Guarded (same : Bool) : Prop → Prop → List Prim → Prop
  | _, _, [] => True
  | _, byte, .pollTx :: ps => Guarded same True byte ps
  | room, byte, .send _ :: ps => room ∧ Guarded same False byte ps
  | room, _, .pollRx :: ps => Guarded same room (same = false) ps
  | room, byte, .readRx :: ps => byte ∧ Guarded same room False ps
  | _, _, .copyBytes _ _ :: ps => Guarded same False False ps
  | room, byte, _ :: ps => Guarded same room byte ps

/-- More may be known. -/
theorem Guarded.mono {same : Bool} {ps : List Prim} {room byte room' byte' : Prop} (g : Guarded same room byte ps)
    (hroom : room → room') (hbyte : byte → byte') : Guarded same room' byte' ps := by
  induction ps generalizing room byte room' byte' with
  | nil => trivial
  | cons p ps ih =>
    cases p with
    | pollTx => exact ih g id hbyte
    | send b => exact ⟨hroom g.1, ih g.2 id hbyte⟩
    | pollRx => exact ih g hroom id
    | readRx => exact ⟨hbyte g.1, ih g.2 hroom id⟩
    | copyBytes => exact ih g id id
    | _ => exact ih g hroom hbyte

/-- `txrx` needs to know nothing before it (R96). -/
theorem guarded_txrxPlan {cfg : Config} {b : Byte} {ps : List Prim} {room byte : Prop}
    (g : Guarded cfg.rxSameRead False False ps) : Guarded cfg.rxSameRead room byte (txrxPlan cfg b ++ ps) := by
  cases hs : cfg.rxSameRead <;> rw [hs] at g <;> simp only [txrxPlan, txPlan, rxPlan, hs, if_true, if_false,
    Bool.false_eq_true, List.cons_append, List.nil_append, Guarded]
  · exact ⟨trivial, trivial, g⟩
  · exact ⟨trivial, g.mono id False.elim⟩

theorem guarded_failPlan (same : Bool) (room byte : Prop) (d : Option Code) : Guarded same room byte (failPlan d) := by
  cases d <;> simp [failPlan, Guarded]

/-- R90 to R102: every operation polls before it writes TXDATA or reads RXDATA. -/
theorem guarded_planOf (cfg : Config) (i : Instr) : Guarded cfg.rxSameRead False False (planOf cfg i) := by
  cases i with
  | tx b => simp [planOf, txPlan, Guarded]
  | rx => cases hs : cfg.rxSameRead <;> simp [planOf, rxPlan, hs, Guarded]
  | txrx b => exact guarded_txrxPlan trivial
  | frameBegin | frameEnd => trivial
  | copy dst addr size =>
    simp only [planOf, copyPlan, commandPlan, addrBytes, framePlan, List.flatMap_cons, List.flatMap_nil, List.append_assoc,
      List.cons_append, List.nil_append]
    change Guarded _ False False (txrxPlan cfg cfg.readOpcode ++ _)
    exact guarded_txrxPlan (guarded_txrxPlan (guarded_txrxPlan (guarded_txrxPlan trivial)))
  | clkdiv | diagEncode | diagDecode | fail => trivial

/-- R38, R90, R93: under the reference controller `txq` is within its depth, what is left to do is guarded by what the FIFOs hold,
and the executing core's run has not ended in an overflow, given the TXCNT law, nor in an underflow. -/
structure FifoSafe (u : State) : Prop where
  iface : u.cfg.iface = .reference
  depth : u.txq.length ≤ u.cfg.txDepth
  todo : Guarded u.cfg.rxSameRead (TxcntLaw u.cfg → u.txq.length < u.cfg.txDepth) (u.rxq ≠ []) (u.core u.cur).todo
  noOverflow : TxcntLaw u.cfg → ∀ b, (u.core u.cur).stop ≠ some (.fault (.txOverflow b))
  noUnderflow : (u.core u.cur).stop ≠ some (.fault .rxUnderflow)

/-- An executing core with the same end, whose primitives left are guarded by the FIFOs as they are now. -/
theorem FifoSafe.next {u u' : State} (q : FifoSafe u) (hcfg : u'.cfg = u.cfg) (hd : u'.txq.length ≤ u.cfg.txDepth)
    (hs : (u'.core u'.cur).stop = (u.core u.cur).stop)
    (ht : Guarded u.cfg.rxSameRead (TxcntLaw u.cfg → u'.txq.length < u.cfg.txDepth) (u'.rxq ≠ []) (u'.core u'.cur).todo) :
    FifoSafe u' := by
  refine ⟨hcfg ▸ q.iface, hcfg ▸ hd, by rw [hcfg]; exact ht, ?_, ?_⟩ <;> rw [hs]
  · rw [hcfg]; exact q.noOverflow
  · exact q.noUnderflow

/-- The executing core as before, and neither less room in `txq` nor a byte less in `rxq`. -/
theorem FifoSafe.congr {u u' : State} (q : FifoSafe u) (hcfg : u'.cfg = u.cfg) (hc : u'.core u'.cur = u.core u.cur)
    (ht : u'.txq.length ≤ u.txq.length) (hr : u.rxq ≠ [] → u'.rxq ≠ []) : FifoSafe u' :=
  q.next hcfg (ht.trans q.depth) (by rw [hc]) (by
    rw [hc]
    exact q.todo.mono (fun h hl => ht.trans_lt (h hl)) hr)

/-- The executing core's run has ended, in none of the two faults. -/
theorem FifoSafe.ended {u u' : State} {x : Stop} (q : FifoSafe u) (hcfg : u'.cfg = u.cfg) (htx : u'.txq = u.txq)
    (hs : (u'.core u'.cur).stop = some x) (ht : (u'.core u'.cur).todo = [])
    (ho : TxcntLaw u.cfg → ∀ b, x ≠ .fault (.txOverflow b)) (hu : x ≠ .fault .rxUnderflow) : FifoSafe u' where
  iface := hcfg ▸ q.iface
  depth := by rw [hcfg, htx]; exact q.depth
  todo := by rw [ht]; trivial
  noOverflow := by rw [hcfg, hs]; exact fun hl b h => ho hl b (Option.some.inj h)
  noUnderflow := by rw [hs]; exact fun h => hu (Option.some.inj h)

/-- R85: a transmit poll of the reference controller that sees room, under the TXCNT law. -/
theorem room_of_txSpace {h : Nat} {s : State} (hi : s.cfg.iface = .reference) (hd : s.txq.length ≤ s.cfg.txDepth)
    (hr : txSpace (readTxcnt h s).1 = true) (hl : TxcntLaw s.cfg) : s.txq.length < s.cfg.txDepth :=
  hl _ hd (by simpa [readTxcnt, hi] using hr)

/-- R32, R87: a receive poll of the reference controller that is satisfied found a byte, and where a read of its own is to follow it
left the byte. -/
theorem byte_of_rxReady {h : Nat} {s : State} (hi : s.cfg.iface = .reference) (hr : (readRxrdy h s).1 = true) :
    s.rxq ≠ [] ∧ (s.cfg.rxSameRead = false → (readRxrdy h s).2.2.rxq = s.rxq) := by
  unfold readRxrdy at hr ⊢
  cases hq : s.rxq with
  | nil => simp [hi, hq] at hr
  | cons b q =>
    refine ⟨by simp, fun hs => ?_⟩
    simp [hi, hq, hs]

/-- R35: a TXDATA write of the reference controller faults where `txq` is full, and only there. -/
theorem full_of_writeTxdata {h : Nat} {b : Byte} {s : State} (hw : writeTxdata h b s = none) :
    s.txq.length = s.cfg.txDepth := by
  unfold writeTxdata at hw
  cases hi : s.cfg.iface
  · simp [hi] at hw
  · simpa [hi] using hw

/-- R36: an RXDATA read of the reference controller faults where `rxq` is empty, and only there. -/
theorem empty_of_readRxdata {h : Nat} {s : State} (hr : readRxdata h s = none) : s.rxq = [] := by
  unfold readRxdata at hr
  cases hi : s.cfg.iface
  · simp [hi] at hr
  · cases hq : s.rxq with
    | nil => rfl
    | cons b q => simp [hi, hq] at hr

/-- A primitive of the executing core: where it would fault, what guards it says that it does not. -/
theorem fifoSafe_own {u : State} {p : Prim} {ps : List Prim} (q : FifoSafe u) (ht : (u.core u.cur).todo = p :: ps) :
    FifoSafe (prim u.cur p ps u).state := by
  have hlen : u.cur < u.cores.length := lt_of_todo_ne_nil (by simp [ht])
  have g := q.todo
  rw [ht] at g
  -- The executing core goes on with `c`, in a state `u'` whose FIFOs guard what is left.
  have on : ∀ (u' : State) (c : Core), u'.cfg = u.cfg → u'.cur = u.cur → u'.cores = u.cores.set u.cur c →
      c.stop = (u.core u.cur).stop → u'.txq.length ≤ u.cfg.txDepth →
      Guarded u.cfg.rxSameRead (TxcntLaw u.cfg → u'.txq.length < u.cfg.txDepth) (u'.rxq ≠ []) c.todo → FifoSafe u' := by
    intro u' c hcfg hcur e hs hd hg
    have hc : u'.core u'.cur = c := by simp [hcur, State.core, e, List.getD, hlen]
    exact q.next hcfg hd (by rw [hc, hs]) (by rw [hc]; exact hg)
  have stop : ∀ r, (TxcntLaw u.cfg → ∀ b, r ≠ .txOverflow b) → r ≠ .rxUnderflow →
      FifoSafe (u.stopCore u.cur (.fault r)) := by
    intro r ho hu
    have hc : (u.stopCore u.cur (.fault r)).core u.cur = _ := core_stopCore_self _ hlen
    exact q.ended rfl rfl (by rw [stopCore_cur, hc]) (by rw [stopCore_cur, hc]) (by simpa using ho) (by simpa using hu)
  have hcase := prim_case u.cur p ps u
  generalize prim u.cur p ps u = m at hcase
  cases hcase with
  | foreign => exact stop _ (by simp) (by simp)
  | @overflow b _ hw =>
    refine stop _ (fun hl _ _ => ?_) (by simp)
    have := g.1 hl
    have := full_of_writeTxdata hw
    omega
  | underflow _ hr => exact absurd (empty_of_readRxdata hr) g.1
  | pollTx _ hr =>
    obtain ⟨w, e, _⟩ := readTxcnt_state u.cur u
    rw [e]
    refine on _ _ (by simp) (by simp) (setTodo_cores_of (by simp) _ _) rfl (by simpa using q.depth) ?_
    refine Guarded.mono (room := True) (byte := u.rxq ≠ []) g (fun _ hl => ?_) (by simp)
    simpa using room_of_txSpace q.iface q.depth hr hl
  | spinTx =>
    obtain ⟨w, e, _⟩ := readTxcnt_state u.cur u
    exact q.congr (by simp [e]) (by simp [e]) (by simp [e]) (by simp [e])
  | send _ hw =>
    rcases writeTxdata_state hw with e | ⟨_, hne, e⟩ <;> rw [e]
    · exact on _ _ rfl rfl (setTodo_cores_of rfl _ _) rfl q.depth (g.2.mono False.elim id)
    · have := q.depth
      exact on _ _ rfl rfl (setTodo_cores_of rfl _ _) rfl (by simp; omega) (g.2.mono False.elim id)
  | pollRx _ hr =>
    obtain ⟨hb, hsame⟩ := byte_of_rxReady q.iface hr
    have e := readRxrdy_cores u.cur u
    have htx := (primSame u.cur .pollRx ps u).tx (by simp)
    obtain ⟨w, hst⟩ := readRxrdy_state u.cur u
    have hcfg : (readRxrdy u.cur u).2.2.cfg = u.cfg ∧ (readRxrdy u.cur u).2.2.cur = u.cur ∧
        (readRxrdy u.cur u).2.2.txq = u.txq := by
      rcases hst with hst | ⟨_, _, _, _, _, _, _, hst⟩ <;> rw [hst] <;> simp
    obtain ⟨h1, h2, h3⟩ := hcfg
    refine on _ _ h1 h2 (setCore_cores_of e _ _) (by simp [core_congr e]) (by simpa [h3] using q.depth) ?_
    refine Guarded.mono (room := TxcntLaw u.cfg → u.txq.length < u.cfg.txDepth) g (by simp [h3]) fun hs => ?_
    simpa [hsame hs] using hb
  | spinRx _ hr =>
    obtain ⟨w, e | ⟨_, _, _, _, _, h1, _⟩⟩ := readRxrdy_state u.cur u
    · exact q.congr (by simp [e]) (by simp [e]) (by simp [e]) (by simp [e])
    · simp [hr] at h1
  | readRx _ hr =>
    obtain ⟨w, e | ⟨_, _, _, e⟩⟩ := readRxdata_state hr <;> rw [e] <;>
      exact on _ _ (by simp) (by simp) (setCore_cores_of (by simp) _ _) (by simp [State.core])
        (by simpa using q.depth) (g.2.mono (by simp) False.elim)
  | readInh =>
    rcases readInhWord_state u.cur u with e | e <;> rw [e] <;>
      exact on _ _ (by simp) (by simp) (setCore_cores_of (by simp) _ _) (by simp) (by simpa using q.depth)
        (g.mono (by simp) (by simp))
  | @writeInh begins =>
    rcases writeInhWord_state u.cur (withInhibit u.cfg.inhibitBit (frameLevel u.cfg begins) (u.core u.cur).inhWord) u with
      e | ⟨_, e⟩ <;> rw [e] <;> exact on _ _ rfl rfl (setTodo_cores_of rfl _ _) rfl q.depth g
  | @store a => exact on _ _ rfl rfl (setTodo_cores_of (s1 := storeByte u.cur a (u.core u.cur).rxByte u) rfl _ _) rfl q.depth g
  | copied =>
    exact on _ _ rfl rfl (setTodo_cores_of rfl _ _) rfl q.depth
      (Guarded.mono (room := False) (byte := False) g False.elim False.elim)
  | copy => exact on _ _ rfl rfl (setTodo_cores_of rfl _ _) rfl q.depth (guarded_txrxPlan g)
  | @con e => exact on _ _ rfl rfl (setTodo_cores_of (s1 := consoleOut u.cur e u) rfl _ _) rfl q.depth g
  | gpio =>
    exact on _ _ (by simp [gpioAmo]) (by simp [gpioAmo]) (setTodo_cores_of (by simp [gpioAmo]) _ _) rfl
      (by simpa [gpioAmo] using q.depth) (g.mono (by simp [gpioAmo]) (by simp [gpioAmo]))
  | halt | ret | retByte => exact on _ _ rfl rfl rfl rfl q.depth trivial

/-- R31: the engine takes bytes from `txq` and adds to `rxq`. -/
theorem fifoSafe_engineStep {u : State} (q : FifoSafe u) : FifoSafe (engineStep u) := by
  have hcfg := (engine_same u).1
  refine q.congr hcfg (engine_own u) (engineStep_queues u).2.2.2.2.2.1 fun hr => ?_
  rcases engineStep_state u with ⟨e, _⟩ | ⟨_, _, rx, _, _, _, _, hrx, e⟩ <;> rw [e]
  · exact hr
  · rcases hrx with ⟨_, rfl, _⟩ | ⟨_, rfl, _⟩ <;> simp [hr]

/-- R13, R38: the other cores' primitives leave the FIFOs. -/
theorem fifoSafe_kept : OwnKept FifoSafe where
  sched _ _ q := q.congr rfl rfl le_rfl id
  own _ _ _ _ q ht := fifoSafe_own q ht
  other u h p ps _ q hk hp := by
    obtain ⟨_, _, _, hsend, hpoll, hread⟩ := failPrim_ne hp
    have same := primSame h p ps u
    exact q.congr same.cfg (other_own p ps hk) (by rw [(same.tx hsend).1]) (by rw [same.rx hpoll hread]; exact id)
  engine _ _ q := fifoSafe_engineStep q
  enter u h c _ q _ he := by
    rcases core_setCore_cases u h u.cur c with ⟨e, rfl, -⟩ | e
    · rcases he with ⟨d, _, _, ht, hs, _⟩ | ⟨_, ht, ⟨x, hx, hk⟩, _⟩
      · exact q.next rfl q.depth (by rw [setCore_cur, e, hs]) (by rw [setCore_cur, e, ht]; exact guarded_failPlan _ _ _ d)
      · refine q.ended (x := x) rfl rfl (by rw [setCore_cur, e, hx]) (by rw [setCore_cur, e, ht]) ?_ ?_ <;>
          rcases hk with ⟨r, rfl⟩ | ⟨code, rfl⟩ <;> simp
    · exact q.congr rfl e le_rfl id

/-- Settles O34: no operation that starts ends in one of the two faults at once, and its run keeps `FifoSafe`. -/
theorem noTxOverflowNoRxUnderflow : Obligations.NoTxOverflowNoRxUnderflow := by
  intro i s t hr ho hi hd h
  have hstop : (s.core s.cur).stop = none := hr.2.2.2
  have start : ∀ c : Core, c.stop = none → Guarded s.cfg.rxSameRead False False c.todo → FifoSafe (s.setCore s.cur c) := by
    intro c hc hg
    refine ⟨hi, hd, ?_, ?_, ?_⟩ <;> rw [issue_core hr]
    · exact hg.mono False.elim False.elim
    · simp [hc]
    · simp [hc]
  have hcfg : t.cfg = s.cfg := ((frame_closed s).exec (.refl s) h).cfg
  rcases exec_own fifoSafe_kept hr ho (fun _ _ _ => start _ hstop (guarded_planOf _ _))
    (fun _ _ d _ => start _ hstop (guarded_failPlan _ _ _ d)) h with ⟨_, _, r, rfl⟩ | ⟨x, rfl, hx⟩ | ⟨_, q, _⟩
  · simp [hstop]
  · rw [endsIn_eq, State.stopCore, issue_core hr]
    rcases hx with ⟨r, rfl⟩ | rfl <;> simp
  · exact ⟨fun hl => q.noOverflow (hcfg ▸ hl), q.noUnderflow⟩

end Sys2Proof.Proofs
end

section
/-! PROOFS. The statements of spec/10_state.md, third part: what any operation and any step leaves of INH and of memory while the
other cores only fail (R23, R44, R70, R106, R151). -/

namespace Sys2Proof.Proofs

open Sys2Proof Sys2Proof.Machine Sys2Proof.Laws

/-! ## What a step is -/

/-- What a step that gives a next state comes to: the operation in progress goes on, the executing core does nothing, it starts
the operation that its next turn starts, or its slot is refused. -/
inductive StepCase (s : State) : State → Prop
  | goesOn (ht : (s.core s.cur).todo ≠ []) : StepCase s (run s)
  | idle (ht : (s.core s.cur).todo = []) : StepCase s (idleStep s)
  | starts {t : State} (i : Instr) (hr : Ready s) (hi : currentOp s = some i) (he : exec i s.turnTaken = .next t) :
      StepCase s t
  | unknown (hr : Ready s) (x : Refusal) : StepCase s (s.turnTaken.refuse x)

theorem stepCase {s t : State} (h : step s = .next t) : StepCase s t := by
  unfold step at h
  split at h
  · cases h
  · rename_i hl
    split at h
    · rename_i hb
      cases h
      exact .goesOn (by simpa [State.busy] using hb)
    · rename_i hb
      have ht : (s.core s.cur).todo = [] := by simpa [State.busy] using hb
      split at h
      · split at h
        · rename_i x _ _
          cases x <;> cases h
        · cases h
          exact .idle ht
      · rename_i hn
        split at h
        · cases h
          exact .idle ht
        · rename_i ho
          have hr : Ready s := by
            have hlen : s.cur < s.cores.length := by
              have : s.cores.length = s.cfg.nCores ∧ s.cur < s.cfg.nCores := by simp [launchOk] at hl; tauto
              omega
            exact ⟨hlen, by simp at ho; exact ho.2, ht, hn⟩
          split at h
          · cases h
            exact .idle ht
          · rename_i slot hs
            split at h
            · rename_i i hd
              exact .starts i hr (by simp [currentOp, ht, hs, hd]) h
            · rename_i sel hd
              cases h
              exact .unknown hr _

/-- A turn while the executing core is in no operation and the others only fail: the controller's INH and memory stay, and what the
executing core has left then is of `fail`. -/
theorem turn_idle {s : State} (t : Turn) (ho : OthersOnlyFail s) (ht : (s.core s.cur).todo = []) :
    let u := (turn t s).state
    u.cfg = s.cfg ∧ u.inh = s.inh ∧ u.mem = s.mem ∧ ∀ p ∈ (u.core u.cur).todo, failPrim p = true := by
  have entry : ∀ h c, Entry s h c → ∀ p ∈ ((s.setCore h c).core (s.setCore h c).cur).todo, failPrim p = true :=
    fun h c he => enter_own (fun p => failPrim p = true) (by simp [ht]) (fun _ => id) he
  cases t with
  | core h =>
    rw [show turn (.core h) s = coreTurn h s from rfl]
    unfold coreTurn
    split
    · exact ⟨rfl, rfl, rfl, by simp [ht]⟩
    · rename_i p ps hp
      have hk : h ≠ s.cur := by rintro rfl; simp [ht] at hp
      have hf := ho h hk p (by simp [hp])
      obtain ⟨_, hinh, hmem, _⟩ := failPrim_ne hf
      have same := primSame h p ps s
      refine ⟨same.cfg, same.inh hinh, same.mem hmem, ?_⟩
      rw [other_own p ps hk]
      simp [ht]
  | engine =>
    obtain ⟨hcfg, _, _, _, hinh, hmem, _⟩ := engine_same s
    refine ⟨hcfg, hinh, hmem, ?_⟩
    change ∀ p ∈ ((engineStep s).core (engineStep s).cur).todo, _
    rw [engine_own]
    simp [ht]
  | trap h cause =>
    rcases trapTurn_cases h cause s with ⟨e, _⟩ | ⟨hh, _, e⟩ <;> rw [e]
    · exact ⟨rfl, rfl, rfl, by simp [ht]⟩
    · obtain ⟨c, e, he⟩ := takeTrap_entry cause hh
      rw [e]
      exact ⟨rfl, rfl, rfl, entry h c he⟩
  | call h code isTrap =>
    rcases callTurn_cases h code isTrap s with e | ⟨_, _, _, _, e⟩ <;> rw [e]
    · exact ⟨rfl, rfl, rfl, by simp [ht]⟩
    · obtain ⟨c, e, _, he⟩ := enterFail_entry h code isTrap s
      rw [e]
      exact ⟨rfl, rfl, rfl, entry h c he⟩

/-- So it is for a step in which the executing core does nothing. -/
theorem idleStep_idle {s : State} (ho : OthersOnlyFail s) (ht : (s.core s.cur).todo = []) :
    let u := idleStep s
    u.cfg = s.cfg ∧ u.inh = s.inh ∧ u.mem = s.mem ∧ ∀ p ∈ (u.core u.cur).todo, failPrim p = true := by
  unfold idleStep
  split
  · rename_i t ts _
    exact turn_idle (s := { s with sched := ts }) t ho ht
  · split
    · exact turn_idle .engine ho ht
    · exact ⟨rfl, rfl, rfl, by simp [ht]⟩

/-! ## INH reads before INH writes -/

/-- The primitive reads or writes INH. -/
def onInh : Prim → Bool
  | .readInh | .writeInh _ => true
  | _ => false

/-- R100, R101: a word that has INH's other bits pairs with any list: the first write writes it, and a read comes before that. -/
theorem inhPaired_of_agree {bit : Nat} {inh w : Word} (h : ∀ k, k ≠ bit → w.getLsbD k = inh.getLsbD k) (ps : List Prim) :
    InhPaired bit inh w ps := by
  induction ps with
  | nil => trivial
  | cons p ps ih =>
    cases p with
    | readInh => trivial
    | writeInh => exact h
    | _ => exact ih

/-- Primitives that leave INH alone say nothing of what follows them. -/
theorem inhPaired_append {bit : Nat} {inh w : Word} {qs ps : List Prim} (hq : ∀ q ∈ qs, onInh q = false) :
    InhPaired bit inh w (qs ++ ps) ↔ InhPaired bit inh w ps := by
  induction qs with
  | nil => rfl
  | cons q qs ih =>
    have h := ih fun x hx => hq x (by simp [hx])
    have hq := hq q (by simp)
    cases q with
    | readInh | writeInh => simp [onInh] at hq
    | _ => exact h

theorem inhPaired_of_onInh {bit : Nat} {inh w : Word} {ps : List Prim} (hp : ∀ p ∈ ps, onInh p = false) :
    InhPaired bit inh w ps := by
  rw [← List.append_nil ps, inhPaired_append hp]
  trivial

theorem onInh_of_failPrim {p : Prim} (h : failPrim p = true) : onInh p = false := by
  cases p <;> simp_all [failPrim, onInh]

theorem txrxPlan_noInh (cfg : Config) (b : Byte) : ∀ p ∈ txrxPlan cfg b, onInh p = false := by
  cases h : cfg.rxSameRead <;> simp [txrxPlan, txPlan, rxPlan, h, onInh]

/-! ## What belongs to an operation -/

/-- A primitive of `fail` belongs to any operation. -/
theorem primFits_of_failPrim {i : Option Instr} {p : Prim} (h : failPrim p = true) : primFits i p := by
  cases p <;> simp_all [failPrim, primFits]

theorem primFits_txrxPlan (cfg : Config) (b : Byte) (i : Option Instr) : ∀ p ∈ txrxPlan cfg b, primFits i p := by
  cases h : cfg.rxSameRead <;> simp [txrxPlan, txPlan, rxPlan, h, primFits]

/-- R102: a round of `copy`'s loop belongs to the `copy` that the loop belongs to. -/
theorem primFits_copyBytes {i : Option Instr} (cfg : Config) {a n : Nat} (h : primFits i (.copyBytes a (n + 1))) :
    ∀ q ∈ txrxPlan cfg 0 ++ [.store a, .copyBytes (a + 1) n], primFits i q := by
  obtain ⟨hf, hw⟩ := h
  intro q hq
  rcases List.mem_append.1 hq with hq | hq
  · exact primFits_txrxPlan cfg 0 i q hq
  · rcases (by simpa using hq : q = .store a ∨ q = .copyBytes (a + 1) n) with rfl | rfl
    · exact hw 0 (by omega)
    · refine ⟨hf, fun k hk => ?_⟩
      have := hw (k + 1) (by omega)
      rwa [show a + (k + 1) = a + 1 + k by omega] at this

/-- R90 to R102: the primitives of an operation belong to it. -/
theorem primFits_planOf (cfg : Config) (i : Instr) : ∀ p ∈ planOf cfg i, primFits (some i) p := by
  cases i with
  | tx b => simp [planOf, txPlan, primFits]
  | rx => cases h : cfg.rxSameRead <;> simp [planOf, rxPlan, h, primFits]
  | txrx b =>
    intro p hp
    rcases List.mem_append.1 hp with hp | hp
    · exact primFits_txrxPlan cfg b _ p hp
    · rw [List.mem_singleton.1 hp]; trivial
  | frameBegin | frameEnd => simp [planOf, framePlan, primFits, framesInh]
  | copy dst addr size =>
    intro p hp
    have frame : ∀ b, p ∈ framePlan b → primFits (some (.copy dst addr size)) p := by
      intro b hp
      rcases (by simpa [framePlan] using hp : p = .readInh ∨ p = .writeInh b) with rfl | rfl <;> rfl
    simp only [planOf, copyPlan, commandPlan, List.mem_append, List.mem_flatMap, List.mem_singleton] at hp
    rcases hp with (((hp | ⟨b, _, hp⟩) | rfl) | hp) | rfl
    · exact frame true hp
    · exact primFits_txrxPlan cfg b _ p hp
    · exact ⟨rfl, fun k hk => ⟨dst, addr, size, rfl, by omega, by omega⟩⟩
    · exact frame false hp
    · trivial
  | clkdiv | diagEncode | diagDecode | fail => simp [planOf]

/-- R100 to R102: an operation that writes INH has read it before. -/
theorem inhPaired_planOf (cfg : Config) (i : Instr) (bit : Nat) (inh w : Word) : InhPaired bit inh w (planOf cfg i) := by
  cases i with
  | tx b => trivial
  | rx => exact inhPaired_of_onInh (by cases h : cfg.rxSameRead <;> simp [planOf, rxPlan, h, onInh])
  | txrx b => exact (inhPaired_append (txrxPlan_noInh cfg b)).2 trivial
  | frameBegin | frameEnd | copy => trivial
  | clkdiv | diagEncode | diagDecode | fail => trivial

/-! ## INH and memory while an operation is in progress -/

/-- R23, R70, R106: while the operation `i` is in progress, and once it is over: what is left to do belongs to it, or is of `fail`;
an INH write to come writes INH's other bits; and since the state `s` INH has changed in the inhibit bit alone, and only if `i`
frames, and memory only where `i` may write. -/
structure OpKeeps (i : Option Instr) (s u : State) : Prop where
  cfg : u.cfg = s.cfg
  fits : ∀ p ∈ (u.core u.cur).todo, primFits i p
  op : (u.core u.cur).op = i ∨ ∀ p ∈ (u.core u.cur).todo, failPrim p = true
  paired : u.cfg.iface = .reference → InhPaired u.cfg.inhibitBit u.inh (u.core u.cur).inhWord (u.core u.cur).todo
  bits : ∀ k, k ≠ s.cfg.inhibitBit → u.inh.getLsbD k = s.inh.getLsbD k
  inh : framesInh i = false → u.inh = s.inh
  mem : ∀ a, ¬ copyWrites i a → readMem u.mem a = readMem s.mem a

/-- What is left of the executing core's operation belongs to it. -/
theorem OpKeeps.todoFits {i : Option Instr} {s u : State} (q : OpKeeps i s u) : TodoFits u := by
  refine ⟨fun p hp => ?_, q.paired⟩
  rcases q.op with e | hf
  · rw [e]; exact q.fits p hp
  · exact primFits_of_failPrim (hf p hp)

/-- INH, memory and the executing core as before. -/
theorem OpKeeps.congr {i : Option Instr} {s u u' : State} (q : OpKeeps i s u) (hcfg : u'.cfg = u.cfg)
    (hc : u'.core u'.cur = u.core u.cur) (hi : u'.inh = u.inh) (hm : u'.mem = u.mem) : OpKeeps i s u' := by
  constructor <;> simp only [hcfg, hc, hi, hm]
  · exact q.cfg
  · exact q.fits
  · exact q.op
  · exact q.paired
  · exact q.bits
  · exact q.inh
  · exact q.mem

/-- INH and memory as before, and nothing but primitives of `fail` left. -/
theorem OpKeeps.failing {i : Option Instr} {s u u' : State} (q : OpKeeps i s u) (hcfg : u'.cfg = u.cfg)
    (hi : u'.inh = u.inh) (hm : u'.mem = u.mem) (hf : ∀ p ∈ (u'.core u'.cur).todo, failPrim p = true) : OpKeeps i s u' where
  cfg := hcfg.trans q.cfg
  fits p hp := primFits_of_failPrim (hf p hp)
  op := .inr hf
  paired _ := inhPaired_of_onInh fun p hp => onInh_of_failPrim (hf p hp)
  bits := hi ▸ q.bits
  inh := hi ▸ q.inh
  mem := hm ▸ q.mem

/-- The operation that the executing core is in before anything of it is performed, or the one that its next turn starts. -/
theorem opKeeps_refl {s : State} (h : TodoFits s) : OpKeeps (currentOp s) s s where
  cfg := rfl
  fits p hp := by
    have : (s.core s.cur).todo ≠ [] := List.ne_nil_of_mem hp
    simpa [currentOp, this] using h.1 p hp
  op := by
    by_cases ht : (s.core s.cur).todo = []
    · exact .inr (by simp [ht])
    · exact .inl (by simp [currentOp, ht])
  paired := h.2
  bits _ _ := rfl
  inh _ := rfl
  mem _ _ := rfl

/-- R13: only an INH read changes a core's INH word. -/
theorem prim_inhWord {h : Nat} {p : Prim} (hp : p ≠ .readInh) (ps : List Prim) (s : State) (k : Nat) :
    ((prim h p ps s).state.core k).inhWord = (s.core k).inhWord := by
  have set : ∀ (s' : State) (c : Core), s'.cores = s.cores.set h c → c.inhWord = (s.core h).inhWord →
      (s'.core k).inhWord = (s.core k).inhWord := by
    intro s' c e hc
    rcases core_of_set e k with ⟨h1, rfl, _⟩ | h1 <;> rw [h1]
    exact hc
  have hcase := prim_case h p ps s
  generalize prim h p ps s = m at hcase
  cases hcase with
  | foreign | overflow | underflow | copied | copy | halt | ret | retByte => exact set _ _ rfl rfl
  | pollTx => exact set _ _ (setTodo_cores_of (readTxcnt_cores h s) _ _) rfl
  | spinTx => exact congrArg _ (core_congr (readTxcnt_cores h s) k)
  | send _ hw => exact set _ _ (setTodo_cores_of (writeTxdata_cores hw) _ _) rfl
  | pollRx =>
    have e := readRxrdy_cores h s
    exact set _ _ (setCore_cores_of e _ _) (by simp [core_congr e])
  | spinRx => exact congrArg _ (core_congr (readRxrdy_cores h s) k)
  | readRx _ hr =>
    have e := readRxdata_cores hr
    exact set _ _ (setCore_cores_of e _ _) (by simp [core_congr e])
  | readInh => exact absurd rfl hp
  | writeInh => exact set _ _ (setTodo_cores_of (writeInhWord_cores h _ s) _ _) rfl
  | @store a => exact set _ _ (setTodo_cores_of (s1 := storeByte h a (s.core h).rxByte s) rfl _ _) rfl
  | @con e => exact set _ _ (setTodo_cores_of (s1 := consoleOut h e s) rfl _ _) rfl
  | @gpio r => exact set _ _ (setTodo_cores_of (s1 := gpioAmo h r s) (by simp [gpioAmo]) _ _) rfl

/-- R24, R32: an INH read leaves the core with the word, which under the reference controller is INH's. -/
theorem prim_readInh {h : Nat} {s : State} (hh : h < s.cores.length) (hi : s.cfg.iface = .reference)
    (hl : h = s.cfg.leadHart) (ps : List Prim) : ((prim h .readInh ps s).state.core h).inhWord = s.inh := by
  have e : readInhWord h s = (s.inh, s.record (.ioR h s.cfg.offInh s.inh)) := by simp [readInhWord, hi]
  have hcase := prim_case h .readInh ps s
  generalize prim h .readInh ps s = m at hcase
  cases hcase with
  | foreign _ hl' => exact absurd hl hl'
  | readInh => rw [e, moved_state, core_setCore_self _ (by simpa using hh)]

/-- R23, R35: an INH write writes the core's word with the inhibit bit replaced, or nothing where it is a draw that reads back
what is written. -/
theorem prim_writeInh (h : Nat) (begins : Bool) (ps : List Prim) (s : State) :
    (prim h (.writeInh begins) ps s).state.inh = s.inh ∨
      (s.cfg.iface = .reference ∧ (prim h (.writeInh begins) ps s).state.inh =
        withInhibit s.cfg.inhibitBit (frameLevel s.cfg begins) (s.core h).inhWord) := by
  have hcase := prim_case h (.writeInh begins) ps s
  generalize prim h (.writeInh begins) ps s = m at hcase
  cases hcase with
  | foreign => exact .inl rfl
  | writeInh =>
    rcases writeInhWord_state h (withInhibit s.cfg.inhibitBit (frameLevel s.cfg begins) (s.core h).inhWord) s with
      e | ⟨hi, e⟩
    · exact .inl (by simp [e])
    · exact .inr ⟨hi, by simp [e]⟩

/-- What is left after a primitive that leaves INH pairs as before. -/
theorem inhPaired_moved {s s' : State} {h : Nat} {p : Prim} {ps : List Prim} {c : Core} (hm : Moved s s' h p ps c)
    {bit : Nat} {inh w : Word} (hp : InhPaired bit inh w ps) : InhPaired bit inh w c.todo := by
  cases hm with
  | on _ _ _ e => rw [e]; exact hp
  | returned _ _ _ _ e | halted _ _ _ _ _ e | faulted _ _ _ _ _ e => rw [e]; trivial
  | copied a n _ _ _ _ e =>
    rw [e]
    exact (inhPaired_append (txrxPlan_noInh _ _)).2 ((inhPaired_append (by simp [onInh])).2 hp)

/-- The pairing after one of the executing core's primitives: after a read or a write of INH the core's word has INH's other bits. -/
theorem inhPaired_own {u : State} {p : Prim} {ps : List Prim} (ht : (u.core u.cur).todo = p :: ps)
    (hi : u.cfg.iface = .reference)
    (hp : InhPaired u.cfg.inhibitBit u.inh (u.core u.cur).inhWord (p :: ps)) :
    let u' := (prim u.cur p ps u).state
    InhPaired u.cfg.inhibitBit u'.inh (u'.core u'.cur).inhWord (u'.core u'.cur).todo := by
  intro u'
  have hlen : u.cur < u.cores.length := lt_of_todo_ne_nil (by simp [ht])
  have hcur : u'.cur = u.cur := (prim_queues u.cur p ps u).2.2.1
  have same := primSame u.cur p ps u
  rcases own_prim ht with ⟨hc, hpoll⟩ | hm
  · have hinh : u'.inh = u.inh := same.inh (by rintro b rfl; simp at hpoll)
    rw [hc, hinh, ht]
    exact hp
  · have word : p ≠ .readInh → (u'.core u'.cur).inhWord = (u.core u.cur).inhWord := fun hne => by
      rw [hcur]; exact prim_inhWord hne ps u u.cur
    cases hk : onInh p with
    | false =>
      have hinh : u'.inh = u.inh := same.inh (by rintro b rfl; simp [onInh] at hk)
      rw [hinh, word (by rintro rfl; simp [onInh] at hk)]
      exact inhPaired_moved hm ((inhPaired_append (qs := [p]) (by simpa using hk)).1 hp)
    | true =>
      cases p with
      | readInh =>
        by_cases hl : u.cur = u.cfg.leadHart
        · refine inhPaired_of_agree (fun k _ => ?_) _
          rw [hcur, prim_readInh hlen hi hl, same.inh (by simp)]
        · have e : u' = u.stopCore u.cur _ := congrArg Micro.state (if_neg hl)
          rw [e, stopCore_cur, core_stopCore_self _ hlen]
          trivial
      | writeInh b =>
        refine inhPaired_of_agree (fun k hne => ?_) _
        rw [word (by simp)]
        rcases prim_writeInh u.cur b ps u with e | ⟨_, e⟩ <;> rw [e]
        · exact hp k hne
        · rw [getLsbD_withInhibit_ne hne]
      | _ => simp [onInh] at hk

/-- R23: one of the executing core's primitives leaves INH's other bits, and all of INH where it is no INH write. -/
theorem inh_own {u : State} {p : Prim} {ps : List Prim}
    (hp : u.cfg.iface = .reference → InhPaired u.cfg.inhibitBit u.inh (u.core u.cur).inhWord (p :: ps)) :
    let u' := (prim u.cur p ps u).state
    (∀ k, k ≠ u.cfg.inhibitBit → u'.inh.getLsbD k = u.inh.getLsbD k) ∧ ((∀ b, p ≠ .writeInh b) → u'.inh = u.inh) := by
  refine ⟨fun k hk => ?_, (primSame u.cur p ps u).inh⟩
  by_cases hw : ∃ b, p = .writeInh b
  · obtain ⟨b, rfl⟩ := hw
    rcases prim_writeInh u.cur b ps u with e | ⟨hi, e⟩ <;> rw [e]
    rw [getLsbD_withInhibit_ne hk]
    exact hp hi k hk
  · rw [(primSame u.cur p ps u).inh (fun b e => hw ⟨b, e⟩)]

/-- R44: one of the executing core's primitives writes memory only where its operation may. -/
theorem mem_own {i : Option Instr} {h : Nat} {p : Prim} {ps : List Prim} {u : State} (hp : primFits i p) {a : Nat}
    (ha : ¬ copyWrites i a) : readMem (prim h p ps u).state.mem a = readMem u.mem a := by
  by_cases hs : ∃ b, p = .store b
  · obtain ⟨b, rfl⟩ := hs
    exact readMem_writeMem_ne _ _ fun e => ha (e ▸ hp)
  · rw [(primSame h p ps u).mem fun b e => hs ⟨b, e⟩]

/-- One of the executing core's primitives. -/
theorem opKeeps_own {i : Option Instr} {s u : State} {p : Prim} {ps : List Prim} (q : OpKeeps i s u)
    (ht : (u.core u.cur).todo = p :: ps) : OpKeeps i s (prim u.cur p ps u).state := by
  have hcfg : (prim u.cur p ps u).state.cfg = u.cfg := (primSame u.cur p ps u).cfg
  have hp : primFits i p := q.fits p (by simp [ht])
  obtain ⟨hbits, hinh⟩ := inh_own (ps := ps) (ht ▸ q.paired)
  refine ⟨hcfg.trans q.cfg, own_todo ht (ht ▸ q.fits) fun _ _ => primFits_copyBytes _, ?_, fun hi => ?_, fun k hk => ?_,
    fun hf => ?_, fun a ha => ?_⟩
  · rcases own_prim ht with ⟨hc, _⟩ | hm
    · rw [hc]; exact q.op
    · cases hm with
      | on _ _ ho e =>
        rw [ho, e]
        exact q.op.imp_right fun hf r hr => hf r (by simp [ht, hr])
      | returned _ _ _ _ e | halted _ _ _ _ _ e | faulted _ _ _ _ _ e => exact .inr (by simp [e])
      | copied a n hcopy _ _ ho _ =>
        rw [ho]
        exact .inl (q.op.resolve_right fun hf => by simpa [hcopy, failPrim] using hf p (by simp [ht]))
  · rw [hcfg] at hi ⊢
    exact inhPaired_own ht hi (ht ▸ q.paired hi)
  · rw [hbits k (q.cfg ▸ hk)]
    exact q.bits k hk
  · rw [hinh (by rintro b rfl; simp [primFits, hf] at hp)]
    exact q.inh hf
  · rw [mem_own hp ha]
    exact q.mem a ha

/-- R13, R23, R44: the other cores and the engine leave INH and memory, and entering `fail` leaves both. -/
theorem opKeeps_kept (i : Option Instr) (s : State) : OwnKept (OpKeeps i s) where
  sched _ _ q := q.congr rfl rfl rfl rfl
  own _ _ _ _ q ht := opKeeps_own q ht
  other u h p ps _ q hk hp := by
    obtain ⟨_, hinh, hmem, _⟩ := failPrim_ne hp
    have same := primSame h p ps u
    exact q.congr same.cfg (other_own p ps hk) (same.inh hinh) (same.mem hmem)
  engine u _ q := by
    obtain ⟨hcfg, _, _, _, hinh, hmem, _⟩ := engine_same u
    exact q.congr hcfg (engine_own u) hinh hmem
  enter u h c _ q _ he := by
    rcases core_setCore_cases u h u.cur c with ⟨e, -, -⟩ | e
    · exact q.failing rfl rfl rfl (by rw [setCore_cur, e]; exact he.todo)
    · exact q.congr rfl e rfl rfl

/-- A state without anything left to do, with INH and memory as in `s`. -/
theorem opKeeps_over {i : Option Instr} {s u : State} (hcfg : u.cfg = s.cfg) (hi : u.inh = s.inh) (hm : u.mem = s.mem)
    (hf : ∀ p ∈ (u.core u.cur).todo, failPrim p = true) : OpKeeps i s u where
  cfg := hcfg
  fits p hp := primFits_of_failPrim (hf p hp)
  op := .inr hf
  paired _ := inhPaired_of_onInh fun p hp => onInh_of_failPrim (hf p hp)
  bits _ _ := by rw [hi]
  inh _ := hi
  mem _ _ := by rw [hm]

/-- An operation on a core that can start it, in any schedule. -/
theorem opKeeps_exec {i : Instr} {s t : State} (hr : Ready s) (ho : OthersOnlyFail s) (h : exec i s = .next t) :
    OpKeeps (some i) s t := by
  have hspi : OpKeeps (some i) s (s.setCore s.cur { s.core s.cur with op := some i, todo := planOf s.cfg i }) := by
    refine ⟨rfl, ?_, ?_, ?_, fun _ _ => rfl, fun _ => rfl, fun _ _ => rfl⟩ <;> rw [issue_core hr]
    · exact primFits_planOf s.cfg i
    · exact .inl rfl
    · exact fun _ => inhPaired_planOf _ _ _ _ _
  have hfail : ∀ d, OpKeeps (some i) s
      (s.setCore s.cur { s.core s.cur with fstat := .failing d, op := some i, todo := failPlan d }) := fun d =>
    opKeeps_over rfl rfl rfl (by rw [issue_core hr]; exact failPlan_all d)
  rcases exec_own (opKeeps_kept (some i) s) hr ho (fun _ _ _ => hspi) (fun _ _ d _ => hfail d) h with
    ⟨_, _, r, rfl⟩ | ⟨x, rfl, _⟩ | ⟨_, q, _⟩
  · exact opKeeps_over rfl rfl rfl (by rw [retire_cur, retire_core, hr.2.2.1]; simp)
  · exact opKeeps_over rfl rfl rfl (by rw [endsIn_eq, stopCore_cur, todo_stopCore_self]; simp)
  · exact q

/-- A step, in any schedule. -/
theorem opKeeps_step {s t : State} (ho : OthersOnlyFail s) (hf : TodoFits s) (h : step s = .next t) :
    OpKeeps (currentOp s) s t := by
  have q := opKeeps_refl hf
  cases stepCase h with
  | goesOn => exact ((opKeeps_kept (currentOp s) s).run ho q).2.1
  | idle ht =>
    obtain ⟨hcfg, hinh, hmem, hfail⟩ := idleStep_idle ho ht
    exact opKeeps_over hcfg hinh hmem hfail
  | starts i hr hi he =>
    have q' := opKeeps_exec (s := s.turnTaken) hr ho he
    rw [hi]
    exact ⟨q'.cfg, q'.fits, q'.op, q'.paired, q'.bits, q'.inh, q'.mem⟩
  | unknown _ x => exact opKeeps_over rfl rfl rfl (by rw [State.refuse, stopCore_cur, todo_stopCore_self]; simp)

/-- Settles O58: `opKeeps_exec` for an operation that starts, `opKeeps_step` for a step. -/
theorem inhOtherBitsKept : Obligations.InhOtherBitsKept := by
  refine ⟨fun i s t hr ho h => ?_, fun s t ho hf h => ?_⟩
  · have q := opKeeps_exec hr ho h
    refine ⟨q.bits, fun hi => q.inh ?_⟩
    cases i with
    | frameBegin | frameEnd | copy => exact hi.elim
    | tx | rx | txrx | clkdiv | diagEncode | diagDecode | fail => rfl
  · have q := opKeeps_step ho hf h
    exact ⟨q.todoFits, q.bits, q.inh⟩

/-- Settles O59: `opKeeps_exec` for an operation that starts, `opKeeps_step` for a step. -/
theorem onlyCopyWritesMemory : Obligations.OnlyCopyWritesMemory := by
  refine ⟨fun i s t hr ho h a ha => ?_, fun s t ho hf h a ha => (opKeeps_step ho hf h).mem a ha⟩
  refine (opKeeps_exec hr ho h).mem a ?_
  rintro ⟨dst, addr, size, hi, h1, h2⟩
  have := ha dst addr size (Option.some.inj hi)
  omega

end Sys2Proof.Proofs
end

section
/-! PROOFS. The statements of spec/10_state.md, fourth part: reset and launch (R42, R43), the outcomes that come before any access
(R26, R57, R128), and the controller operations of a core that goes on alone, with their full next states (R24, R35 to R37, R90 to
R102). -/

namespace Sys2Proof.Proofs

open Sys2Proof Sys2Proof.Machine Sys2Proof.Laws

/-! ## Reset and launch -/

/-- Settles O4: every test before `exec` in a step goes the way that the hypotheses say. -/
theorem stepRunsDecodedOperation : Obligations.StepRunsDecodedOperation := by
  intro s slot i hl ⟨_, hr, ht, hn⟩ ho hf hd
  have hb : s.busy = false := by simp [State.busy, ht]
  unfold step
  simp [hl, hb, hn, ho, hr, hf, hd]
  rfl

/-- Settles O11, by evaluation of the reset state. -/
theorem resetState : Obligations.ResetState :=
  ⟨rfl, rfl, by decide⟩

/-- Every core of the reset state, and every one that it does not have, is a core at reset. -/
theorem reset_core (h : Nat) : State.reset.core h = Core.reset := by
  rcases h with _ | _ | h <;> rfl

/-- R38: the reset configuration meets the TXCNT law. -/
theorem txcntLaw_ref : TxcntLaw Config.ref := by
  have : ∀ n, n ≤ 16 → txSpace (Config.ref.txcntFn.getD n 0xFF) = true → n < 16 := by decide
  exact this

/-- Settles O12: the launch premises by evaluation, the invariants because every core is one at reset. -/
theorem resetMeetsLaunchPremises : Obligations.ResetMeetsLaunchPremises := by
  refine ⟨⟨⟨rfl, rfl⟩, by unfold lpFrameIdle; decide, by unfold lpConfigOk; decide, by unfold lpRunning; decide,
    by unfold lpNoFault; decide⟩, by decide, rfl, txcntLaw_ref, by unfold FifosWithinDepth; decide, ?_, ?_, ?_, ?_, ?_, ?_⟩
  · have : ∀ c ∈ State.reset.cores, c.todo = [] := by decide
    exact fun c hc _ => this c hc
  · exact fun e he => absurd he List.not_mem_nil
  · intro h _ p hp
    rw [reset_core] at hp
    exact absurd hp List.not_mem_nil
  · intro h _ p hp
    rw [reset_core] at hp
    exact absurd hp List.not_mem_nil
  · refine ⟨fun p hp => ?_, fun _ => ?_⟩
    · rw [reset_core] at hp
      exact absurd hp List.not_mem_nil
    · rw [reset_core]
      trivial
  · intro h
    rw [reset_core]
    exact fun p hp => absurd hp List.not_mem_nil

/-- The enumerants in the order of the table of their values (R118). -/
def bootErrors : List BootError :=
  [.unhandledMedium, .unhandledBootRoutine, .partitionNotFound, .mediumCopy, .sdCmd0, .sdCmd8, .sdAcmd41, .sdCmd58, .sdCmd16,
    .sdCmd18, .sdCmd18Crc, .unexpected]

/-- An enumerant's place is where the list has it. -/
theorem bootErrors_errIndex (e : BootError) : bootErrors[errIndex e]? = some e := by
  cases e <;> rfl

theorem errIndex_injective {e e' : BootError} (h : errIndex e = errIndex e') : e = e' := by
  have he := bootErrors_errIndex e
  rw [h, bootErrors_errIndex] at he
  exact (Option.some.inj he).symm

theorem errIndex_lt (e : BootError) : errIndex e < 12 :=
  (List.getElem?_eq_some_iff.1 (bootErrors_errIndex e)).1

/-- R119: in a configuration that launches, each enumerant's value fits 56 bits, and no two have one value. -/
theorem errCode_of_errCodesOk {cfg : Config} (h : errCodesOk cfg = true) :
    (∀ e, (errCode cfg e).toNat < 2 ^ 56) ∧ ∀ e e', errCode cfg e = errCode cfg e' → e = e' := by
  obtain ⟨⟨hlen, hnd⟩, hlt⟩ : (cfg.errCodes.length = 12 ∧ cfg.errCodes.Nodup) ∧
      ∀ c ∈ cfg.errCodes, c.toNat < 2 ^ 56 := by simpa [errCodesOk] using h
  have hidx : ∀ e, errIndex e < cfg.errCodes.length := fun e => by rw [hlen]; exact errIndex_lt e
  have hcode : ∀ e, errCode cfg e = cfg.errCodes[errIndex e]'(hidx e) := fun e => by simp [errCode, List.getD, hidx e]
  refine ⟨fun e => hcode e ▸ hlt _ (List.getElem_mem _), fun e e' he => ?_⟩
  rw [hcode, hcode, hnd.getElem_inj_iff] at he
  exact errIndex_injective he

/-- Settles O13: a state that may launch has a configuration with none of these parameters out of range. -/
theorem badConfigurationIsRefused : Obligations.BadConfigurationIsRefused := by
  intro s hbad
  cases hl : launchOk s with
  | false => simp [step, hl]
  | true =>
    exfalso
    obtain ⟨ha, hf, hs, he⟩ : alignedOk s.cfg = true ∧ fieldsOk s.cfg = true ∧ sameReadOk s.cfg = true ∧
        errCodesOk s.cfg = true := by simp [launchOk, configOk] at hl; tauto
    obtain ⟨hwide, hinj⟩ := errCode_of_errCodesOk he
    simp only [alignedOk, spiOffs, gpioOffs, List.all_append, List.all_cons, List.all_nil, Bool.and_eq_true, beq_iff_eq] at ha
    obtain ⟨⟨⟨htx, hrx⟩, hinh⟩, hgpio, hmask⟩ : ((s.cfg.txByteLsb ≤ 24 ∧ s.cfg.rxByteLsb ≤ 24) ∧ s.cfg.inhibitBit ≤ 31) ∧
        s.cfg.gpioFaultBit ≤ 31 ∧ s.cfg.rxrdyMask ≠ 0 := by simpa [fieldsOk, and_assoc] using hf
    -- What is left of the list once the offsets, the positions and the mask are struck out.
    simp only [ha, hmask, Nat.not_lt.2 htx, Nat.not_lt.2 hrx, Nat.not_lt.2 hinh, Nat.not_lt.2 hgpio, ne_eq, not_true,
      false_or] at hbad
    rcases hbad with ⟨h1, h2⟩ | ⟨e, h⟩ | ⟨e, e', h, h'⟩
    · simp only [sameReadOk, h1, Bool.not_true, Bool.false_or, Bool.and_eq_true, beq_iff_eq] at hs
      exact h2 hs.1
    · exact absurd (hwide e) (Nat.not_lt.2 h)
    · exact h (hinj e e' h')

/-! ## Before any access -/

/-- Settles O15: the answer is `composeCode`'s. -/
theorem encoderIsPure : Obligations.EncoderIsPure := by
  intro stage isTrap code
  refine ⟨composeCode stage isTrap code, fun s hr => ?_⟩
  rw [exec_diagEncode hr]
  cases composeCode stage isTrap code <;> rfl

/-- R26: an operation on the controller on another core than the lead. -/
theorem exec_foreign {s : State} (hr : Ready s) (hl : s.cur ≠ s.cfg.leadHart) (i : Instr) (k : State → State) :
    operate (leadOnly i k) s = .next (s.endsIn (.fault (.foreignAccess s.cur (some i)))) := by
  rw [ready_exec hr]
  unfold leadOnly
  rw [if_neg hl]
  rfl

/-- Settles O49: each of the six operations asks for the lead core first. -/
theorem foreignAccessFaults : Obligations.ForeignAccessFaults := by
  intro s i hr hl hi
  cases i with
  | tx | rx | txrx | frameBegin | frameEnd | copy => exact exec_foreign hr hl _ _
  | clkdiv | diagEncode | diagDecode | fail => exact hi.elim

/-- R57: a range of bytes meets a register block where one of its bytes is in it. -/
theorem meetsDevice_of_mem {cfg : Config} {first n a : Nat} (h1 : first ≤ a) (h2 : a < first + n)
    (hb : (cfg.spiBase ≤ a ∧ a < cfg.spiBase + cfg.spiBytes) ∨ (cfg.gpioBase ≤ a ∧ a < cfg.gpioBase + cfg.gpioBytes)) :
    meetsDevice cfg first n = true := by
  simp only [meetsDevice, deviceBlocks, List.any_cons, List.any_nil, Bool.or_false, Bool.or_eq_true, decide_eq_true_eq]
  omega

/-- R106: `copy` on the lead core: the two checks, and then its primitives. -/
theorem exec_copy_lead {s : State} (hr : LeadReady s) (dst addr size : Word) :
    exec (.copy dst addr size) s = .next (
      if dst.toNat + size.toNat > 2 ^ 32 then s.endsIn (.refused .dstWrap)
      else if size.toNat ≠ 0 ∧ meetsDevice s.cfg dst.toNat size.toNat then s.endsIn (.refused .dstOverlap)
      else perform (.copy dst addr size) (copyPlan s.cfg dst addr size ++ [.ret .ok]) s) := by
  change execCopy dst addr size s = _
  unfold execCopy
  rw [ready_exec hr.1]
  unfold leadOnly
  rw [if_pos hr.2]
  rfl

/-- Settles O41: the lead is asked for first, then the range, then the register blocks. -/
theorem copyIsRefusedBeforeAnyAccess : Obligations.CopyIsRefusedBeforeAnyAccess := by
  intro s dst addr size hr
  refine ⟨fun hl => exec_foreign hr hl _ _, fun hl hw => ?_, fun hl hw ⟨a, h1, h2, hb⟩ => ?_⟩
  · rw [exec_copy_lead ⟨hr, hl⟩, if_pos hw]
  · have hm := meetsDevice_of_mem h1 h2 hb
    rw [exec_copy_lead ⟨hr, hl⟩, if_neg (by omega), if_pos ⟨by omega, hm⟩]

/-! ## An engine turn -/

/-- R31, R33: the device's answer and the wire after it are those of one exchange. -/
theorem exchangeOne_eq (s : State) (level : Bool) (b : Byte) :
    exchangeOne level (s.miso, s.wire) b = (s.answered.miso, s.wire ++ [⟨level, b, s.answer level b⟩]) := by
  unfold exchangeOne State.answer State.answered
  cases s.miso <;> rfl

/-- R34: the answer is the last one on the wire. -/
theorem answer_of_exchangeOne (s : State) (level : Bool) (b : Byte) :
    ((exchangeOne level (s.miso, s.wire) b).2.map Exchange.miso).getLastD 0 = s.answer level b := by
  simp [exchangeOne_eq]

/-- Settles O35: the step is the listed turn (`step_listed`), and the turn one engine step. -/
theorem engineTurnExchangesHead : Obligations.EngineTurnExchangesHead := by
  intro s b q ts hl ht hi hs hq
  dsimp only
  rw [step_listed hl ht hs (by simp), answer_of_exchangeOne, exchangeOne_eq]
  refine ⟨fun hf hfull => ?_, fun hf hroom => ?_, fun hf => ?_⟩
  · simp [turn, engineStep, hi, hf, hq, hfull, inhLevel, State.answer, State.answered, State.record]
  · simp [turn, engineStep, hi, hf, hq, hroom, inhLevel, State.answer, State.answered, State.record]
  · obtain ⟨r, hr⟩ := Option.ne_none_iff_exists'.1 hf
    simp [turn, engineStep, hi, hr]

/-! ## Polls and transfers, alone -/

/-- The executing core is the lead core and one of the machine's, and no turn is listed. -/
structure AloneOnLead (s : State) : Prop where
  sched : s.sched = []
  lead : s.cur = s.cfg.leadHart
  lt : s.cur < s.cores.length

/-! R9, R26: what the lead core's primitives on the controller come to, each by the read or write that it makes. -/

theorem prim_pollTx {h : Nat} {s : State} (hl : h = s.cfg.leadHart) (ps : List Prim) : prim h .pollTx ps s =
    if txSpace (readTxcnt h s).1 then .moved ((readTxcnt h s).2.setTodo h ps) else .spun (readTxcnt h s).2 :=
  onController_lead _ hl

theorem prim_send {h : Nat} {s s' : State} {b : Byte} (hl : h = s.cfg.leadHart) (hw : writeTxdata h b s = some s')
    (ps : List Prim) : prim h (.send b) ps s = .moved (s'.setTodo h ps) := by
  have e : prim h (.send b) ps s = match writeTxdata h b s with
      | some s' => .moved (s'.setTodo h ps)
      | none => .moved (s.stopCore h (.fault (.txOverflow b))) := onController_lead _ hl
  rw [e, hw]

theorem prim_pollRx {h : Nat} {s s' : State} {b : Byte} (hl : h = s.cfg.leadHart) (hr : readRxrdy h s = (true, b, s'))
    (ps : List Prim) : prim h .pollRx ps s = .moved (s'.setCore h { s'.core h with
      todo := ps, rxByte := if s.cfg.rxSameRead then b else (s'.core h).rxByte }) := by
  have e : prim h .pollRx ps s =
      if (readRxrdy h s).1 then .moved ((readRxrdy h s).2.2.setCore h { (readRxrdy h s).2.2.core h with
        todo := ps
        rxByte := if s.cfg.rxSameRead then (readRxrdy h s).2.1 else ((readRxrdy h s).2.2.core h).rxByte })
      else .spun (readRxrdy h s).2.2 := onController_lead _ hl
  rw [e, hr]
  rfl

theorem prim_readRx {h : Nat} {s s' : State} {b : Byte} (hl : h = s.cfg.leadHart) (hr : readRxdata h s = some (b, s'))
    (ps : List Prim) : prim h .readRx ps s = .moved (s'.setCore h { s'.core h with todo := ps, rxByte := b }) := by
  have e : prim h .readRx ps s = match readRxdata h s with
      | some r => .moved (r.2.setCore h { r.2.core h with todo := ps, rxByte := r.1 })
      | none => .moved (s.stopCore h (.fault .rxUnderflow)) := onController_lead _ hl
  rw [e, hr]

theorem prim_readInh_lead {h : Nat} {s : State} (hl : h = s.cfg.leadHart) (ps : List Prim) : prim h .readInh ps s =
    .moved ((readInhWord h s).2.setCore h { (readInhWord h s).2.core h with todo := ps, inhWord := (readInhWord h s).1 }) :=
  onController_lead _ hl

theorem prim_writeInh_lead {h : Nat} {s : State} (hl : h = s.cfg.leadHart) (begins : Bool) (ps : List Prim) :
    prim h (.writeInh begins) ps s = .moved ((writeInhWord h
      (withInhibit s.cfg.inhibitBit (frameLevel s.cfg begins) (s.core h).inhWord) s).setTodo h ps) :=
  onController_lead _ hl

/-- The executing core has started `i`: it is in it, with all its primitives to do. -/
def starting (s : State) (i : Instr) : State :=
  s.setCore s.cur { s.core s.cur with op := some i, todo := planOf s.cfg i }

theorem starting_core {s : State} (hc : s.cur < s.cores.length) (i : Instr) :
    (starting s i).core (starting s i).cur = { s.core s.cur with op := some i, todo := planOf s.cfg i } :=
  core_setCore_self _ hc

theorem starting_todo {s : State} (hc : s.cur < s.cores.length) (i : Instr) :
    ((starting s i).core (starting s i).cur).todo = planOf s.cfg i := by
  rw [starting_core hc]

theorem starting_alone {s : State} (hr : LeadReady s) (hs : s.sched = []) (i : Instr) : AloneOnLead (starting s i) :=
  ⟨hs, hr.2, by simpa [starting] using hr.1.1⟩

/-- R26, R82: on the lead core an operation on the controller runs, and a `copy` does where its range is admitted (R106). -/
theorem exec_starting {s : State} {i : Instr} (hr : LeadReady s) (hi : isSpi i = true)
    (hc : ∀ dst addr size, i = .copy dst addr size → CopyRange s.cfg dst size) :
    exec i s = .next (run (starting s i)) := by
  cases i with
  | copy dst addr size =>
    obtain ⟨h1, h2⟩ := hc dst addr size rfl
    rw [exec_copy_lead hr, if_neg (by omega), if_neg fun h => h2.elim h.1 fun h2 => by simp [h2] at h]
    rfl
  | tx | rx | txrx | frameBegin | frameEnd => exact exec_perform hr _ _
  | clkdiv | diagEncode | diagDecode | fail => simp [isSpi] at hi

/-- Settles O25: the poll and the write (`run_tx`), and then the return. -/
theorem txSendsByte : Obligations.TxSendsByte := by
  intro s b hr ha hb hsp hd
  have hc : s.cur < s.cores.length := hr.1.1
  obtain ⟨w, hw, hrun⟩ := run_tx (s := starting s (.tx b)) ha hr.2 (by simpa [starting] using hc) hb hsp hd
    (ps := [.ret .unit]) (starting_todo hc _)
  refine ⟨w, hw, ?_⟩
  rw [exec_starting hr rfl (by simp), hrun, run_ret (r := .unit)]
  · simp [starting, State.returns, State.setCore, State.core, drawn_eq, txWord, hc]
  · simpa [starting] using ha.2
  · simpa [starting] using hc
  · simp [starting, State.core, hc]

/-! ### Under the generic interface -/

/-- R24: the next draw, where one is listed. -/
theorem draw_of_generic {s : State} {w : Word} {ws : List Word} (hd : GenericDraws s (w :: ws)) :
    s.draw = w ∧ s.drawn = { s with draws := ws } := by
  simp [State.draw, State.drawn, hd.2.2]

/-- R24: a TXCNT read shows the draw. -/
theorem readTxcnt_generic {s : State} {w : Word} {ws : List Word} (hd : GenericDraws s (w :: ws)) (h : Nat) :
    readTxcnt h s = (txcntTop w, { s with draws := ws, hist := s.hist ++ [.ioR h s.cfg.offTxcnt w] }) := by
  simp [readTxcnt, hd.1, draw_of_generic hd, State.record]

/-- R24: an RXRDY read shows the draw. -/
theorem readRxrdy_generic {s : State} {w : Word} {ws : List Word} (hd : GenericDraws s (w :: ws)) (h : Nat) :
    readRxrdy h s = (rxReady s.cfg.rxrdyMask w, getField s.cfg.rxByteLsb w,
      { s with draws := ws, hist := s.hist ++ [.ioR h s.cfg.offRxrdy w] }) := by
  simp [readRxrdy, rxrdyRead, hd.1, draw_of_generic hd, State.record]

/-- R24: an RXDATA read shows the draw. -/
theorem readRxdata_generic {s : State} {w : Word} {ws : List Word} (hd : GenericDraws s (w :: ws)) (h : Nat) :
    readRxdata h s = some (getField s.cfg.rxByteLsb w,
      { s with draws := ws, hist := s.hist ++ [.ioR h s.cfg.offRxdata w] }) := by
  simp [readRxdata, hd.1, draw_of_generic hd, State.record]

/-- R20, R24: a TXDATA write is an event, and nothing faults. -/
theorem writeTxdata_generic {s : State} (hi : s.cfg.iface = .generic) (h : Nat) (b : Byte) :
    writeTxdata h b s = some { s with
      txdata := txWord s.cfg.txByteLsb b, hist := s.hist ++ [.ioW h s.cfg.offTxdata (txWord s.cfg.txByteLsb b)] } := by
  simp [writeTxdata, hi, State.record]

/-- R85, R89: transmit polls that read in vain take their draws, and the next poll is still to come. -/
theorem run_pollTx_vain {s : State} {ps : List Prim} {w : Word} {ws rest : List Word} (hl : s.cur = s.cfg.leadHart)
    (ht : (s.core s.cur).todo = .pollTx :: ps) (hd : GenericDraws s (ws ++ w :: rest))
    (hws : ∀ v ∈ ws, 0x0F ≤ (v >>> 24).toNat) :
    run s = run { s with draws := w :: rest, hist := s.hist ++ ws.map (.ioR s.cur s.cfg.offTxcnt) } := by
  induction ws generalizing s with
  | nil =>
    obtain ⟨_, _, hdraws⟩ := hd
    rw [List.map_nil, List.append_nil, ← show s.draws = w :: rest from hdraws]
  | cons v ws ih =>
    let s' : State := { s with draws := ws ++ w :: rest, hist := s.hist ++ [.ioR s.cur s.cfg.offTxcnt v] }
    have hv : ¬ txSpace (txcntTop v) = true := by
      rw [txSpace_iff, txcntTop_toNat]
      have := hws v (by simp)
      omega
    have hspun : coreTurn s.cur s = .spun s' := by
      unfold coreTurn
      rw [ht]
      dsimp only
      rw [prim_pollTx hl, readTxcnt_generic hd, if_neg hv]
      rfl
    have hwait : waitTurn s' = some s' := by simp [waitTurn, s', hd.1]
    rw [run_waited hd.2.1 hspun hwait, ih (s := s') hl ht ⟨hd.1, hd.2.1, rfl⟩ fun x hx => hws x (by simp [hx])]
    simp [s']

/-- R85, R90: a transmit poll that is satisfied, and the write after it. -/
theorem run_tx_generic {s : State} {b : Byte} {ps : List Prim} {w : Word} {rest : List Word} (ha : AloneOnLead s)
    (hd : GenericDraws s (w :: rest)) (hw : (w >>> 24).toNat < 0x0F) (ht : (s.core s.cur).todo = .pollTx :: .send b :: ps) :
    run s = run { s with
      draws := rest
      txdata := txWord s.cfg.txByteLsb b
      hist := s.hist ++ [.ioR s.cur s.cfg.offTxcnt w, .ioW s.cur s.cfg.offTxdata (txWord s.cfg.txByteLsb b)]
      cores := s.cores.set s.cur { s.core s.cur with todo := ps } } := by
  let s1 : State := { s with
    draws := rest
    hist := s.hist ++ [.ioR s.cur s.cfg.offTxcnt w]
    cores := s.cores.set s.cur { s.core s.cur with todo := .send b :: ps } }
  have hsp : txSpace (txcntTop w) = true := by rw [txSpace_iff, txcntTop_toNat]; exact hw
  have h1 : prim s.cur .pollTx (.send b :: ps) s = .moved s1 := by
    rw [prim_pollTx ha.lead, readTxcnt_generic hd, if_pos hsp]
    rfl
  have ht1 : (s1.core s1.cur).todo = .send b :: ps := by simp [s1, State.core, ha.lt]
  rw [run_prim ha.sched ht h1,
    run_prim (s := s1) ha.sched ht1 (prim_send (s := s1) ha.lead (writeTxdata_generic (s := s1) hd.1 s1.cur b) ps)]
  simp [s1, State.setTodo, State.setCore, State.core, ha.lt]

/-- Settles O26: the reads in vain (`run_pollTx_vain`), the read that lets the write go ahead, the write, and the return. -/
theorem txPollsThenSends : Obligations.TxPollsThenSends := by
  intro s b ws w rest hr hd hws hw
  have hc : s.cur < s.cores.length := hr.1.1
  let u : State := starting s (.tx b)
  let v : State := { u with draws := w :: rest, hist := u.hist ++ ws.map (.ioR u.cur u.cfg.offTxcnt) }
  have ha : AloneOnLead v := { starting_alone hr hd.2.1 (.tx b) with }
  have hvain : run u = run v := run_pollTx_vain (s := u) hr.2 (starting_todo hc _) hd hws
  rw [exec_starting hr rfl (by simp), hvain,
    run_tx_generic (s := v) (ps := [.ret .unit]) ha ⟨hd.1, hd.2.1, rfl⟩ hw (starting_todo hc _), run_ret (r := .unit)]
  · simp [starting, State.returns, State.setCore, State.core, txWord, v, u, hc]
  · exact hd.2.1
  · simpa [starting, v, u] using hc
  · simp [starting, State.core, v, u, hc]

/-! ### Receiving -/

/-- R36, R87: the ready read of the reference controller's `rxq`, with `P_RX_SAME_READ` the read that takes its head. -/
theorem readRxrdy_reference {s : State} {b : Byte} {q : List Byte} (hi : s.cfg.iface = .reference) (hq : s.rxq = b :: q)
    (h : Nat) : readRxrdy h s = (true, b, { s.drawn with
      rxq := if s.cfg.rxSameRead then q else s.rxq
      hist := s.hist ++ [.ioR h s.cfg.offRxrdy (rxrdyRead s)] }) := by
  cases hs : s.cfg.rxSameRead <;> simp [readRxrdy, hi, hq, hs, State.record, drawn_eq]

/-- R36: the RXDATA read of the reference controller's `rxq`. -/
theorem readRxdata_reference {s : State} {b : Byte} {q : List Byte} (hi : s.cfg.iface = .reference) (hq : s.rxq = b :: q)
    (h : Nat) : readRxdata h s = some (b, { s.drawn with
      rxq := q, hist := s.hist ++ [.ioR h s.cfg.offRxdata (setField s.cfg.rxByteLsb s.draw b)] }) := by
  simp [readRxdata, hi, hq, State.record, drawn_eq]

/-- R87, R93: a byte's arrival under the reference controller with `P_RX_SAME_READ`. -/
theorem run_rx_reference_same {s : State} {b : Byte} {q : List Byte} {ps : List Prim} (ha : AloneOnLead s)
    (hi : s.cfg.iface = .reference) (hs : s.cfg.rxSameRead = true) (hq : s.rxq = b :: q)
    (ht : (s.core s.cur).todo = .pollRx :: ps) :
    run s = run { s.drawn with
      rxq := q
      hist := s.hist ++ [.ioR s.cur s.cfg.offRxrdy (rxrdyRead s)]
      cores := s.cores.set s.cur { s.core s.cur with todo := ps, rxByte := b } } := by
  rw [run_prim ha.sched ht (prim_pollRx ha.lead (readRxrdy_reference hi hq _) ps)]
  simp [State.setCore, State.core, hs]

/-- R87, R93: a byte's arrival under the reference controller with a ready read and an RXDATA read. -/
theorem run_rx_reference {s : State} {b : Byte} {q : List Byte} {ps : List Prim} (ha : AloneOnLead s)
    (hi : s.cfg.iface = .reference) (hs : s.cfg.rxSameRead = false) (hq : s.rxq = b :: q)
    (ht : (s.core s.cur).todo = .pollRx :: .readRx :: ps) :
    run s = run { s.drawn.drawn with
      rxq := q
      hist := s.hist ++ [.ioR s.cur s.cfg.offRxrdy (rxrdyRead s),
        .ioR s.cur s.cfg.offRxdata (setField s.cfg.rxByteLsb s.drawn.draw b)]
      cores := s.cores.set s.cur { s.core s.cur with todo := ps, rxByte := b } } := by
  let s1 : State := { s.drawn with
    hist := s.hist ++ [.ioR s.cur s.cfg.offRxrdy (rxrdyRead s)]
    cores := s.cores.set s.cur { s.core s.cur with todo := .readRx :: ps } }
  have h1 : prim s.cur .pollRx (.readRx :: ps) s = .moved s1 := by
    rw [prim_pollRx ha.lead (readRxrdy_reference hi hq _)]
    simp [s1, State.setCore, State.core, hs, drawn_eq]
  have ht1 : (s1.core s1.cur).todo = .readRx :: ps := by simp [s1, State.core, ha.lt]
  have hread := readRxdata_reference (s := s1) (by simpa [s1] using hi) (by simpa [s1] using hq) s1.cur
  rw [run_prim ha.sched ht h1, run_prim (s := s1) (by simpa [s1] using ha.sched) ht1
    (prim_readRx (by simpa [s1] using ha.lead) hread ps)]
  simp [s1, State.setCore, State.core, State.draw, drawn_eq, ha.lt]

/-- Settles O29: the ready read, which with `P_RX_SAME_READ` takes the byte, or the RXDATA read after it, and the return. -/
theorem rxReturnsOldestByte : Obligations.RxReturnsOldestByte := by
  intro s b q hr ha hf hs hq
  have hc : s.cur < s.cores.length := hr.1.1
  have hal := starting_alone hr ha.2 .rx
  obtain ⟨hrx, hmask⟩ : s.cfg.rxByteLsb ≤ 24 ∧ s.cfg.rxrdyMask ≠ 0 := by simp [fieldsOk] at hf; tauto
  have hmask' : s.cfg.rxSameRead = true → s.cfg.rxrdyMask &&& (0xFF#32 <<< s.cfg.rxByteLsb) = 0 := by
    intro h
    simp only [sameReadOk, h, Bool.not_true, Bool.false_or, Bool.and_eq_true, beq_iff_eq] at hs
    exact hs.2
  obtain ⟨hready, hbyte⟩ := readRxrdy_word (h := s.cur) hmask hrx hmask'
  rw [readRxrdy_reference ha.1 hq] at hready hbyte
  refine ⟨rxrdyRead s, (rxReady_iff _ _).1 hready, ?_⟩
  rw [exec_starting hr rfl (by simp)]
  cases hsr : s.cfg.rxSameRead with
  | true =>
    have htodo : planOf s.cfg .rx = .pollRx :: [.retByte] := by simp [planOf, rxPlan, hsr]
    refine ⟨by rw [← getField_eq]; exact hbyte hsr rfl, ?_⟩
    rw [run_rx_reference_same hal ha.1 hsr hq ((starting_todo hc _).trans htodo), run_retByte]
    · simp [starting, State.returns, State.withRxByte, State.setCore, State.core, drawn_eq, rxrdyRead, State.draw, hc]
    · simpa [starting] using ha.2
    · simpa [starting] using hc
    · simp [starting, State.core, hc]
  | false =>
    have htodo : planOf s.cfg .rx = .pollRx :: .readRx :: [.retByte] := by simp [planOf, rxPlan, hsr]
    refine ⟨setField s.cfg.rxByteLsb s.drawn.draw b, by rw [← getField_eq]; exact getField_setField hrx _ _, ?_⟩
    rw [run_rx_reference hal ha.1 hsr hq ((starting_todo hc _).trans htodo), run_retByte]
    · simp [starting, State.returns, State.withRxByte, State.setCore, State.core, drawn_eq, rxrdyRead, State.draw, hc]
    · simpa [starting] using ha.2
    · simpa [starting] using hc
    · simp [starting, State.core, hc]

/-! ### Framing -/

/-- R100, R101: the INH word read, and written back with the inhibit bit at the frame's level; under the generic interface the
write is an event, and the state has no word of it. -/
theorem run_frame {s : State} {begins : Bool} {ps : List Prim} (ha : AloneOnLead s)
    (ht : (s.core s.cur).todo = framePlan begins ++ ps) :
    let r := readInhWord s.cur s
    let w := withInhibit s.cfg.inhibitBit (frameLevel s.cfg begins) r.1
    run s = run { r.2 with
      inh := if s.cfg.iface = .reference then w else s.inh
      hist := r.2.hist ++ [.ioW s.cur s.cfg.offInh w]
      cores := s.cores.set s.cur { s.core s.cur with todo := ps, inhWord := r.1 } } := by
  intro r w
  let s1 : State := { r.2 with
    cores := s.cores.set s.cur { s.core s.cur with todo := .writeInh begins :: ps, inhWord := r.1 } }
  -- The read changes the history and, at most, the draws.
  have hr : r.2.cores = s.cores ∧ r.2.cfg = s.cfg ∧ r.2.cur = s.cur ∧ r.2.sched = s.sched ∧ r.2.inh = s.inh := by
    rcases readInhWord_state s.cur s with e | e <;> simp only [r] <;> rw [e] <;> simp
  obtain ⟨hcores, hcfg, hcur, hsched, hinh⟩ := hr
  have h1 : prim s.cur .readInh (.writeInh begins :: ps) s = .moved s1 := by
    rw [prim_readInh_lead ha.lead]
    simp only [s1, State.setCore, State.core, r, hcores]
  have hc1 : s1.core s1.cur = { s.core s.cur with todo := .writeInh begins :: ps, inhWord := r.1 } := by
    simp [s1, State.core, hcur, ha.lt]
  rw [run_prim ha.sched ht h1, run_prim (s := s1) (hsched.trans ha.sched) (by rw [hc1])
    (prim_writeInh_lead (by simp [s1, hcur, hcfg, ha.lead]) begins ps)]
  cases hi : s.cfg.iface <;>
    simp [writeInhWord, s1, w, hcfg, hcur, hinh, hi, State.setTodo, State.setCore, State.record, State.core, ha.lt]

/-- R100, R101: the level that the two operations write, as the statements say it. -/
theorem withInhibit_frameLevel (cfg : Config) (begins : Bool) (w : Word) :
    withInhibit cfg.inhibitBit (frameLevel cfg begins) w =
      if begins = cfg.inhBegin then w ||| 1#32 <<< cfg.inhibitBit else w &&& ~~~(1#32 <<< cfg.inhibitBit) := by
  cases begins <;> cases h : cfg.inhBegin <;> simp [withInhibit, frameLevel, h]

/-- The operation that opens or closes a frame. -/
def frameInstr (begins : Bool) : Instr := if begins then .frameBegin else .frameEnd

/-- R100, R101: a whole frame operation. -/
theorem exec_frame {s : State} (hr : LeadReady s) (hs : s.sched = []) (begins : Bool) :
    let r := readInhWord s.cur s
    let w := withInhibit s.cfg.inhibitBit (frameLevel s.cfg begins) r.1
    exec (frameInstr begins) s = .next ((({ r.2 with
      inh := if s.cfg.iface = .reference then w else s.inh
      hist := r.2.hist ++ [.ioW s.cur s.cfg.offInh w] } : State).withInhWord r.1).returns .unit) := by
  intro r w
  have hc : s.cur < s.cores.length := hr.1.1
  let u : State := starting s (frameInstr begins)
  have htodo : planOf s.cfg (frameInstr begins) = framePlan begins ++ [.ret .unit] := by cases begins <;> rfl
  -- Starting the operation changes the cores alone, and the read does not depend on them.
  have hread : readInhWord u.cur u = (r.1, { r.2 with cores := u.cores }) := by
    simp only [r, u, starting, readInhWord, State.setCore, drawn_eq, State.draw, State.record]
    cases s.cfg.iface
    · cases lastWritten s.cfg.offInh s.hist <;> rfl
    · rfl
  have hrun := run_frame (s := u) (begins := begins) (ps := [.ret .unit]) (starting_alone hr hs _)
    ((starting_todo hc _).trans htodo)
  rw [hread] at hrun
  have hr2 : r.2.cores = s.cores ∧ r.2.cur = s.cur ∧ r.2.sched = s.sched := by
    rcases readInhWord_state s.cur s with e | e <;> simp only [r] <;> rw [e] <;> simp
  obtain ⟨hcores, hcur, hsched⟩ := hr2
  rw [exec_starting hr (by cases begins <;> rfl) (by cases begins <;> simp [frameInstr]), hrun, run_ret (r := .unit)]
  · simp [u, starting, State.returns, State.withInhWord, State.setCore, State.core, hcores, hcur, hc, w]
  · simpa using hsched.trans hs
  · simp [u, starting, hcur, hc]
  · simp [u, starting, State.core, hcur, hc]

/-- Settles O36: `exec_frame`, with the word that the read shows. -/
theorem frameOperationsWriteInhibit : Obligations.FrameOperationsWriteInhibit := by
  intro s begins hr hs
  have h := exec_frame hr hs begins
  simp only [withInhibit_frameLevel, frameInstr] at h
  dsimp only
  refine ⟨fun hi => ?_, fun hi w hw => ?_, fun hi hw => ?_⟩
  · rw [h]
    simp [readInhWord, hi, State.record, State.withInhWord, State.core]
  · rw [h]
    simp [readInhWord, hi, hw, State.record, State.withInhWord, State.core]
  · rw [h]
    simp [readInhWord, hi, hw, State.record, State.withInhWord, State.core]

/-- An operation that has returned leaves its core ready for the next one. -/
theorem leadReady_returns {s : State} (hc : s.cur < s.cores.length) (hf : (s.core s.cur).fstat = .running)
    (hn : (s.core s.cur).stop = none) (hl : s.cur = s.cfg.leadHart) (r : Result) : LeadReady (s.returns r) := by
  have e : (s.returns r).core s.cur = { s.core s.cur with op := none, todo := [] } := by
    simp [State.returns, State.core, hc]
  refine ⟨⟨by simpa [State.returns] using hc, ?_⟩, hl⟩
  change ((s.returns r).core s.cur).fstat = _ ∧ ((s.returns r).core s.cur).todo = _ ∧ ((s.returns r).core s.cur).stop = _
  rw [e]
  exact ⟨hf, rfl, hn⟩

/-- R24: an INH read shows INH, or what was written last, or a draw. -/
theorem readInhWord_written {s : State} {h : Nat} {w : Word}
    (hw : (s.cfg.iface = .reference ∧ s.inh = w) ∨ (s.cfg.iface = .generic ∧ lastWritten s.cfg.offInh s.hist = some w)) :
    readInhWord h s = (w, s.record (.ioR h s.cfg.offInh w)) := by
  rcases hw with ⟨hi, rfl⟩ | ⟨hi, hw⟩ <;> simp [readInhWord, *]

/-- Settles O37: `exec_frame` twice; the second read shows the first write, as INH (R32) or as the last INH write of the history
(R24). -/
theorem frameReadsBackLastWrite : Obligations.FrameReadsBackLastWrite := by
  intro s hr hs
  have hc : s.cur < s.cores.length := hr.1.1
  obtain ⟨_, hf, _, hn⟩ := hr.1
  let r := readInhWord s.cur s
  let w := withInhibit s.cfg.inhibitBit (frameLevel s.cfg true) r.1
  let s1 : State := ({ r.2 with
    inh := if s.cfg.iface = .reference then w else s.inh
    hist := r.2.hist ++ [.ioW s.cur s.cfg.offInh w] } : State).withInhWord r.1
  let t : State := s1.returns .unit
  have ht : exec .frameBegin s = .next t := exec_frame hr hs true
  have hr2 : r.2.cfg = s.cfg ∧ r.2.cores = s.cores ∧ r.2.cur = s.cur ∧ r.2.sched = s.sched ∧
      r.2.hist = s.hist ++ [.ioR s.cur s.cfg.offInh r.1] := by
    rcases readInhWord_state s.cur s with e | e <;> simp only [r] <;> rw [e] <;> simp
  obtain ⟨hcfg, hcores, hcur, hsched, hhist⟩ := hr2
  have htr : LeadReady t := by
    have e : s1.core s1.cur = { s.core s.cur with inhWord := r.1 } := by
      simp [s1, State.withInhWord, State.core, hcores, hcur, hc]
    refine leadReady_returns ?_ (by rw [e]; exact hf) (by rw [e]; exact hn) ?_ _
    · simpa [s1, State.withInhWord, hcores, hcur] using hc
    · simpa [s1, State.withInhWord, hcfg, hcur] using hr.2
  have hthist : t.hist = s.hist ++ [.ioR s.cur s.cfg.offInh r.1] ++ [.ioW s.cur s.cfg.offInh w] := by
    simp [t, s1, State.returns, State.withInhWord, hhist]
  have hread : readInhWord t.cur t = (w, t.record (.ioR t.cur t.cfg.offInh w)) := by
    refine readInhWord_written ?_
    have e : t.cfg = s.cfg := hcfg
    rw [e, hthist, lastWritten_append_write]
    cases hi : s.cfg.iface
    · exact .inr ⟨rfl, rfl⟩
    · exact .inl ⟨rfl, by simp [t, s1, State.returns, State.withInhWord, hi]⟩
  have hu := exec_frame htr (by exact hsched.trans hs) false
  simp only [hread] at hu
  refine ⟨t, _, r.1, w, withInhibit t.cfg.inhibitBit (frameLevel t.cfg false) w, ht, hu, by simp [hthist], ?_⟩
  have e1 : t.cur = s.cur := hcur
  have e2 : t.cfg = s.cfg := hcfg
  simp [State.returns, State.withInhWord, State.record, e1, e2]

end Sys2Proof.Proofs
end

section
/-! PROOFS. The statements of spec/10_state.md, fifth part: `copy` under the generic interface (R24, R102, R107). -/

namespace Sys2Proof.Proofs

open Sys2Proof Sys2Proof.Machine Sys2Proof.Laws

/-- R24: a part of an operation that runs alone under the generic interface, from `s` to `u`: the run goes on from `u`, and all but
the history, which has grown, memory, TXDATA, the draws and what the executing core has left to do and has read is as before. -/
structure GoesTo (s u : State) : Prop where
  run : run s = run u
  cfg : u.cfg = s.cfg
  cur : u.cur = s.cur
  sched : u.sched = s.sched
  ncores : u.cores.length = s.cores.length
  stop : (u.core u.cur).stop = (s.core s.cur).stop
  txq : u.txq = s.txq
  rxq : u.rxq = s.rxq
  inh : u.inh = s.inh
  wire : u.wire = s.wire
  console : u.console = s.console
  gpioVal : u.gpioVal = s.gpioVal
  gpioEn : u.gpioEn = s.gpioEn
  gpioInv : u.gpioInv = s.gpioInv
  results : u.results = s.results
  idx : u.idx = s.idx
  hist : s.hist <+: u.hist

theorem GoesTo.refl (s : State) : GoesTo s s := by constructor <;> simp

theorem GoesTo.trans {s t u : State} (a : GoesTo s t) (b : GoesTo t u) : GoesTo s u where
  run := a.run.trans b.run
  cfg := b.cfg.trans a.cfg
  cur := b.cur.trans a.cur
  sched := b.sched.trans a.sched
  ncores := b.ncores.trans a.ncores
  stop := b.stop.trans a.stop
  txq := b.txq.trans a.txq
  rxq := b.rxq.trans a.rxq
  inh := b.inh.trans a.inh
  wire := b.wire.trans a.wire
  console := b.console.trans a.console
  gpioVal := b.gpioVal.trans a.gpioVal
  gpioEn := b.gpioEn.trans a.gpioEn
  gpioInv := b.gpioInv.trans a.gpioInv
  results := b.results.trans a.results
  idx := b.idx.trans a.idx
  hist := a.hist.trans b.hist

/-- The executing core is still alone on the lead. -/
theorem GoesTo.alone {s u : State} (g : GoesTo s u) (ha : AloneOnLead s) : AloneOnLead u :=
  ⟨g.sched.trans ha.sched, by rw [g.cur, g.cfg]; exact ha.lead, by rw [g.cur, g.ncores]; exact ha.lt⟩

/-- The draws that are left are still listed alone. -/
theorem GoesTo.draws {s u : State} (g : GoesTo s u) {ws rest : List Word} (hd : GenericDraws s ws) (hu : u.draws = rest) :
    GenericDraws u rest :=
  ⟨by rw [g.cfg]; exact hd.1, g.sched.trans hd.2.1, hu⟩

/-- R24: the last write of an event and the events after it is the last of those, or the event's own. -/
theorem lastWritten_cons (off : Nat) (e : Event) (es : List Event) :
    lastWritten off (e :: es) = (lastWritten off es).or (lastWritten off [e]) := by
  simp only [lastWritten]
  cases lastWritten off es <;> rfl

theorem lastWritten_append (off : Nat) (es fs : List Event) :
    lastWritten off (es ++ fs) = (lastWritten off fs).or (lastWritten off es) := by
  induction es with
  | nil => simp [lastWritten]
  | cons e es ih => rw [List.cons_append, lastWritten_cons, ih, lastWritten_cons off e es, Option.or_assoc]

/-- R24: an offset that has been written stays written. -/
theorem lastWritten_ne_none_of_append {off : Nat} {es es' : List Event} (h : es <+: es') (hw : lastWritten off es ≠ none) :
    lastWritten off es' ≠ none := by
  obtain ⟨fs, rfl⟩ := h
  rw [lastWritten_append, ne_eq, Option.or_eq_none_iff]
  exact fun h => hw h.2

/-- R88: the words drawn for one byte sent: TXCNT, RXRDY, and RXDATA where it is a read of its own. -/
def roundWords (same : Bool) (r : Word × Word × Word) : List Word :=
  if same then [r.1, r.2.1] else [r.1, r.2.1, r.2.2]

/-- R85, R87: both polls are satisfied. -/
def RoundOk (cfg : Config) (r : Word × Word × Word) : Prop :=
  (r.1 >>> 24).toNat < 0x0F ∧ (r.2.1 &&& cfg.rxrdyMask) ≠ 0

/-- R88, R93: the byte that a round gives. -/
def roundByte (cfg : Config) (r : Word × Word × Word) : Byte :=
  getField cfg.rxByteLsb (if cfg.rxSameRead then r.2.1 else r.2.2)

/-- R87, R93: a byte's arrival under the generic interface. -/
theorem run_rx_generic {s : State} {ps : List Prim} {r : Word × Word × Word} {rest : List Word} (ha : AloneOnLead s)
    (hd : GenericDraws s ((roundWords s.cfg.rxSameRead r).tail ++ rest)) (hw : (r.2.1 &&& s.cfg.rxrdyMask) ≠ 0)
    (ht : (s.core s.cur).todo = rxPlan s.cfg ++ ps) :
    run s = run { s with
      draws := rest
      hist := s.hist ++ (if s.cfg.rxSameRead then [.ioR s.cur s.cfg.offRxrdy r.2.1]
        else [.ioR s.cur s.cfg.offRxrdy r.2.1, .ioR s.cur s.cfg.offRxdata r.2.2])
      cores := s.cores.set s.cur { s.core s.cur with todo := ps, rxByte := roundByte s.cfg r } } := by
  have hready : rxReady s.cfg.rxrdyMask r.2.1 = true := (rxReady_iff _ _).2 hw
  cases hs : s.cfg.rxSameRead with
  | true =>
    rw [hs] at hd
    have ht1 : (s.core s.cur).todo = .pollRx :: ps := by simpa [rxPlan, hs] using ht
    have hread := readRxrdy_generic (w := r.2.1) (ws := rest) hd s.cur
    rw [hready] at hread
    rw [run_prim ha.sched ht1 (prim_pollRx ha.lead hread ps)]
    simp [State.setCore, State.core, hs, roundByte]
  | false =>
    rw [hs] at hd
    have ht1 : (s.core s.cur).todo = .pollRx :: .readRx :: ps := by simpa [rxPlan, hs] using ht
    have hread := readRxrdy_generic (w := r.2.1) (ws := r.2.2 :: rest) hd s.cur
    rw [hready] at hread
    let s1 : State := { s with
      draws := r.2.2 :: rest
      hist := s.hist ++ [.ioR s.cur s.cfg.offRxrdy r.2.1]
      cores := s.cores.set s.cur { s.core s.cur with todo := .readRx :: ps } }
    have h1 : prim s.cur .pollRx (.readRx :: ps) s = .moved s1 := by
      rw [prim_pollRx ha.lead hread]
      simp [s1, State.setCore, State.core, hs]
    have ht2 : (s1.core s1.cur).todo = .readRx :: ps := by simp [s1, State.core, ha.lt]
    have hread2 := readRxdata_generic (s := s1) (w := r.2.2) (ws := rest) ⟨hd.1, hd.2.1, rfl⟩ s1.cur
    rw [run_prim ha.sched ht1 h1, run_prim (s := s1) ha.sched ht2 (prim_readRx (s := s1) ha.lead hread2 ps)]
    simp [s1, State.setCore, State.core, hs, roundByte, ha.lt]

/-- R96: one byte sent and one received, both polls satisfied at their first read. -/
theorem goesTo_txrx {s : State} {b : Byte} {ps : List Prim} {r : Word × Word × Word} {rest : List Word}
    (ha : AloneOnLead s) (hd : GenericDraws s (roundWords s.cfg.rxSameRead r ++ rest)) (hr : RoundOk s.cfg r)
    (ht : (s.core s.cur).todo = txrxPlan s.cfg b ++ ps) :
    ∃ u, GoesTo s u ∧ u.draws = rest ∧ (u.core u.cur).todo = ps ∧ (u.core u.cur).rxByte = roundByte s.cfg r ∧
      u.mem = s.mem := by
  have hd' : GenericDraws s (r.1 :: ((roundWords s.cfg.rxSameRead r).tail ++ rest)) := by
    refine ⟨hd.1, hd.2.1, hd.2.2.trans ?_⟩
    cases s.cfg.rxSameRead <;> rfl
  let s1 : State := { s with
    draws := (roundWords s.cfg.rxSameRead r).tail ++ rest
    txdata := txWord s.cfg.txByteLsb b
    hist := s.hist ++ [.ioR s.cur s.cfg.offTxcnt r.1, .ioW s.cur s.cfg.offTxdata (txWord s.cfg.txByteLsb b)]
    cores := s.cores.set s.cur { s.core s.cur with todo := rxPlan s.cfg ++ ps } }
  have hc1 : s1.core s1.cur = { s.core s.cur with todo := rxPlan s.cfg ++ ps } := by simp [s1, State.core, ha.lt]
  have h1 : run s = run s1 := run_tx_generic ha hd' hr.1 ht
  have h2 := run_rx_generic (s := s1) (r := r) (rest := rest) (ps := ps)
    ⟨ha.sched, ha.lead, by simpa [s1] using ha.lt⟩ ⟨hd.1, hd.2.1, rfl⟩ hr.2 (by rw [hc1])
  generalize hu : ({ s1 with
    draws := rest, hist := _, cores := s1.cores.set s1.cur { s1.core s1.cur with todo := ps, rxByte := _ } } : State) = u at h2
  have hc2 : u.core u.cur = { s.core s.cur with todo := ps, rxByte := roundByte s.cfg r } := by
    simp [← hu, s1, State.core, ha.lt]
  have g : GoesTo s u := by
    subst hu
    exact { GoesTo.refl s with
      run := h1.trans h2, ncores := by simp [s1], stop := by rw [hc2], hist := ⟨_, by simp [s1]; rfl⟩ }
  exact ⟨u, g, by rw [← hu], by rw [hc2], by rw [hc2], by rw [← hu]⟩

/-- R102: the command bytes, each with a round. -/
theorem goesTo_command {s : State} {bs : List Byte} {ps : List Prim} {rounds : List (Word × Word × Word)} {rest : List Word}
    (ha : AloneOnLead s) (hd : GenericDraws s (rounds.flatMap (roundWords s.cfg.rxSameRead) ++ rest))
    (hlen : rounds.length = bs.length) (hr : ∀ r ∈ rounds, RoundOk s.cfg r)
    (ht : (s.core s.cur).todo = bs.flatMap (txrxPlan s.cfg) ++ ps) :
    ∃ u, GoesTo s u ∧ u.draws = rest ∧ (u.core u.cur).todo = ps ∧ u.mem = s.mem := by
  induction bs generalizing s rounds with
  | nil =>
    obtain rfl : rounds = [] := by simpa using hlen
    exact ⟨s, .refl s, hd.2.2, ht, rfl⟩
  | cons b bs ih =>
    obtain ⟨r, rounds, rfl⟩ : ∃ r rs, rounds = r :: rs := List.exists_cons_of_length_eq_add_one hlen
    obtain ⟨u, g, hdu, htu, -, hmu⟩ := goesTo_txrx (rest := rounds.flatMap (roundWords s.cfg.rxSameRead) ++ rest) ha
      (by simpa using hd) (hr r (by simp)) (by simpa using ht)
    obtain ⟨v, g', hdv, htv, hmv⟩ := ih (s := u) (rounds := rounds) (g.alone ha) (by rw [g.cfg]; exact g.draws hd hdu)
      (by simpa using hlen) (by rw [g.cfg]; exact fun x hx => hr x (by simp [hx])) (by rw [g.cfg]; exact htu)
    exact ⟨v, g.trans g', hdv, htv, hmv.trans hmu⟩

/-- R102: a byte stored. -/
theorem goesTo_store {s : State} {a : Nat} {ps : List Prim} (ha : AloneOnLead s) (ht : (s.core s.cur).todo = .store a :: ps) :
    ∃ u, GoesTo s u ∧ u.draws = s.draws ∧ (u.core u.cur).todo = ps ∧
      u.mem = writeMem s.mem a (s.core s.cur).rxByte := by
  have h1 := run_prim (s' := (storeByte s.cur a (s.core s.cur).rxByte s).setTodo s.cur ps) ha.sched ht rfl
  have hlen : s.cur < (storeByte s.cur a (s.core s.cur).rxByte s).cores.length := ha.lt
  have hc : ((storeByte s.cur a (s.core s.cur).rxByte s).setTodo s.cur ps).core s.cur =
      { s.core s.cur with todo := ps } := core_setTodo_self ps hlen
  have hstop : (((storeByte s.cur a (s.core s.cur).rxByte s).setTodo s.cur ps).core s.cur).stop = (s.core s.cur).stop := by
    rw [hc]
  have g : GoesTo s ((storeByte s.cur a (s.core s.cur).rxByte s).setTodo s.cur ps) := { GoesTo.refl s with
    run := h1, ncores := List.length_set, stop := hstop, hist := ⟨_, rfl⟩ }
  exact ⟨_, g, rfl, congrArg Core.todo hc, rfl⟩

/-- R102: the head of `copy`'s loop, unfolded or over. -/
theorem goesTo_copyBytes {s : State} {a n : Nat} {ps qs : List Prim} (ha : AloneOnLead s)
    (ht : (s.core s.cur).todo = .copyBytes a n :: ps)
    (hq : qs = match n with
      | 0 => ps
      | n + 1 => txrxPlan s.cfg 0 ++ ([.store a, .copyBytes (a + 1) n] ++ ps)) :
    ∃ u, GoesTo s u ∧ u.draws = s.draws ∧ (u.core u.cur).todo = qs ∧ u.mem = s.mem := by
  have h1 : run s = run (s.setTodo s.cur qs) := run_prim ha.sched ht (by subst hq; cases n <;> rfl)
  have hc := core_setTodo_self qs ha.lt
  have g : GoesTo s (s.setTodo s.cur qs) := { GoesTo.refl s with
    run := h1, ncores := List.length_set, stop := by rw [setTodo_cur, hc] }
  exact ⟨_, g, rfl, by rw [setTodo_cur, hc], rfl⟩

/-- R102, R107: `copy`'s loop: each round's byte is stored before the next is sent. -/
theorem goesTo_loop {s : State} {a n : Nat} {ps : List Prim} {rounds : List (Word × Word × Word)} {rest : List Word}
    (ha : AloneOnLead s) (hd : GenericDraws s (rounds.flatMap (roundWords s.cfg.rxSameRead) ++ rest))
    (hlen : rounds.length = n) (hr : ∀ r ∈ rounds, RoundOk s.cfg r) (ht : (s.core s.cur).todo = .copyBytes a n :: ps) :
    ∃ u, GoesTo s u ∧ u.draws = rest ∧ (u.core u.cur).todo = ps ∧
      u.mem = storeAll s.mem a (rounds.map (roundByte s.cfg)) := by
  induction rounds generalizing s a n with
  | nil =>
    subst hlen
    obtain ⟨u, g, hdu, htu, hmu⟩ := goesTo_copyBytes ha ht rfl
    exact ⟨u, g, hdu.trans hd.2.2, htu, hmu⟩
  | cons r rounds ih =>
    subst hlen
    obtain ⟨u, g, hdu, htu, hmu⟩ := goesTo_copyBytes ha ht rfl
    have hdu' := g.draws hd (hdu.trans hd.2.2)
    obtain ⟨v, g', hdv, htv, hbv, hmv⟩ := goesTo_txrx (s := u) (r := r)
      (rest := rounds.flatMap (roundWords s.cfg.rxSameRead) ++ rest) (g.alone ha) (by rw [g.cfg]; simpa using hdu')
      (by rw [g.cfg]; exact hr r (by simp)) (by rw [g.cfg]; exact htu)
    have gv := g.trans g'
    obtain ⟨x, g'', hdx, htx, hmx⟩ := goesTo_store (gv.alone ha) htv
    have gx := gv.trans g''
    obtain ⟨y, g''', hdy, hty, hmy⟩ := ih (s := x) (gx.alone ha)
      (by rw [gx.cfg]; exact gx.draws hd (hdx.trans hdv)) rfl
      (by rw [gx.cfg]; exact fun q hq => hr q (by simp [hq])) htx
    refine ⟨y, gx.trans g''', hdy, hty, ?_⟩
    rw [hmy, hmx, hmv, hmu, hbv, gx.cfg, g.cfg]
    rfl

/-- R24, R100, R101: an operation's frame, opened or closed; where INH has not been written before, the read takes a draw. -/
theorem goesTo_frame {s : State} {begins : Bool} {ps : List Prim} {first rest : List Word} (ha : AloneOnLead s)
    (hd : GenericDraws s (first ++ rest))
    (hf : first.length = if lastWritten s.cfg.offInh s.hist = none then 1 else 0)
    (ht : (s.core s.cur).todo = framePlan begins ++ ps) :
    ∃ u, GoesTo s u ∧ u.draws = rest ∧ (u.core u.cur).todo = ps ∧ u.mem = s.mem ∧
      lastWritten s.cfg.offInh u.hist ≠ none := by
  have h1 := run_frame ha ht
  -- The read leaves the draws but for the one it takes, and it adds an event to the history.
  have hr : ∃ v, (readInhWord s.cur s).2 = { s with draws := rest, hist := s.hist ++ [.ioR s.cur s.cfg.offInh v] } := by
    cases hw : lastWritten s.cfg.offInh s.hist with
    | some v =>
      obtain rfl : first = [] := by simpa [hw] using hf
      refine ⟨v, ?_⟩
      rw [readInhWord_written (.inr ⟨hd.1, hw⟩), show rest = s.draws from hd.2.2.symm]
      rfl
    | none =>
      obtain ⟨w, rfl⟩ : ∃ w, first = [w] := List.length_eq_one_iff.1 (by simpa [hw] using hf)
      refine ⟨w, ?_⟩
      obtain ⟨e1, e2⟩ := draw_of_generic (w := w) (ws := rest) hd
      simp [readInhWord, hd.1, hw, e1, e2, State.record]
  obtain ⟨v, hv⟩ := hr
  simp only [hv] at h1
  have hi : s.cfg.iface ≠ .reference := by simp [hd.1]
  refine ⟨_, { GoesTo.refl s with run := h1, ncores := by simp, stop := ?_, inh := if_neg hi, hist := ?_ }, rfl, ?_, rfl, ?_⟩
  · simp [State.core, ha.lt]
  · simp [List.append_assoc]
  · simp [State.core, ha.lt]
  · dsimp only
    rw [lastWritten_append_write]
    simp

/-- Settles O40: the opening frame, the four command bytes, the loop, the closing frame, whose read shows what the opening one
wrote, and the return. -/
theorem copyStoresDrawnBytes : Obligations.CopyStoresDrawnBytes := by
  intro s dst addr size first rounds rest hr hfirst hd hlen hok hrange
  dsimp only
  have hc : s.cur < s.cores.length := hr.1.1
  let i : Instr := .copy dst addr size
  have ha := starting_alone hr hd.2.1 i
  have hwords : (fun r : Word × Word × Word => if s.cfg.rxSameRead then [r.1, r.2.1] else [r.1, r.2.1, r.2.2]) =
      roundWords s.cfg.rxSameRead := rfl
  rw [hwords] at hd
  -- The rounds of the command and those of the data bytes.
  have hsplit : rounds.flatMap (roundWords s.cfg.rxSameRead) =
      (rounds.take 4).flatMap (roundWords s.cfg.rxSameRead) ++ (rounds.drop 4).flatMap (roundWords s.cfg.rxSameRead) := by
    rw [← List.flatMap_append, List.take_append_drop]
  have htodo : planOf s.cfg i = framePlan true ++ ((s.cfg.readOpcode :: addrBytes addr).flatMap (txrxPlan s.cfg) ++
      (.copyBytes dst.toNat size.toNat :: (framePlan false ++ [.ret .ok]))) := by
    simp [planOf, i, copyPlan, commandPlan]
  obtain ⟨u1, g1, hd1, ht1, hm1, hw1⟩ := goesTo_frame (s := starting s i) (first := first)
    (rest := rounds.flatMap (roundWords s.cfg.rxSameRead) ++ rest) ha (by rw [List.append_assoc] at hd; exact hd) hfirst
    ((starting_todo hc i).trans htodo)
  have ok : ∀ r ∈ rounds, RoundOk s.cfg r := hok
  obtain ⟨u2, g2, hd2, ht2, hm2⟩ := goesTo_command (s := u1) (bs := s.cfg.readOpcode :: addrBytes addr) (rounds := rounds.take 4)
    (rest := (rounds.drop 4).flatMap (roundWords s.cfg.rxSameRead) ++ rest) (g1.alone ha)
    (by rw [g1.cfg]; refine g1.draws hd (hd1.trans ?_); rw [hsplit, List.append_assoc]; rfl) (by simp [addrBytes]; omega)
    (by rw [g1.cfg]; exact fun r h => ok r (List.mem_of_mem_take h)) (by rw [g1.cfg]; exact ht1)
  have g12 := g1.trans g2
  obtain ⟨u3, g3, hd3, ht3, hm3⟩ := goesTo_loop (s := u2) (n := size.toNat) (rounds := rounds.drop 4) (rest := rest) (g12.alone ha)
    (by rw [g12.cfg]; exact g12.draws hd hd2) (by simp; omega)
    (by rw [g12.cfg]; exact fun r h => ok r (List.mem_of_mem_drop h)) ht2
  have g13 := g12.trans g3
  have hw3 : lastWritten u3.cfg.offInh u3.hist ≠ none := by
    rw [g13.cfg]
    exact lastWritten_ne_none_of_append (g2.trans g3).hist hw1
  obtain ⟨u4, g4, hd4, ht4, hm4, -⟩ := goesTo_frame (s := u3) (first := []) (rest := rest) (g13.alone ha)
    (g13.draws hd hd3) (by simp [hw3]) ht3
  have g := g13.trans g4
  have hau := g.alone ha
  have hrun := run_ret hau.sched hau.lt ht4
  have hstart : ∀ d a z, i = .copy d a z → CopyRange s.cfg d z := fun d a z e => by
    cases (show Instr.copy dst addr size = .copy d a z from e)
    exact hrange
  refine ⟨u4.returns .ok, ?_, ?_, ?_, ?_, hd4, g.txq, g.rxq, g.inh, g.wire, g.console, g.gpioVal, g.gpioEn, g.gpioInv, ?_⟩
  · rw [show Instr.copy dst addr size = i from rfl, exec_starting hr rfl hstart, g.run, hrun]
  · change u4.mem = _
    rw [hm4, hm3, hm2, hm1, g12.cfg]
    exact congrArg (storeAll s.mem dst.toNat) (List.map_congr_left fun r _ => getField_eq _ _)
  · exact congrArg (· ++ [Result.ok]) g.results
  · exact congrArg (· + 1) g.idx
  · have e : ((u4.returns .ok).core u4.cur).stop = (u4.core u4.cur).stop := by simp [State.returns, State.core, hau.lt]
    have hn : (s.core s.cur).stop = none := hr.1.2.2.2
    exact e.trans (g.stop.trans (by rw [starting_core hc]; exact hn))

end Sys2Proof.Proofs
end

section
/-! PROOFS. The statements of spec/20_memory.md, first part: the atomic operations on the fault indicator (R62, R138). -/

namespace Sys2Proof.Proofs

open Sys2Proof Sys2Proof.Machine Sys2Proof.Laws

/-! ## The invert bit -/

/-- R62, R138: what `k` atomic operations with the bit's mask make of a bit. -/
def bitAfter (op : AmoOp) (k : Nat) (b : Bool) : Bool :=
  match op with
  | .xor => b ^^ decide (k % 2 = 1)
  | .or => b || decide (0 < k)

theorem bitAfter_zero (op : AmoOp) (b : Bool) : bitAfter op 0 b = b := by
  cases op <;> simp [bitAfter]

/-- R62: no update is lost: the operations that come later work on what the earlier ones left. -/
theorem bitAfter_add (op : AmoOp) (j k : Nat) (b : Bool) : bitAfter op (j + k) b = bitAfter op k (bitAfter op j b) := by
  cases op with
  | xor =>
    rcases Nat.mod_two_eq_zero_or_one j with hj | hj <;> rcases Nat.mod_two_eq_zero_or_one k with hk | hk <;>
      simp [bitAfter, Nat.add_mod, hj, hk]
  | or => simp [bitAfter, Bool.or_assoc]

/-- R137: the fault indicator's own bit of its mask. -/
theorem getLsbD_faultMask_self {bit : Nat} (hb : bit ≤ 31) : (faultMask bit).getLsbD bit = true := by
  have : bit < 32 := by omega
  simp [faultMask, this]

/-- R62: one atomic operation with the fault mask, on its bit. -/
theorem getLsbD_amoResult_self {bit : Nat} (hb : bit ≤ 31) (op : AmoOp) (old : Word) :
    (amoResult op old (faultMask bit)).getLsbD bit = bitAfter op 1 (old.getLsbD bit) := by
  cases op <;> simp [amoResult, bitAfter, getLsbD_faultMask_self hb]

theorem invertCount_append (cfg : Config) (es fs : List Event) :
    invertCount cfg (es ++ fs) = invertCount cfg es + invertCount cfg fs :=
  List.countP_append

/-- R27, R43: the three GPIO words are three, so that an operation on INV is known by its offset. -/
theorem isInvert_gpioOff {cfg : Config} (hn : (gpioOffs cfg).Nodup) (h : Nat) (op : AmoOp) (r : GpioReg) (m old : Word) :
    isInvert cfg (.gpio h op (gpioOff cfg r) m old) = decide (r = .inv) := by
  obtain ⟨⟨_, hv⟩, he⟩ : (cfg.gpioOffVal ≠ cfg.gpioOffEn ∧ cfg.gpioOffVal ≠ cfg.gpioOffInv) ∧
      cfg.gpioOffEn ≠ cfg.gpioOffInv := by simpa [gpioOffs] using hn
  cases r <;> simp [isInvert, gpioOff, hv, he]

/-- R62, R138: the invert bit of the second state is that of the first, operated on once for each operation on INV among the
events by which the history has grown. -/
def InvertFollows (s t : State) : Prop :=
  t.cfg = s.cfg ∧ ∃ es, t.hist = s.hist ++ es ∧
    t.gpioInv.getLsbD s.cfg.gpioFaultBit =
      bitAfter s.cfg.gpioInvertOp (invertCount s.cfg es) (s.gpioInv.getLsbD s.cfg.gpioFaultBit)

theorem InvertFollows.refl (s : State) : InvertFollows s s :=
  ⟨rfl, [], by simp, (bitAfter_zero _ _).symm⟩

/-- An event more, and the bit operated on once if it is an operation on INV. -/
theorem InvertFollows.snoc {s t u : State} {e : Event} (f : InvertFollows s t) (hcfg : u.cfg = t.cfg)
    (hh : u.hist = t.hist ++ [e])
    (hb : u.gpioInv.getLsbD t.cfg.gpioFaultBit =
      bitAfter t.cfg.gpioInvertOp (invertCount t.cfg [e]) (t.gpioInv.getLsbD t.cfg.gpioFaultBit)) : InvertFollows s u := by
  obtain ⟨hc, es, h1, h2⟩ := f
  refine ⟨hcfg.trans hc, es ++ [e], by rw [hh, h1, List.append_assoc], ?_⟩
  rw [hc, h2] at hb
  rw [hb, invertCount_append, bitAfter_add]

/-- An event that is no atomic operation, with INV as before. -/
theorem InvertFollows.other {s t u : State} {e : Event} (f : InvertFollows s t) (he : isInvert t.cfg e = false)
    (hcfg : u.cfg = t.cfg) (hh : u.hist = t.hist ++ [e]) (hg : u.gpioInv = t.gpioInv) : InvertFollows s u := by
  refine f.snoc hcfg hh ?_
  rw [hg, invertCount, List.countP_singleton, he]
  exact (bitAfter_zero _ _).symm

/-- R62, R137: an atomic operation on one of the words. -/
theorem InvertFollows.amo {s t : State} (f : InvertFollows s t) (hn : (gpioOffs s.cfg).Nodup)
    (hb : s.cfg.gpioFaultBit ≤ 31) (h : Nat) (r : GpioReg) : InvertFollows s (gpioAmo h r t) := by
  rw [← f.1] at hn hb
  refine f.snoc (e := .gpio h (gpioOp t.cfg r) (gpioOff t.cfg r) (faultMask t.cfg.gpioFaultBit) (t.gpio r))
    (by simp [gpioAmo]) (by simp [gpioAmo]) ?_
  rw [invertCount, List.countP_singleton, isInvert_gpioOff hn]
  cases r with
  | val | en => exact (bitAfter_zero _ _).symm
  | inv => exact getLsbD_amoResult_self hb _ _

/-- Every shared operation but the atomic one leaves INV, and records no event on it. -/
theorem invertFollows_closed {s : State} (hn : (gpioOffs s.cfg).Nodup) (hb : s.cfg.gpioFaultBit ≤ 31) :
    Closed (InvertFollows s) where
  sched _ _ f := f
  readTxcnt h u _ f := by
    obtain ⟨w, e, _⟩ := readTxcnt_state h u
    exact f.other (e := .ioR h u.cfg.offTxcnt w) rfl (by simp [e]) (by simp [e]) (by simp [e])
  readRxrdy h u _ f := by
    obtain ⟨w, e | ⟨_, _, _, _, _, _, _, e⟩⟩ := readRxrdy_state h u <;>
      exact f.other (e := .ioR h u.cfg.offRxrdy w) rfl (by simp [e]) (by simp [e]) (by simp [e])
  readRxdata h u _ _ hr f := by
    obtain ⟨w, e | ⟨_, _, _, e⟩⟩ := readRxdata_state hr <;>
      exact f.other (e := .ioR h u.cfg.offRxdata w) rfl (by simp [e]) (by simp [e]) (by simp [e])
  readInh h u _ f := by
    refine f.other (e := .ioR h u.cfg.offInh (readInhWord h u).1) rfl ?_ ?_ ?_ <;>
      rcases readInhWord_state h u with e | e <;> rw [e] <;> simp
  writeTxdata h b u _ _ hw f := by
    rcases writeTxdata_state hw with e | ⟨_, _, e⟩ <;>
      exact f.other (e := .ioW h u.cfg.offTxdata (txWord u.cfg.txByteLsb b)) rfl
        (by rw [e]; rfl) (by rw [e]; rfl) (by rw [e]; rfl)
  writeInh h w u _ f := by
    rcases writeInhWord_state h w u with e | ⟨_, e⟩ <;>
      exact f.other (e := .ioW h u.cfg.offInh w) rfl (by rw [e]; rfl) (by rw [e]; rfl) (by rw [e]; rfl)
  engine u f := by
    rcases engineStep_state u with ⟨e, _⟩ | ⟨b, _, _, _, _, _, _, _, e⟩ <;> rw [e]
    · exact f
    · exact f.other (e := .ex b (u.answer (inhLevel u.cfg.inhibitBit u.inh) b)) rfl rfl rfl rfl
  store h a b _ f := f.other (e := .mem h a b) rfl rfl rfl rfl
  console h e _ f := f.other (e := .con h e) rfl rfl rfl rfl
  gpio h r _ f := f.amo hn hb h r
  retire _ _ f := f
  core _ _ _ f := f

/-- R43: a step is only made in a configuration that may launch. -/
theorem configOk_of_step {s t : State} (h : step s = .next t) : configOk s.cfg = true := by
  unfold step at h
  split at h
  · cases h
  · rename_i hl
    simp only [Bool.not_eq_true', Bool.not_eq_false, launchOk, Bool.and_eq_true] at hl
    exact hl.1.1.1

/-- Settles O57: `invertFollows_closed` over a step, whose configuration keeps the GPIO words apart and the fault bit inside the
word (R43). -/
theorem faultIndicatorCountsFailures : Obligations.FaultIndicatorCountsFailures := by
  intro s t h
  obtain ⟨hn, hb⟩ : (gpioOffs s.cfg).Nodup ∧ s.cfg.gpioFaultBit ≤ 31 := by
    have := configOk_of_step h
    simp only [configOk, distinctOk, fieldsOk, Bool.and_eq_true, decide_eq_true_eq] at this
    tauto
  obtain ⟨_, es, hhist, hbit⟩ := (invertFollows_closed hn hb).step (.refl s) h
  have hk : invertCount s.cfg t.hist - invertCount s.cfg s.hist = invertCount s.cfg es := by
    rw [hhist, invertCount_append, Nat.add_sub_cancel_left]
  dsimp only
  rw [hk, hbit]
  exact ⟨fun ho => by rw [ho]; rfl, fun ho => by rw [ho]; rfl⟩

end Sys2Proof.Proofs
end

section
/-! PROOFS. The statements of spec/20_memory.md, second part: `copy` alone under the reference controller (R47, R75, R102, R105
to R107, R180). -/

namespace Sys2Proof.Proofs

open Sys2Proof Sys2Proof.Machine Sys2Proof.Laws

/-! ## What a `copy` changes -/

/-- What the primitives of `copy` and the engine's exchanges change: the executing core's list and its two local words, the
controller's FIFOs and words, the device's answers, the wire, memory, the history and the draws. -/
structure Transfer where
  todo : List Prim
  inhWord : Word
  rxByte : Byte
  txq : List Byte
  rxq : List Byte
  inh : Word
  txdata : Word
  miso : List Byte
  wire : List Exchange
  mem : List Host.Cell
  hist : List Event
  draws : List Word
  nDraws : Nat

/-- What a state itself has of these. -/
def Transfer.of (s : State) : Transfer where
  todo := (s.core s.cur).todo
  inhWord := (s.core s.cur).inhWord
  rxByte := (s.core s.cur).rxByte
  txq := s.txq
  rxq := s.rxq
  inh := s.inh
  txdata := s.txdata
  miso := s.miso
  wire := s.wire
  mem := s.mem
  hist := s.hist
  draws := s.draws
  nDraws := s.nDraws

/-- The state with these in place of its own. -/
def Transfer.state (d : Transfer) (s : State) : State :=
  { s with
    txq := d.txq
    rxq := d.rxq
    inh := d.inh
    txdata := d.txdata
    miso := d.miso
    wire := d.wire
    mem := d.mem
    hist := d.hist
    draws := d.draws
    nDraws := d.nDraws
    cores := s.cores.set s.cur { s.core s.cur with todo := d.todo, inhWord := d.inhWord, rxByte := d.rxByte } }

theorem Transfer.of_state {s : State} (hc : s.cur < s.cores.length) : (Transfer.of s).state s = s := by
  have : s.cores.set s.cur (s.core s.cur) = s.cores := by simp [State.core, hc]
  simp only [Transfer.of, Transfer.state, this]

theorem Transfer.state_core {s : State} (hc : s.cur < s.cores.length) (d : Transfer) : (d.state s).core (d.state s).cur =
    { s.core s.cur with todo := d.todo, inhWord := d.inhWord, rxByte := d.rxByte } :=
  core_setCore_self _ hc

theorem Transfer.state_todo {s : State} (hc : s.cur < s.cores.length) (d : Transfer) :
    ((d.state s).core (d.state s).cur).todo = d.todo :=
  congrArg Core.todo (d.state_core hc)

theorem Transfer.state_setTodo {s : State} (hc : s.cur < s.cores.length) (d : Transfer) (ps : List Prim) :
    (d.state s).setTodo s.cur ps = ({ d with todo := ps } : Transfer).state s := by
  rw [State.setTodo, show (d.state s).core s.cur = _ from d.state_core hc]
  simp [Transfer.state, State.setCore]

/-- The lead core is alone with a live engine, and a poll finds room where `txq` is empty (R30, R38, R180). -/
structure LiveLead (s : State) : Prop extends AloneOnLead s where
  iface : s.cfg.iface = .reference
  live : s.engineLive = true
  noFault : s.engineFault = none
  lsb : s.cfg.txByteLsb ≤ 24
  room : (s.cfg.txcntFn.getD 0 0xFF).toNat < 0x0F
  txDepth : 0 < s.cfg.txDepth
  rxDepth : 0 < s.cfg.rxDepth

theorem LiveLead.alone_state {s : State} (hs : LiveLead s) (d : Transfer) : AloneOnLead (d.state s) :=
  ⟨hs.sched, hs.lead, by simpa [Transfer.state] using hs.lt⟩

/-- One primitive of a `copy` that runs alone. -/
theorem run_transfer {s : State} (hs : LiveLead s) {d d' : Transfer} {p : Prim} {ps : List Prim} (ht : d.todo = p :: ps)
    (hp : prim s.cur p ps (d.state s) = .moved (d'.state s)) : run (d.state s) = run (d'.state s) :=
  run_prim hs.sched ((d.state_todo hs.lt).trans ht) hp

/-! ## One byte out, one byte in -/

/-- R85, R90: the poll sees room at once, and the byte is in `txq`. -/
theorem run_send {s : State} (hs : LiveLead s) {d : Transfer} {b : Byte} {ps : List Prim} (hq : d.txq = [])
    (ht : d.todo = txPlan b ++ ps) :
    ∃ w ds n, run (d.state s) = run (({ d with
      todo := ps
      txq := [b]
      txdata := txWord s.cfg.txByteLsb b
      hist := d.hist ++ [.ioR s.cur s.cfg.offTxcnt w, .ioW s.cur s.cfg.offTxdata (txWord s.cfg.txByteLsb b)]
      draws := ds
      nDraws := n } : Transfer).state s) := by
  have ha := hs.alone_state d
  have hq' : (d.state s).txq = [] := hq
  obtain ⟨w, -, h⟩ := run_tx (s := d.state s) (b := b) (ps := ps) ⟨hs.iface, hs.sched⟩ ha.lead ha.lt hs.lsb
    (by rw [hq']; exact hs.room) (by rw [hq']; exact hs.txDepth) ((d.state_todo hs.lt).trans ht)
  refine ⟨w, (d.state s).drawn.draws, (d.state s).drawn.nDraws, ?_⟩
  rw [h, drawn_eq, hq', d.state_core hs.lt]
  simp only [Transfer.state, List.set_set, List.nil_append]

/-- R31, R33, R87, R180: a poll that finds `rxq` empty, and then the engine's exchange. -/
theorem run_exchange {s : State} (hs : LiveLead s) {d : Transfer} {b : Byte} {ps : List Prim} (hq : d.txq = [b])
    (hr : d.rxq = []) (hl : inhLevel s.cfg.inhibitBit d.inh = s.cfg.inhBegin) (ht : d.todo = .pollRx :: ps) :
    ∃ r w ds n, exchangeOne s.cfg.inhBegin (d.miso, d.wire) b = (d.miso.tail, d.wire ++ [⟨s.cfg.inhBegin, b, r⟩]) ∧
      run (d.state s) = run (({ d with
        txq := []
        rxq := [r]
        miso := d.miso.tail
        wire := d.wire ++ [⟨s.cfg.inhBegin, b, r⟩]
        hist := d.hist ++ [.ioR s.cur s.cfg.offRxrdy w, .ex b r]
        draws := ds
        nDraws := n } : Transfer).state s) := by
  let s1 : State := d.state s
  let w : Word := rxrdyRead s1
  let s2 : State := s1.drawn.record (.ioR s.cur s.cfg.offRxrdy w)
  have hi : s.cfg.iface = .reference := hs.iface
  have hturn : coreTurn s1.cur s1 = .spun s2 := by
    have hread : readRxrdy s.cur s1 = (false, 0, s2) := by
      simp [readRxrdy, s1, s2, w, Transfer.state, hi, hr]
    have hprim : prim s1.cur .pollRx ps s1 = .spun s2 := by
      refine (onController_lead _ (hs.alone_state d).lead).trans ?_
      rw [show readRxrdy s1.cur s1 = _ from hread]
      rfl
    unfold coreTurn
    rw [show (s1.core s1.cur).todo = _ from (d.state_todo hs.lt).trans ht]
    exact hprim
  have hwait : waitTurn s2 = some (engineStep s2) := by
    simp [waitTurn, engineDue, s1, s2, Transfer.state, hi, hs.live, hs.noFault, hq]
  have hrun : run s1 = run (engineStep s2) := run_waited (s := s1) hs.sched hturn hwait
  have hdepth : 0 ≠ s.cfg.rxDepth := Nat.ne_of_lt hs.rxDepth
  refine ⟨s1.answer s.cfg.inhBegin b, w, s1.drawn.draws, s1.drawn.nDraws, exchangeOne_eq s1 s.cfg.inhBegin b,
    hrun.trans (congrArg run ?_)⟩
  simp only [s2, drawn_eq]
  simp [engineStep, s1, Transfer.state, hi, hs.noFault, hq, hr, hl, hdepth, State.answer, State.answered, State.record]

/-- R87, R88, R93: the byte in `rxq` is received, by reads alone. -/
theorem run_receive {s : State} (hs : LiveLead s) {d : Transfer} {r : Byte} {ps : List Prim} (hr : d.rxq = [r])
    (ht : d.todo = rxPlan s.cfg ++ ps) :
    ∃ reads ds n, reads.filter (fun e => !isRead e) = [] ∧ run (d.state s) = run (({ d with
      todo := ps
      rxByte := r
      rxq := []
      hist := d.hist ++ reads
      draws := ds
      nDraws := n } : Transfer).state s) := by
  let s1 : State := d.state s
  have htodo : (s1.core s1.cur).todo = rxPlan s.cfg ++ ps := (d.state_todo hs.lt).trans ht
  have hcore : s1.core s1.cur = _ := d.state_core hs.lt
  cases hsr : s.cfg.rxSameRead with
  | true =>
    have h := run_rx_reference_same (s := s1) (ps := ps) (hs.alone_state d) hs.iface hsr hr
      (htodo.trans (by simp [rxPlan, hsr]))
    refine ⟨[.ioR s.cur s.cfg.offRxrdy (rxrdyRead s1)], s1.drawn.draws, s1.drawn.nDraws, rfl, ?_⟩
    rw [h, drawn_eq, hcore]
    simp only [s1, Transfer.state, List.set_set]
  | false =>
    have h := run_rx_reference (s := s1) (ps := ps) (hs.alone_state d) hs.iface hsr hr
      (htodo.trans (by simp [rxPlan, hsr]))
    refine ⟨[.ioR s.cur s.cfg.offRxrdy (rxrdyRead s1),
      .ioR s.cur s.cfg.offRxdata (setField s.cfg.rxByteLsb s1.drawn.draw r)],
      s1.drawn.drawn.draws, s1.drawn.drawn.nDraws, rfl, ?_⟩
    rw [h, drawn_eq s1.drawn, drawn_eq s1, hcore]
    simp only [s1, Transfer.state, List.set_set]

/-! ## A part of the run -/

/-- What the history records for an exchange at place `x.2` of a `copy`'s frame: the TXDATA write, the exchange and, for a data
byte, the memory write (R59, R106). -/
def exchangeSlot (cfg : Config) (h dst : Nat) (x : Exchange × Nat) : List Event :=
  [.ioW h cfg.offTxdata (txWord cfg.txByteLsb x.1.mosi), .ex x.1.mosi x.1.miso] ++
    if x.2 < 4 then [] else [.mem h (dst + (x.2 - 4)) x.1.miso]

/-- `exchangeEvents` of a part of the frame, which begins at place `k`. -/
def exchangeEventsFrom (cfg : Config) (h dst k : Nat) (frame : List Exchange) : List Event :=
  (frame.zipIdx k).flatMap (exchangeSlot cfg h dst)

theorem exchangeEvents_eq_from (cfg : Config) (h dst : Nat) (frame : List Exchange) :
    exchangeEvents cfg h dst frame = exchangeEventsFrom cfg h dst 0 frame := rfl

theorem exchangeEventsFrom_cons (cfg : Config) (h dst k : Nat) (x : Exchange) (frame : List Exchange) :
    exchangeEventsFrom cfg h dst k (x :: frame) =
      exchangeSlot cfg h dst (x, k) ++ exchangeEventsFrom cfg h dst (k + 1) frame := rfl

theorem exchangeEventsFrom_append (cfg : Config) (h dst k : Nat) (f g : List Exchange) :
    exchangeEventsFrom cfg h dst k (f ++ g) =
      exchangeEventsFrom cfg h dst k f ++ exchangeEventsFrom cfg h dst (k + f.length) g := by
  simp [exchangeEventsFrom, List.zipIdx_append]

theorem getLastD_append {α : Type} (xs ys : List α) (a : α) : (xs ++ ys).getLastD a = ys.getLastD (xs.getLastD a) := by
  simp only [List.getLastD_eq_getLast?, List.getLast?_append]
  cases ys.getLast? <;> rfl

theorem getLastD_of_ne_nil {α : Type} {xs : List α} (h : xs ≠ []) (a b : α) : xs.getLastD a = xs.getLastD b := by
  cases xs with
  | nil => exact absurd rfl h
  | cons => rfl

theorem getLastD_map {α β : Type} (g : α → β) (xs : List α) (a : α) : (xs.map g).getLastD (g a) = g (xs.getLastD a) := by
  simp only [List.getLastD_eq_getLast?, List.getLast?_map, Option.getD_map]

/-- A part of the run of a `copy` from `d` to `d'`: it sends the bytes `bs`, which the device answers as `frame` says, and its
events other than reads are `es`. -/
structure Exchanged (s : State) (d d' : Transfer) (bs : List Byte) (frame : List Exchange) (es : List Event) : Prop where
  run : run (d.state s) = run (d'.state s)
  answers : exchangeAll s.cfg.inhBegin bs (d.miso, d.wire) = (d'.miso, d'.wire)
  wire : d'.wire = d.wire ++ frame
  rxByte : d'.rxByte = (frame.map Exchange.miso).getLastD d.rxByte
  txdata : d'.txdata = (bs.map (txWord s.cfg.txByteLsb)).getLastD d.txdata
  txq : d'.txq = d.txq
  rxq : d'.rxq = d.rxq
  inh : d'.inh = d.inh
  inhWord : d'.inhWord = d.inhWord
  events : ∃ all, d'.hist = d.hist ++ all ∧ all.filter (fun e => !isRead e) = es

theorem Exchanged.refl (s : State) (d : Transfer) : Exchanged s d d [] [] [] where
  run := rfl
  answers := rfl
  wire := (List.append_nil _).symm
  rxByte := rfl
  txdata := rfl
  txq := rfl
  rxq := rfl
  inh := rfl
  inhWord := rfl
  events := ⟨[], (List.append_nil _).symm, rfl⟩

theorem Exchanged.append {s : State} {d d' d'' : Transfer} {bs cs : List Byte} {f g : List Exchange} {es fs : List Event}
    (x : Exchanged s d d' bs f es) (y : Exchanged s d' d'' cs g fs) :
    Exchanged s d d'' (bs ++ cs) (f ++ g) (es ++ fs) where
  run := x.run.trans y.run
  answers := by
    rw [← y.answers, ← x.answers]
    exact List.foldl_append
  wire := by rw [y.wire, x.wire, List.append_assoc]
  rxByte := by rw [y.rxByte, x.rxByte, List.map_append, getLastD_append]
  txdata := by rw [y.txdata, x.txdata, List.map_append, getLastD_append]
  txq := y.txq.trans x.txq
  rxq := y.rxq.trans x.rxq
  inh := y.inh.trans x.inh
  inhWord := y.inhWord.trans x.inhWord
  events := by
    obtain ⟨a, ha, ra⟩ := x.events
    obtain ⟨b, hb, rb⟩ := y.events
    exact ⟨a ++ b, by rw [hb, ha, List.append_assoc], by rw [List.filter_append, ra, rb]⟩

/-- Between two exchanges of a frame: the FIFOs are empty and the inhibit bit has the frame's level (R105, R107). -/
structure InFrame (s : State) (d : Transfer) : Prop where
  txq : d.txq = []
  rxq : d.rxq = []
  level : inhLevel s.cfg.inhibitBit d.inh = s.cfg.inhBegin

theorem Exchanged.inFrame {s : State} {d d' : Transfer} {bs : List Byte} {frame : List Exchange} {es : List Event}
    (x : Exchanged s d d' bs frame es) (hd : InFrame s d) : InFrame s d' :=
  ⟨x.txq.trans hd.txq, x.rxq.trans hd.rxq, by rw [x.inh]; exact hd.level⟩

/-- R96, R105: a byte sent and the answer received, at the frame's level. -/
theorem exchanged_txrx {s : State} (hs : LiveLead s) {d : Transfer} {b : Byte} {ps : List Prim} (hd : InFrame s d)
    (ht : d.todo = txrxPlan s.cfg b ++ ps) :
    ∃ d' r, Exchanged s d d' [b] [⟨s.cfg.inhBegin, b, r⟩]
        [.ioW s.cur s.cfg.offTxdata (txWord s.cfg.txByteLsb b), .ex b r] ∧
      d'.todo = ps ∧ d'.mem = d.mem := by
  obtain ⟨w, ds, n, h1⟩ := run_send hs (b := b) (ps := rxPlan s.cfg ++ ps) hd.txq (by rw [ht]; simp [txrxPlan])
  generalize hd1 : ({ d with
    todo := _, txq := _, txdata := _, hist := _, draws := ds, nDraws := n } : Transfer) = d1 at h1
  obtain ⟨qs, hq⟩ : ∃ qs, rxPlan s.cfg = .pollRx :: qs := by unfold rxPlan; split <;> exact ⟨_, rfl⟩
  obtain ⟨r, v, ds', n', hans, h2⟩ := run_exchange hs (d := d1) (b := b) (ps := qs ++ ps) (by rw [← hd1])
    (by rw [← hd1]; exact hd.rxq) (by rw [← hd1]; exact hd.level) (by rw [← hd1]; simp [hq])
  generalize hd2 : ({ d1 with
    txq := _, rxq := _, miso := _, wire := _, hist := _, draws := ds', nDraws := n' } : Transfer) = d2 at h2
  obtain ⟨reads, ds'', n'', hreads, h3⟩ := run_receive hs (d := d2) (r := r) (ps := ps) (by rw [← hd2])
    (by rw [← hd2, ← hd1])
  subst hd2 hd1
  have hevents : (([.ioR s.cur s.cfg.offTxcnt w, .ioW s.cur s.cfg.offTxdata (txWord s.cfg.txByteLsb b),
      .ioR s.cur s.cfg.offRxrdy v, .ex b r] : List Event) ++ reads).filter (fun e => !isRead e) =
      [.ioW s.cur s.cfg.offTxdata (txWord s.cfg.txByteLsb b), .ex b r] := by
    rw [List.filter_append, hreads]
    rfl
  exact ⟨_, r, {
    run := h1.trans (h2.trans h3)
    answers := hans
    wire := rfl
    rxByte := rfl
    txdata := rfl
    txq := hd.txq.symm
    rxq := hd.rxq.symm
    inh := rfl
    inhWord := rfl
    events := ⟨_, by simp only [List.append_assoc, List.cons_append, List.nil_append], hevents⟩ }, rfl, rfl⟩

/-! ## The other primitives -/

/-- R102: a byte stored. -/
theorem exchanged_store {s : State} (hs : LiveLead s) {d : Transfer} {a : Nat} {ps : List Prim}
    (ht : d.todo = .store a :: ps) :
    ∃ d', Exchanged s d d' [] [] [.mem s.cur a d.rxByte] ∧ d'.todo = ps ∧ d'.mem = writeMem d.mem a d.rxByte := by
  have hbyte : ((d.state s).core s.cur).rxByte = d.rxByte := congrArg Core.rxByte (d.state_core hs.lt)
  have hprim : prim s.cur (.store a) ps (d.state s) =
      .moved ((storeByte s.cur a d.rxByte (d.state s)).setTodo s.cur ps) := by
    rw [← hbyte]
    rfl
  have hrun := run_transfer hs ht (hprim.trans (congrArg Micro.moved (Transfer.state_setTodo hs.lt
    { d with mem := writeMem d.mem a d.rxByte, hist := d.hist ++ [.mem s.cur a d.rxByte] } ps)))
  exact ⟨_, { Exchanged.refl s d with run := hrun, events := ⟨_, rfl, rfl⟩ }, rfl, rfl⟩

/-- R102: the head of `copy`'s loop, unfolded or over. -/
theorem exchanged_copyBytes {s : State} (hs : LiveLead s) {d : Transfer} {a n : Nat} {ps qs : List Prim}
    (hq : qs = match n with
      | 0 => ps
      | n + 1 => txrxPlan s.cfg 0 ++ ([.store a, .copyBytes (a + 1) n] ++ ps))
    (ht : d.todo = .copyBytes a n :: ps) :
    ∃ d', Exchanged s d d' [] [] [] ∧ d'.todo = qs ∧ d'.mem = d.mem := by
  have hprim : prim s.cur (.copyBytes a n) ps (d.state s) = .moved ((d.state s).setTodo s.cur qs) := by
    subst hq
    cases n <;> rfl
  have hrun := run_transfer hs ht (hprim.trans (congrArg Micro.moved (Transfer.state_setTodo hs.lt d qs)))
  exact ⟨_, { Exchanged.refl s d with run := hrun }, rfl, rfl⟩

/-- R100, R101: what opening (`true`) or closing (`false`) a frame leaves, with `ps` to do after it. -/
def Transfer.framed (d : Transfer) (s : State) (begins : Bool) (ps : List Prim) : Transfer :=
  { d with
    todo := ps
    inhWord := d.inh
    inh := withInhibit s.cfg.inhibitBit (frameLevel s.cfg begins) d.inh
    hist := d.hist ++ [.ioR s.cur s.cfg.offInh d.inh,
      .ioW s.cur s.cfg.offInh (withInhibit s.cfg.inhibitBit (frameLevel s.cfg begins) d.inh)] }

/-- R100, R101: the frame opened or closed. -/
theorem run_framed {s : State} (hs : LiveLead s) {d : Transfer} {begins : Bool} {ps : List Prim}
    (ht : d.todo = framePlan begins ++ ps) : run (d.state s) = run ((d.framed s begins ps).state s) := by
  have h := run_frame (hs.alone_state d) ((d.state_todo hs.lt).trans ht)
  have hread : readInhWord (d.state s).cur (d.state s) = (d.inh, (d.state s).record (.ioR s.cur s.cfg.offInh d.inh)) :=
    readInhWord_written (.inl ⟨hs.iface, rfl⟩)
  rw [h, hread, d.state_core hs.lt]
  simp [Transfer.state, Transfer.framed, State.record, hs.iface]

/-! ## The command and the loop -/

/-- R75, R105: the command bytes, sent from place `k` of the frame on. -/
theorem exchanged_command {s : State} (hs : LiveLead s) {d : Transfer} {bs : List Byte} {ps : List Prim} {k : Nat} (dst : Nat)
    (hd : InFrame s d) (hk : k + bs.length ≤ 4)
    (ht : d.todo = bs.flatMap (txrxPlan s.cfg) ++ ps) :
    ∃ d' frame, Exchanged s d d' bs frame (exchangeEventsFrom s.cfg s.cur dst k frame) ∧ frame.length = bs.length ∧
      d'.todo = ps ∧ d'.mem = d.mem := by
  induction bs generalizing d k with
  | nil => exact ⟨d, [], .refl s d, rfl, ht, rfl⟩
  | cons b bs ih =>
    rw [List.length_cons] at hk
    obtain ⟨d1, r, x, ht1, hm1⟩ := exchanged_txrx hs (b := b) (ps := bs.flatMap (txrxPlan s.cfg) ++ ps) hd
      (by simpa using ht)
    obtain ⟨d2, frame, y, hlen, ht2, hm2⟩ := ih (d := d1) (k := k + 1) (x.inFrame hd) (by omega) ht1
    refine ⟨d2, ⟨s.cfg.inhBegin, b, r⟩ :: frame, ?_, congrArg (· + 1) hlen, ht2, hm2.trans hm1⟩
    rw [exchangeEventsFrom_cons, exchangeSlot, if_pos (by dsimp only; omega)]
    exact x.append y

/-- R102, R106, R107: `copy`'s loop from data byte `j` on: each answer is stored before the next byte is sent. -/
theorem exchanged_loop {s : State} (hs : LiveLead s) {d : Transfer} {n dst j : Nat} {ps : List Prim} (hd : InFrame s d)
    (ht : d.todo = .copyBytes (dst + j) n :: ps) :
    ∃ d' frame, Exchanged s d d' (List.replicate n 0) frame (exchangeEventsFrom s.cfg s.cur dst (4 + j) frame) ∧
      d'.todo = ps ∧ d'.mem = storeAll d.mem (dst + j) (frame.map Exchange.miso) := by
  induction n generalizing d j with
  | zero =>
    obtain ⟨d1, x, ht1, hm1⟩ := exchanged_copyBytes hs rfl ht
    exact ⟨d1, [], x, ht1, hm1⟩
  | succ n ih =>
    obtain ⟨d1, x1, ht1, hm1⟩ := exchanged_copyBytes hs rfl ht
    obtain ⟨d2, r, x2, ht2, hm2⟩ := exchanged_txrx hs (x1.inFrame hd) ht1
    obtain ⟨d3, x3, ht3, hm3⟩ := exchanged_store hs ht2
    have x := (x1.append x2).append x3
    obtain ⟨d4, frame, y, ht4, hm4⟩ := ih (d := d3) (j := j + 1) (x.inFrame hd) ht3
    have hr : d2.rxByte = r := x2.rxByte
    refine ⟨d4, ⟨s.cfg.inhBegin, 0, r⟩ :: frame, ?_, ht4, ?_⟩
    · have hplace : ¬ 4 + j < 4 := by omega
      have haddr : dst + (4 + j - 4) = dst + j := by omega
      rw [hr] at x
      rw [exchangeEventsFrom_cons, exchangeSlot, if_neg hplace, haddr]
      exact x.append y
    · rw [hm4, hm3, hm2, hm1, hr]
      rfl

/-- R75: the bytes of a `copy`, by shifts. -/
theorem copyMosi_eq (cfg : Config) (addr size : Word) :
    copyMosi cfg addr size = (cfg.readOpcode :: addrBytes addr) ++ List.replicate size.toNat 0 := by
  have byte : ∀ n, addr.extractLsb' n 8 = (addr >>> n).setWidth 8 := fun n => getField_eq n addr
  simp [copyMosi, addrBytes, byte]

/-- R75, R102, R105: all that a `copy` sends in its frame, and what it stores of the answers. -/
theorem exchanged_copy {s : State} (hs : LiveLead s) {d : Transfer} {dst addr size : Word} {ps : List Prim} (hd : InFrame s d)
    (ht : d.todo = commandPlan s.cfg addr ++ (.copyBytes dst.toNat size.toNat :: ps)) :
    ∃ d' frame, Exchanged s d d' (copyMosi s.cfg addr size) frame (exchangeEvents s.cfg s.cur dst.toNat frame) ∧
      frame ≠ [] ∧ d'.todo = ps ∧ d'.mem = storeAll d.mem dst.toNat ((frame.drop 4).map Exchange.miso) := by
  obtain ⟨d1, f1, x1, hlen, ht1, hm1⟩ := exchanged_command hs (bs := s.cfg.readOpcode :: addrBytes addr) (k := 0) dst.toNat hd
    (Nat.le_refl 4) ht
  obtain ⟨d2, f2, x2, ht2, hm2⟩ := exchanged_loop hs (j := 0) (x1.inFrame hd) ht1
  have hlen4 : f1.length = 4 := hlen
  refine ⟨d2, f1 ++ f2, ?_, ?_, ht2, ?_⟩
  · rw [copyMosi_eq, exchangeEvents_eq_from, exchangeEventsFrom_append, hlen4]
    exact x1.append x2
  · exact List.append_ne_nil_of_left_ne_nil (List.ne_nil_of_length_pos (by omega)) f2
  · rw [hm2, hm1, List.drop_left' hlen4]
    rfl

/-- R102: the whole run of a `copy`: the frame opened, what is sent in it, the frame closed, and the return. -/
theorem run_copy {s : State} (hs : LiveLead s) (hbit : s.cfg.inhibitBit ≤ 31) {d : Transfer} {dst addr size : Word}
    (htxq : d.txq = []) (hrxq : d.rxq = []) (ht : d.todo = planOf s.cfg (.copy dst addr size)) :
    ∃ ps d' frame,
      Exchanged s (d.framed s true ps) d' (copyMosi s.cfg addr size) frame (exchangeEvents s.cfg s.cur dst.toNat frame) ∧
      frame ≠ [] ∧ d'.mem = storeAll d.mem dst.toNat ((frame.drop 4).map Exchange.miso) ∧
      run (d.state s) = ((d'.framed s false [.ret .ok]).state s).returns .ok := by
  let sending : List Prim :=
    commandPlan s.cfg addr ++ (.copyBytes dst.toNat size.toNat :: (framePlan false ++ [.ret .ok]))
  have ht1 : d.todo = framePlan true ++ sending := by simp [ht, planOf, copyPlan, sending]
  let d1 : Transfer := d.framed s true sending
  have hin : InFrame s d1 := ⟨htxq, hrxq, inhLevel_withInhibit hbit _ _⟩
  obtain ⟨d2, frame, hx, hne, ht2, hmem⟩ := exchanged_copy hs hin rfl
  let d3 : Transfer := d2.framed s false [.ret .ok]
  have ha := hs.alone_state d3
  refine ⟨sending, d2, frame, hx, hne, hmem, ?_⟩
  calc
    run (d.state s) = run (d1.state s) := run_framed hs ht1
    _ = run (d2.state s) := hx.run
    _ = run (d3.state s) := run_framed hs ht2
    _ = (d3.state s).returns .ok := run_ret ha.sched ha.lt (d3.state_todo hs.lt)

/-- The state in which an operation returns, with what the run of the operation has changed. -/
theorem Transfer.starting_returns {s : State} (hc : s.cur < s.cores.length) (d : Transfer) (i : Instr) (r : Result) :
    (d.state (starting s i)).returns r = ((({ s with
      txq := d.txq
      rxq := d.rxq
      inh := d.inh
      txdata := d.txdata
      miso := d.miso
      wire := d.wire
      mem := d.mem
      hist := d.hist
      draws := d.draws
      nDraws := d.nDraws } : State).withRxByte d.rxByte).withInhWord d.inhWord).returns r := by
  simp [Transfer.state, starting, State.returns, State.withRxByte, State.withInhWord, State.setCore, State.core, hc]

/-- Settles O38: the run of the `copy` (`run_copy`), field by field. -/
theorem copyReadsFlash : Obligations.CopyReadsFlash := by
  intro s dst addr size hr ⟨⟨hi, hsched⟩, hlive, hfault⟩ hfields htxq hrxq hroom htx hrx hrange mosi x frame opened closed
  have hc : s.cur < s.cores.length := hr.1.1
  obtain ⟨hlsb, hbit⟩ : s.cfg.txByteLsb ≤ 24 ∧ s.cfg.inhibitBit ≤ 31 := by simp [fieldsOk] at hfields; tauto
  let i : Instr := .copy dst addr size
  let s0 : State := starting s i
  have hs : LiveLead s0 := ⟨starting_alone hr hsched i, hi, hlive, hfault, hlsb, hroom, htx, hrx⟩
  have hexec : exec i s = .next (run s0) := exec_starting hr rfl fun d a z e => by
    cases (show Instr.copy dst addr size = .copy d a z from e)
    exact hrange
  obtain ⟨ps, d2, f, hx, hne, hmem, hrun⟩ := run_copy hs hbit (d := .of s0) htxq hrxq (starting_todo hc i)
  rw [Transfer.of_state hs.lt] at hrun
  let d3 : Transfer := d2.framed s0 false [.ret .ok]
  -- What it leaves, as the statement says it.
  have hx2 : x = (d2.miso, d2.wire) := hx.answers
  have hwire : d3.wire = x.2 := by rw [hx2]; rfl
  have hmiso : d3.miso = x.1 := by rw [hx2]; rfl
  have hframe : frame = f := by
    have : d2.wire = s.wire ++ f := hx.wire
    simp only [frame, hx2, this, List.drop_left]
  have hinhWord : d3.inhWord = opened := hx.inh
  have hinh : d3.inh = closed := congrArg (withInhibit s.cfg.inhibitBit !s.cfg.inhBegin) hx.inh
  have htxdata : d3.txdata = txWord s.cfg.txByteLsb (mosi.getLastD 0) :=
    (hx.txdata.trans (getLastD_of_ne_nil (by simp [copyMosi]) _ _)).trans (getLastD_map _ _ _)
  have hrxByte : d3.rxByte = (frame.map Exchange.miso).getLastD 0 := by
    rw [hframe]
    exact hx.rxByte.trans (getLastD_of_ne_nil (by simpa using hne) _ _)
  have hmem3 : d3.mem = storeAll s.mem dst.toNat ((frame.drop 4).map Exchange.miso) := by
    rw [hframe]
    exact hmem
  obtain ⟨all, hall, hevents⟩ := hx.events
  have hhist : d3.hist = s.hist ++ ([.ioR s.cur s.cfg.offInh s.inh, .ioW s.cur s.cfg.offInh opened] ++ all ++
      [.ioR s.cur s.cfg.offInh opened, .ioW s.cur s.cfg.offInh closed]) := by
    have e : d3.hist = d2.hist ++ [.ioR s.cur s.cfg.offInh d3.inhWord, .ioW s.cur s.cfg.offInh d3.inh] := rfl
    have e2 : d2.hist = s.hist ++ [.ioR s.cur s.cfg.offInh s.inh, .ioW s.cur s.cfg.offInh opened] ++ all := hall
    rw [e, e2, hinhWord, hinh]
    simp only [List.append_assoc]
  refine ⟨(d3.state s0).returns .ok, by rw [← hrun]; exact hexec, ?_, ⟨_, hhist.symm⟩, ?_⟩
  · rw [Transfer.starting_returns hc, hinh, htxdata, hmiso, hwire, hmem3, hrxByte, hinhWord,
      show d3.txq = s.txq from hx.txq, show d3.rxq = s.rxq from hx.rxq]
    rfl
  · rw [show ((d3.state s0).returns .ok).hist = _ from hhist, List.drop_left, List.filter_append, List.filter_append, hevents,
      hframe]
    rfl

end Sys2Proof.Proofs
end

section
/-! PROOFS. The statements of spec/30_encoding.md: operations as bytes (R77, R79, R80), the slot that no operation has
(R79, R146), and the fields of a diagnostic code (R71, R72, R84, R121 to R126, R129). -/

namespace Sys2Proof.Proofs

open Sys2Proof Sys2Proof.Machine Sys2Proof.Laws

/-! ## Operands in a list of bytes -/

@[simp] theorem byteAt_cons_zero (b : Byte) (bs : List Byte) : byteAt (b :: bs) 0 = b := rfl

@[simp] theorem byteAt_cons_succ (b : Byte) (bs : List Byte) (k : Nat) : byteAt (b :: bs) (k + 1) = byteAt bs k := rfl

/-- The four bytes of a 32-bit operand put together again. -/
@[simp] theorem wordAt_wordBytes (w : Word) (bs : List Byte) : wordAt (wordBytes w ++ bs) 0 = w := by
  change ((w.extractLsb' 24 8 ++ w.extractLsb' 16 8) ++ w.extractLsb' 8 8) ++ w.extractLsb' 0 8 = w
  rw [BitVec.extractLsb'_append_extractLsb'_eq_extractLsb' (rfl : 24 = 16 + 8),
    BitVec.extractLsb'_append_extractLsb'_eq_extractLsb' (rfl : 16 = 8 + 8),
    BitVec.extractLsb'_append_extractLsb'_eq_extractLsb' (rfl : 8 = 0 + 8)]
  exact BitVec.extractLsb'_eq_self

/-- The two words of a 64-bit operand put together again. -/
theorem append_halves (c : Code) : c.extractLsb' 32 32 ++ c.extractLsb' 0 32 = c := by
  rw [BitVec.extractLsb'_append_extractLsb'_eq_extractLsb' (rfl : 32 = 0 + 32)]
  exact BitVec.extractLsb'_eq_self

/-! What stands behind an operand is read as if the operand were not there. -/

@[simp] theorem wordAt_wordBytes_add (w : Word) (bs : List Byte) (k : Nat) :
    wordAt (wordBytes w ++ bs) (k + 4) = wordAt bs k := rfl

@[simp] theorem byteAt_codeBytes_add (c : Code) (bs : List Byte) (k : Nat) :
    byteAt (codeBytes c ++ bs) (k + 8) = byteAt bs k := rfl

@[simp] theorem codeAt_codeBytes (c : Code) (bs : List Byte) : codeAt (codeBytes c ++ bs) 0 = c := by
  rw [codeAt, codeBytes, List.append_assoc, wordAt_wordBytes_add, wordAt_wordBytes, wordAt_wordBytes]
  exact append_halves c

@[simp] theorem codeAt_cons_succ (b : Byte) (bs : List Byte) (k : Nat) : codeAt (b :: bs) (k + 1) = codeAt bs k := rfl

/-- The stage operand is the lower half of its byte. -/
@[simp] theorem stage_of_byte (stage : BitVec 4) : (stage.setWidth 8).extractLsb' 0 4 = stage := by
  rw [BitVec.extractLsb'_setWidth_of_le (by decide)]
  exact BitVec.extractLsb'_eq_self

/-! ## The decoder, selector by selector (R77) -/

theorem decode_tx (bs : List Byte) : decode (0x01#8 :: bs) = .ok (.tx (byteAt bs 0)) := rfl

theorem decode_rx (bs : List Byte) : decode (0x02#8 :: bs) = .ok .rx := rfl

theorem decode_txrx (bs : List Byte) : decode (0x03#8 :: bs) = .ok (.txrx (byteAt bs 0)) := rfl

theorem decode_frameBegin (bs : List Byte) : decode (0x04#8 :: bs) = .ok .frameBegin := rfl

theorem decode_frameEnd (bs : List Byte) : decode (0x05#8 :: bs) = .ok .frameEnd := rfl

theorem decode_copy (bs : List Byte) :
    decode (0x06#8 :: bs) = .ok (.copy (wordAt bs 0) (wordAt bs 4) (wordAt bs 8)) := rfl

theorem decode_clkdiv (bs : List Byte) : decode (0x07#8 :: bs) = .ok (.clkdiv (wordAt bs 0) (wordAt bs 4)) := rfl

theorem decode_diagEncode (bs : List Byte) :
    decode (0x10#8 :: bs) = .ok (.diagEncode ((byteAt bs 0).extractLsb' 0 4) (byteAt bs 1) (codeAt bs 2)) := rfl

theorem decode_diagDecode (bs : List Byte) : decode (0x11#8 :: bs) = .ok (.diagDecode (codeAt bs 0)) := rfl

theorem decode_fail (bs : List Byte) : decode (0x20#8 :: bs) = .ok (.fail (codeAt bs 0) (byteAt bs 8)) := rfl

/-- Settles O1: the selector picks the decoder's equation, and each operand reads back from its own bytes. -/
theorem decodeEncodeAgree : Obligations.DecodeEncodeAgree := by
  intro i rest
  cases i with
  | tx b => exact decode_tx (b :: rest)
  | rx => exact decode_rx rest
  | txrx b => exact decode_txrx (b :: rest)
  | frameBegin => exact decode_frameBegin rest
  | frameEnd => exact decode_frameEnd rest
  | copy dst addr size => simp [encode, selector, operandBytes, decode_copy]
  | clkdiv input target => simp [encode, selector, operandBytes, decode_clkdiv]
  | diagEncode stage isTrap code => simp [encode, selector, operandBytes, decode_diagEncode]
  | diagDecode d => simp [encode, selector, operandBytes, decode_diagDecode]
  | fail code isTrap => simp [encode, selector, operandBytes, decode_fail]

/-- Settles O3: each word by the decoder's equation for its selector, its operands by evaluation. -/
theorem selectorWordsDecode : Obligations.SelectorWordsDecode :=
  ⟨decode_tx _, decode_rx _, decode_txrx _, decode_frameBegin _, decode_frameEnd _, decode_copy _, decode_clkdiv _,
    decode_diagEncode _, decode_diagDecode _, decode_fail _⟩

/-- R77: every operation's selector is one of the table's. -/
theorem selector_mem_table (i : Instr) :
    (selector i).toNat ∈ [0x01, 0x02, 0x03, 0x04, 0x05, 0x06, 0x07, 0x10, 0x11, 0x20] := by
  cases i <;> simp [selector]

/-- R79, R80: what the decoder answers: an operation whose selector is the first byte, or the refusal of a first byte that is
no selector of the table. -/
theorem decode_cases (bs : List Byte) :
    (∃ i, decode bs = .ok i ∧ selector i = byteAt bs 0) ∨
      (decode bs = .error (.unknownOp (byteAt bs 0)) ∧
        (byteAt bs 0).toNat ∉ [0x01, 0x02, 0x03, 0x04, 0x05, 0x06, 0x07, 0x10, 0x11, 0x20]) := by
  unfold decode
  split
  case h_11 => exact .inr ⟨rfl, by simp_all⟩
  all_goals exact .inl ⟨_, rfl, BitVec.eq_of_toNat_eq (Eq.symm ‹_›)⟩

/-- Settles O2: of the decoder's two answers (`decode_cases`) each half of the statement rules out the other one. -/
theorem decoderIsTotal : Obligations.DecoderIsTotal := by
  intro bs
  rcases decode_cases bs with ⟨i, hd, hi⟩ | ⟨hd, hn⟩
  · exact ⟨fun _ => ⟨i, hd, hi⟩, fun hn => absurd (hi ▸ selector_mem_table i) hn⟩
  · exact ⟨fun hm => absurd hm hn, fun _ => hd⟩

/-! ## A slot that no operation has (R79, R146) -/

/-- R79, R80: the decoder refuses a slot with another selector. -/
theorem decode_unknown {sel : Byte} (rest : List Byte)
    (h : sel.toNat ∉ [0x01, 0x02, 0x03, 0x04, 0x05, 0x06, 0x07, 0x10, 0x11, 0x20]) :
    decode (sel :: rest) = .error (.unknownOp sel) :=
  (decoderIsTotal (sel :: rest)).2 h

/-- R79: the step on a slot that the decoder refuses, where the executing core can start an operation and it is its turn. -/
theorem step_unknown {s : State} {slot : Slot} {sel : Byte} (hl : launchOk s = true) (hr : Ready s)
    (ho : othersTurn s = false) (hf : fetch s = some slot) (hd : decode slot = .error (.unknownOp sel)) :
    step s = .next (s.turnTaken.refuse (.unknownOp sel)) := by
  obtain ⟨_, hrun, ht, hn⟩ := hr
  have hb : s.busy = false := by simp [State.busy, ht]
  unfold step
  simp [hl, hb, hn, ho, hrun, hf, hd]

/-- At rest nothing happens without the executing core. -/
theorem quiet_of_atRest {s : State} (h : AtRest s) : quiet s = true := by
  obtain ⟨hs, hi | hq | hlive | hf⟩ := h
  · simp [quiet, engineDue, hs, hi]
  · simp [quiet, engineDue, hs, hq]
  · simp [quiet, engineDue, hs, hlive]
  · simp [quiet, engineDue, hs, Option.isSome_iff_ne_none, hf]

/-- R145, R146: at rest, the step of a machine whose executing core's run has ended answers how. -/
theorem step_ended_atRest {s : State} {x : Stop} (hl : launchOk s = true) (ht : (s.core s.cur).todo = [])
    (hx : (s.core s.cur).stop = some x) (h : AtRest s) : step s = x.outcome := by
  have hb : s.busy = false := by simp [State.busy, ht]
  unfold step
  simp [hl, hb, hx, quiet_of_atRest h]

/-- Settles O5: the step keeps the mark (`step_unknown`), and at rest the next one answers it (`step_ended_atRest`). -/
theorem unknownSelectorIsRefused : Obligations.UnknownSelectorIsRefused := by
  intro s sel rest hl hr ho hf hsel
  refine ⟨_, step_unknown hl hr ho hf (decode_unknown rest hsel), rfl, fun hrest => ?_⟩
  let x : Stop := .refused (.unknownOp sel)
  have hcore : (s.turnTaken.stopCore s.cur x).core s.cur = { s.turnTaken.core s.cur with stop := some x, todo := [] } :=
    core_stopCore_self x hr.1
  exact step_ended_atRest ((launchOk_setCore s.turnTaken _ _).trans hl) (congrArg Core.todo hcore)
    (congrArg Core.stop hcore) hrest

/-! ## The fields of a code (R71, R84) -/

/-- R84: the stage by a shift. -/
theorem ushiftRight_stage (d : Code) : d >>> 60 = (d.extractLsb' 60 4).setWidth 64 := by
  apply BitVec.eq_of_getLsbD_eq
  intro i hi
  simp only [BitVec.getLsbD_ushiftRight, BitVec.getLsbD_setWidth, BitVec.getLsbD_extractLsb', hi, decide_true, Bool.true_and]
  rcases Nat.lt_or_ge i 4 with h | h
  · simp [h]
  · simp [BitVec.getLsbD_of_ge d (60 + i) (by omega)]

/-- R84: the trap nibble by a shift and a mask. -/
theorem ushiftRight_trap (d : Code) : (d >>> 56) &&& 0xF = (d.extractLsb' 56 4).setWidth 64 := by
  apply BitVec.eq_of_toNat_eq
  have hmask (n : Nat) : n &&& 15 = n % 2 ^ 4 := Nat.and_two_pow_sub_one_eq_mod n 4
  simp [BitVec.extractLsb'_toNat, hmask]
  omega

/-- R71, R72: the three fields of a code put together from a stage, a flag and a payload. -/
theorem packCode_layout (stage : BitVec 4) (flag : Byte) (p : BitVec 56) :
    packCode stage flag p >>> 60 = stage.setWidth 64 ∧
      (packCode stage flag p >>> 56) &&& 0xF = (flag.setWidth 4).setWidth 64 ∧
      (packCode stage flag p).setWidth 56 = p := by
  rw [ushiftRight_stage, ushiftRight_trap, BitVec.setWidth_eq_extractLsb' (show 56 ≤ 64 by decide), packCode_stage,
    packCode_trap, packCode_payload]
  exact ⟨rfl, rfl, rfl⟩

/-- R122: a logic code that fits 56 bits is its own payload. -/
theorem setWidth_logicPayload {code : Code} (h : code.toNat < 2 ^ 56) : (code.extractLsb' 0 56).setWidth 64 = code := by
  apply BitVec.eq_of_toNat_eq
  simp [BitVec.extractLsb'_toNat]
  omega

/-- R122: a logic code composes its code by shifts. -/
theorem composeCode_logic_shifts (stage : BitVec 4) {code : Code} (h : code.toNat < 2 ^ 56) :
    composeCode stage 0 code = .ok (codeByShifts stage 0 code) := by
  rw [composeCode_logic stage h, packCode_eq_shifts stage (by decide), setWidth_logicPayload h]

/-- R126: what the encoder composes of the payload that the flag and the code select. -/
theorem composeCode_of_payload (stage : BitVec 4) {flag : Byte} {code : Code} {p : BitVec 56} (hf : flag = 0 ∨ flag = 1)
    (hp : payloadOf flag code = .ok p) : composeCode stage flag code = .ok (packCode stage flag p) := by
  unfold composeCode
  rw [if_pos hf, hp]

/-! ## `diag_encode` and `diag_decode` -/

/-- R126: `diag_encode` gives the code that it composes. -/
theorem exec_diagEncode_ok {s : State} (hr : Ready s) {stage : BitVec 4} {flag : Byte} {code d : Code}
    (h : composeCode stage flag code = .ok d) : exec (.diagEncode stage flag code) s = .next (s.retire (.code d)) := by
  rw [exec_diagEncode hr, h]

/-- R125, R130: `diag_encode` refuses what has no code. -/
theorem exec_diagEncode_error {s : State} (hr : Ready s) {stage : BitVec 4} {flag : Byte} {code : Code} {r : Refusal}
    (h : composeCode stage flag code = .error r) :
    exec (.diagEncode stage flag code) s = .next (s.endsIn (.refused r)) := by
  rw [exec_diagEncode hr, h]

/-- R126: a code that `diag_encode` gives as its result is the one that it composes. -/
theorem composeCode_of_exec {s t : State} (hr : Ready s) {stage : BitVec 4} {flag : Byte} {code d : Code}
    (he : exec (.diagEncode stage flag code) s = .next t) (ht : t.results = s.results ++ [.code d]) :
    composeCode stage flag code = .ok d := by
  cases hc : composeCode stage flag code with
  | ok d' =>
    rw [exec_diagEncode_ok hr hc] at he
    cases he
    simpa [State.retire] using ht
  | error r =>
    rw [exec_diagEncode_error hr hc] at he
    cases he
    simp [State.endsIn] at ht

/-- Settles O20: the result is what the encoder composes of the payload, and that has the layout (`packCode_layout`). -/
theorem codeHasStatedLayout : Obligations.CodeHasStatedLayout := by
  intro s t stage isTrap code d p hr hf hp he ht
  have hd : d = packCode stage isTrap p :=
    Except.ok.inj ((composeCode_of_exec hr he ht).symm.trans (composeCode_of_payload stage hf hp))
  obtain ⟨hstage, htrap, hpayload⟩ := packCode_layout stage isTrap p
  have hflag : (isTrap.setWidth 4).setWidth 64 = isTrap.setWidth 64 := by rcases hf with rfl | rfl <;> rfl
  exact hd ▸ ⟨hstage, htrap.trans hflag, hpayload⟩

/-- Settles O14: the encoder's cases by flag and code, then the layout of the code in the two cases that give one. -/
theorem encoderComposesCode : Obligations.EncoderComposesCode := by
  intro s stage isTrap code hr
  refine ⟨fun ⟨h0, h1⟩ => ?_, fun ⟨h0, hw⟩ => ?_, fun ⟨h0, hw⟩ => ?_, fun h1 => ?_, fun t d he ht => ?_⟩
  · exact exec_diagEncode_error hr (composeCode_flag stage code h0 h1)
  · subst h0
    exact exec_diagEncode_error hr (composeCode_wide stage (Nat.not_lt.2 hw))
  · subst h0
    exact exec_diagEncode_ok hr (composeCode_logic_shifts stage hw)
  · subst h1
    exact exec_diagEncode_ok hr (composeCode_trap_shifts stage code)
  · rcases composeCode_ok (composeCode_of_exec hr he ht) with ⟨h1, rfl⟩ | ⟨h0, hw, rfl⟩
    · obtain ⟨hstage, htrap, hpayload⟩ := packCode_layout stage 1 (trapPayload code)
      exact ⟨hstage, .inl ⟨h1, htrap, hpayload.symm⟩⟩
    · obtain ⟨hstage, htrap, hpayload⟩ := packCode_layout stage 0 (code.extractLsb' 0 56)
      exact ⟨hstage, .inr ⟨h0, htrap, by rw [hpayload, logicPayload_ok hw]⟩⟩

/-! R84, R129: the record of `diag_decode`: three fields of every code, and the rest by the trap nibble. -/

theorem decodeCode_fields (d : Code) : (decodeCode d).stage = d.extractLsb' 60 4 ∧
    (decodeCode d).trap = d.extractLsb' 56 4 ∧ (decodeCode d).payload = d.extractLsb' 0 56 := by
  unfold decodeCode
  dsimp only
  split_ifs <;> exact ⟨rfl, rfl, rfl⟩

/-- R129: nibble 0. -/
theorem decodeCode_logic {d : Code} (h : (decodeCode d).trap = 0) :
    (decodeCode d).intr = none ∧ (decodeCode d).causeLow = none ∧ (decodeCode d).cls = .logic := by
  obtain ⟨_, htrap, _⟩ := decodeCode_fields d
  rw [htrap] at h
  simp [decodeCode, h]

/-- R129: nibble 1. -/
theorem decodeCode_one {d : Code} (h : (decodeCode d).trap = 1) :
    (decodeCode d).intr = some (d.extractLsb' 55 1) ∧ (decodeCode d).causeLow = some (d.extractLsb' 0 55) ∧
      (decodeCode d).cls = .trap := by
  obtain ⟨_, htrap, _⟩ := decodeCode_fields d
  rw [htrap] at h
  simp [decodeCode, h]

/-- R129: any other nibble. -/
theorem decodeCode_other {d : Code} (h : 2 ≤ (decodeCode d).trap.toNat) :
    (decodeCode d).intr = none ∧ (decodeCode d).causeLow = none ∧ (decodeCode d).cls = .notEncoderOutput := by
  obtain ⟨_, htrap, _⟩ := decodeCode_fields d
  rw [htrap] at h
  have h0 : d.extractLsb' 56 4 ≠ 0 := fun e => by simp [e] at h
  have h1 : d.extractLsb' 56 4 ≠ 1 := fun e => by simp [e] at h
  unfold decodeCode
  dsimp only
  rw [if_neg h0, if_neg h1]
  exact ⟨rfl, rfl, rfl⟩

/-- Settles O18: the record is `decodeCode`'s, its fields written as shifts. -/
theorem decoderSplitsCode : Obligations.DecoderSplitsCode := by
  intro s d hr
  simp only [BitVec.setWidth_ushiftRight_eq_extractLsb, BitVec.setWidth_eq_extractLsb' (show 56 ≤ 64 by decide),
    BitVec.setWidth_eq_extractLsb' (show 55 ≤ 64 by decide)]
  obtain ⟨hstage, htrap, hpayload⟩ := decodeCode_fields d
  exact ⟨decodeCode d, exec_diagDecode hr d, hstage, htrap, hpayload, decodeCode_logic, decodeCode_one, decodeCode_other⟩

end Sys2Proof.Proofs
end

section
/-! PROOFS. The statements of spec/40_spi_byte.md, first part: an operation in progress goes on (R99), and the polls: how often one
reads (R85, R87), and that it waits for as long as its read is in vain (R89, R95, R147, R173). -/

namespace Sys2Proof.Proofs

open Sys2Proof Sys2Proof.Machine Sys2Proof.Laws

/-! ## An operation in progress -/

/-- R99: an operation that finds another one in progress goes on with that one. -/
theorem operate_busy {s : State} (k : State → State) (hn : (s.core s.cur).stop = none) (ht : (s.core s.cur).todo ≠ []) :
    operate k s = .next (run s) := by
  have hb : s.busy = true := by simpa [State.busy] using ht
  simp [operate, hn, hb]

/-- Settles O6: nine operations by `operate_busy`, `fail` by the test of its own. -/
theorem noOperationStartsInsideAnother : Obligations.NoOperationStartsInsideAnother := by
  intro i s hf hn ht
  refine ⟨?_, fun hl => step_busy hl ht⟩
  cases i with
  | fail code isTrap =>
    have hb : s.busy = true := by simpa [State.busy] using ht
    simp [exec, execFail, hn, hf, hb]
  | tx | rx | txrx | frameBegin | frameEnd | copy => exact operate_busy _ hn ht
  | clkdiv | diagEncode | diagDecode => simp only [exec, execClkdiv, execDiagEncode, execDiagDecode, operate_busy _ hn ht]

/-! ## A poll that reads in vain -/

/-- R85: a transmit poll of the lead core whose read shows no room. -/
theorem coreTurn_pollTx_vain {s : State} {ps : List Prim} (hl : s.cur = s.cfg.leadHart)
    (ht : (s.core s.cur).todo = .pollTx :: ps) (hr : txSpace (readTxcnt s.cur s).1 = false) :
    coreTurn s.cur s = .spun (readTxcnt s.cur s).2 := by
  unfold coreTurn
  rw [ht]
  exact (prim_pollTx hl ps).trans (if_neg (by simp [hr]))

/-- R87: a receive poll of the lead core whose read does not show the indicator. -/
theorem coreTurn_pollRx_vain {s : State} {ps : List Prim} (hl : s.cur = s.cfg.leadHart)
    (ht : (s.core s.cur).todo = .pollRx :: ps) (hr : (readRxrdy s.cur s).1 = false) :
    coreTurn s.cur s = .spun (readRxrdy s.cur s).2.2 := by
  have e : prim s.cur .pollRx ps s = .spun (readRxrdy s.cur s).2.2 :=
    (onController_lead _ hl).trans (if_neg (by simp [hr]))
  unfold coreTurn
  rw [ht]
  exact e

/-- R85: a word with a top byte of 0x0F or more shows no room. -/
theorem txSpace_eq_false {t : Byte} (h : 0x0F ≤ t.toNat) : txSpace t = false := by
  rw [Bool.eq_false_iff, ne_eq, txSpace_iff]
  omega

/-! ### Under the generic interface -/

/-- Settles O27: all reads in vain but the last (`run_pollTx_vain`), and the last, after which no draw is listed and the core
waits. -/
theorem txStillPollsWhileNearlyFull : Obligations.TxStillPollsWhileNearlyFull := by
  intro s b ws hr hd hne hws
  obtain ⟨vs, w, rfl⟩ : ∃ vs w, ws = vs ++ [w] := ⟨_, _, (List.dropLast_append_getLast hne).symm⟩
  let u : State := starting s (.tx b)
  let v : State := { u with draws := [w], hist := u.hist ++ vs.map (.ioR u.cur u.cfg.offTxcnt) }
  have hu : (u.core u.cur).todo = [.pollTx, .send b, .ret .unit] := starting_todo hr.1.1 _
  have hread := readTxcnt_generic (s := v) (w := w) (ws := []) ⟨hd.1, hd.2.1, rfl⟩ v.cur
  have hspun : coreTurn v.cur v = .spun (readTxcnt v.cur v).2 := by
    refine coreTurn_pollTx_vain hr.2 hu ?_
    rw [hread]
    exact txSpace_eq_false (by rw [txcntTop_toNat]; exact hws w (by simp))
  have hwait : waitTurn (readTxcnt v.cur v).2 = none := by
    rw [hread]
    simp [waitTurn, v, u, starting, hd.1]
  have hvain : run u = run v := run_pollTx_vain (s := u) hr.2 hu hd fun x hx => hws x (by simp [hx])
  rw [exec_starting hr rfl (by simp), hvain, run_waits (s := v) hd.2.1 hspun hwait, hread]
  simp [v, u, starting, State.setCore, planOf, txPlan]

/-- R87, R89: receive polls that read in vain take their draws, and the next poll is still to come. -/
theorem run_pollRx_vain {s : State} {ps : List Prim} {ws rest : List Word} (hl : s.cur = s.cfg.leadHart)
    (ht : (s.core s.cur).todo = .pollRx :: ps) (hd : GenericDraws s (ws ++ rest)) (hne : rest ≠ [])
    (hws : ∀ v ∈ ws, (v &&& s.cfg.rxrdyMask) = 0) :
    run s = run { s with draws := rest, hist := s.hist ++ ws.map (.ioR s.cur s.cfg.offRxrdy) } := by
  induction ws generalizing s with
  | nil =>
    rw [List.map_nil, List.append_nil, ← show s.draws = rest from hd.2.2]
  | cons v ws ih =>
    have hread := readRxrdy_generic (w := v) (ws := ws ++ rest) hd s.cur
    have hspun := coreTurn_pollRx_vain hl ht (by rw [hread]; simp [rxReady, hws v (by simp)])
    rw [hread] at hspun
    let s' : State := { s with draws := ws ++ rest, hist := s.hist ++ [.ioR s.cur s.cfg.offRxrdy v] }
    have hwait : waitTurn s' = some s' := by simp [waitTurn, s', hd.1, hne]
    rw [run_waited hd.2.1 hspun hwait, ih (s := s') hl ht ⟨hd.1, hd.2.1, rfl⟩ fun x hx => hws x (by simp [hx])]
    simp [s']

/-- R87, R88, R93: the whole of an `rx` under the generic interface: reads in vain, and the byte's arrival. -/
theorem exec_rx_generic {s : State} {ws rest : List Word} {r : Word × Word × Word} (hr : LeadReady s)
    (hd : GenericDraws s (ws ++ ((roundWords s.cfg.rxSameRead r).tail ++ rest)))
    (hws : ∀ v ∈ ws, (v &&& s.cfg.rxrdyMask) = 0) (hw : (r.2.1 &&& s.cfg.rxrdyMask) ≠ 0) :
    exec .rx s = .next ((({ s with
      draws := rest
      hist := s.hist ++ ws.map (.ioR s.cur s.cfg.offRxrdy) ++ (if s.cfg.rxSameRead then [.ioR s.cur s.cfg.offRxrdy r.2.1]
        else [.ioR s.cur s.cfg.offRxrdy r.2.1, .ioR s.cur s.cfg.offRxdata r.2.2]) } : State).withRxByte
          (roundByte s.cfg r)).returns (.byte (roundByte s.cfg r))) := by
  have hc : s.cur < s.cores.length := hr.1.1
  let u : State := starting s .rx
  let v : State := { u with
    draws := (roundWords s.cfg.rxSameRead r).tail ++ rest, hist := u.hist ++ ws.map (.ioR u.cur u.cfg.offRxrdy) }
  have hu : (u.core u.cur).todo = rxPlan s.cfg ++ [.retByte] := starting_todo hc _
  obtain ⟨qs, hq⟩ : ∃ qs, rxPlan s.cfg = .pollRx :: qs := by unfold rxPlan; split <;> exact ⟨_, rfl⟩
  have hvain : run u = run v :=
    run_pollRx_vain (s := u) hr.2 (by rw [hu, hq]; rfl) hd (by unfold roundWords; split <;> simp) hws
  have ha : AloneOnLead v := { starting_alone hr hd.2.1 .rx with }
  rw [exec_starting hr rfl (by simp), hvain,
    run_rx_generic (s := v) (r := r) (rest := rest) (ps := [.retByte]) ha ⟨hd.1, hd.2.1, rfl⟩ hw hu, run_retByte]
  · simp [starting, State.returns, State.withRxByte, State.setCore, State.core, v, u, hc]
  · exact hd.2.1
  · simpa [starting, v, u] using hc
  · simp [starting, State.core, v, u, hc]

/-- Settles O30: `exec_rx_generic` with `P_RX_SAME_READ` and without. -/
theorem rxPollsThenReturnsByte : Obligations.RxPollsThenReturnsByte := by
  intro s ws w x rest hr hws hw
  refine ⟨fun hs hd => ?_, fun hs hd => ?_⟩
  · have h := exec_rx_generic (r := (0, w, x)) (rest := rest) hr (by simpa [roundWords, hs] using hd) hws hw
    simpa [roundByte, hs, getField_eq] using h
  · have h := exec_rx_generic (r := (0, w, x)) (rest := rest) hr (by simpa [roundWords, hs] using hd) hws hw
    simpa [roundByte, hs, getField_eq] using h

/-! ### Alone under the reference controller -/

/-- The state after more reads of the controller, with nothing else changed. -/
def afterReads (s : State) (es : List Event) (ds : List Word) (n : Nat) : State :=
  { s with hist := s.hist ++ es, draws := ds, nDraws := n }

/-- The state's core is in the poll of the register at `off`, and a read of it now is in vain. -/
def VainPoll (s : State) (off : Nat) : Prop :=
  (∃ ps, (s.core s.cur).todo = .pollTx :: ps ∧ off = s.cfg.offTxcnt ∧
      0x0F ≤ (s.cfg.txcntFn.getD s.txq.length 0xFF).toNat) ∨
    ∃ ps, (s.core s.cur).todo = .pollRx :: ps ∧ off = s.cfg.offRxrdy ∧ s.rxq = []

/-- R89, R173: the lead core is alone under the reference controller, whose engine has nothing to do, in a poll whose read is in
vain: nothing that a read changes can end this. -/
structure Wedged (s : State) (off : Nat) : Prop where
  launch : launchOk s = true
  iface : s.cfg.iface = .reference
  sched : s.sched = []
  lead : s.cur = s.cfg.leadHart
  engine : engineDue s = false
  poll : VainPoll s off

theorem Wedged.polling {s : State} {off : Nat} (w : Wedged s off) : Polling s := by
  rcases w.poll with ⟨ps, ht, -⟩ | ⟨ps, ht, -⟩
  · exact ⟨_, ps, ht, .inl rfl⟩
  · exact ⟨_, ps, ht, .inr rfl⟩

/-- Reads leave it wedged: the poll looks at the parameters and the FIFOs alone. -/
theorem Wedged.reads {s : State} {off : Nat} (w : Wedged s off) (es : List Event) (ds : List Word) (n : Nat) :
    Wedged (afterReads s es ds n) off :=
  ⟨w.launch, w.iface, w.sched, w.lead, w.engine, w.poll⟩

/-- R89: the run of a wedged core is one read. -/
theorem Wedged.run_eq {s : State} {off : Nat} (w : Wedged s off) :
    ∃ v ds n, run s = afterReads s [.ioR s.cur off v] ds n := by
  have hturn : ∃ v ds n, coreTurn s.cur s = .spun (afterReads s [.ioR s.cur off v] ds n) := by
    rcases w.poll with ⟨ps, ht, rfl, hfull⟩ | ⟨ps, ht, rfl, hq⟩
    · obtain ⟨v, e, -⟩ := readTxcnt_state s.cur s
      have htop : (readTxcnt s.cur s).1 = s.cfg.txcntFn.getD s.txq.length 0xFF := by simp [readTxcnt, w.iface]
      refine ⟨v, s.drawn.draws, s.drawn.nDraws, ?_⟩
      rw [coreTurn_pollTx_vain w.lead ht (by rw [htop]; exact txSpace_eq_false hfull), e, drawn_eq]
      rfl
    · have e : readRxrdy s.cur s = (false, 0, s.drawn.record (.ioR s.cur s.cfg.offRxrdy (rxrdyRead s))) := by
        simp [readRxrdy, w.iface, hq]
      refine ⟨rxrdyRead s, s.drawn.draws, s.drawn.nDraws, ?_⟩
      rw [coreTurn_pollRx_vain w.lead ht (by rw [e]), e, drawn_eq]
      rfl
  obtain ⟨v, ds, n, hturn⟩ := hturn
  have w' := w.reads [.ioR s.cur off v] ds n
  have hwait : waitTurn (afterReads s [.ioR s.cur off v] ds n) = none := by
    simp [waitTurn, w'.iface, w'.engine]
  exact ⟨v, ds, n, run_waits w.sched hturn hwait⟩

/-- R89, R147, R175: a wedged core polls for ever: every step of the machine is one read. -/
theorem Wedged.core_run {s : State} {off : Nat} (w : Wedged s off) (n : Nat) :
    ∃ (vs : List Word) (ds : List Word) (m : Nat), vs.length = n ∧
      core.run n s = .next (afterReads s (vs.map (.ioR s.cur off)) ds m) := by
  induction n generalizing s with
  | zero => exact ⟨[], s.draws, s.nDraws, rfl, by simp [Host.Core.run, afterReads]⟩
  | succ n ih =>
    obtain ⟨v, ds, m, hrun⟩ := w.run_eq
    obtain ⟨vs, ds', m', hlen, h⟩ := ih (w.reads [.ioR s.cur off v] ds m)
    have ht : (s.core s.cur).todo ≠ [] := by
      obtain ⟨p, ps, ht, -⟩ := w.polling
      simp [ht]
    refine ⟨v :: vs, ds', m', by simp [hlen], ?_⟩
    rw [core_run_succ, step_busy w.launch ht, hrun]
    dsimp only
    rw [h]
    simp [afterReads]

/-- Settles O28: `tx` starts in a poll that is wedged; its own run is the first read, and every step one more. -/
theorem txOnWedgedFifoNeverReturns : Obligations.TxOnWedgedFifoNeverReturns := by
  intro s b hl hr ⟨hi, hsched⟩ hlive hfull
  let u : State := starting s (.tx b)
  have w : Wedged u s.cfg.offTxcnt := {
    launch := (launchOk_setCore s _ _).trans hl
    iface := hi
    sched := hsched
    lead := hr.2
    engine := by simp [engineDue, u, starting, hlive]
    poll := .inl ⟨_, starting_todo hr.1.1 _, rfl, hfull⟩ }
  obtain ⟨v, ds, m, hrun⟩ := w.run_eq
  have w' := w.reads [.ioR u.cur s.cfg.offTxcnt v] ds m
  refine ⟨_, (exec_starting hr rfl (by simp)).trans (congrArg _ hrun), fun n => ?_⟩
  obtain ⟨vs, ds', m', hlen, h⟩ := w'.core_run n
  exact ⟨_, h, (w'.reads _ _ _).polling, rfl, rfl, rfl, rfl, v :: vs, by simp [hlen], by simp [afterReads, u, starting]⟩


end Sys2Proof.Proofs
end

section
/-! PROOFS. The statements of spec/40_spi_byte.md, second part: an `rx` that starts with both FIFOs empty, in any schedule (R95). -/

namespace Sys2Proof.Proofs

open Sys2Proof Sys2Proof.Machine Sys2Proof.Laws

/-! ## A core that has lost its operation -/

/-- R151: nothing but primitives of `fail` is left to the executing core, and it starts nothing more: it is failing or halted, or
its run has ended. -/
def Lost (u : State) : Prop :=
  (∀ p ∈ (u.core u.cur).todo, failPrim p = true) ∧ ((u.core u.cur).fstat ≠ .running ∨ (u.core u.cur).stop ≠ none)

theorem Lost.not_ready {u : State} (l : Lost u) : ¬ Ready u :=
  fun ⟨_, hr, _, hn⟩ => l.2.elim (fun h => h hr) fun h => h hn

theorem Lost.congr {u u' : State} (l : Lost u) (hc : u'.core u'.cur = u.core u.cur) : Lost u' := by
  unfold Lost
  rw [hc]
  exact l

/-- A primitive of the executing core's own. -/
theorem Lost.own {u : State} {p : Prim} {ps : List Prim} (l : Lost u) (ht : (u.core u.cur).todo = p :: ps) :
    Lost (prim u.cur p ps u).state := by
  refine ⟨own_todo ht (ht ▸ l.1) fun a n hc => by simp [failPrim] at hc, ?_⟩
  rcases own_prim ht with ⟨hc, _⟩ | hm
  · rw [hc]
    exact l.2
  · refine l.2.imp (ne_running_of_fstatLe hm.fstatLe) fun hs => ?_
    rcases hm.stop with e | ⟨r, e⟩ <;> rw [e]
    · exact hs
    · simp

/-- R151, R152: an entry of `fail` on the executing core loses its operation, and on another core leaves it. -/
theorem lost_or_same_of_entry {u : State} {h : Nat} {c : Core} (he : Entry u h c) :
    Lost (u.setCore h c) ∨ (u.setCore h c).core (u.setCore h c).cur = u.core u.cur := by
  rcases core_setCore_cases u h u.cur c with ⟨e, -, -⟩ | e
  · refine .inl ?_
    unfold Lost
    rw [setCore_cur, e]
    refine ⟨he.todo, ?_⟩
    rcases he with ⟨d, _, hf, _⟩ | ⟨_, _, ⟨x, hx, _⟩, _⟩
    · exact .inl (by simp [hf])
    · exact .inr (by simp [hx])
  · exact .inr e

/-! ## A turn while the executing core is in no operation -/

/-- R13: what such a turn comes to while the other cores only fail: nothing, a primitive of `fail` of another core, an engine step,
or an entry of `fail`. -/
inductive IdleTurn (u : State) : State → Prop
  | none : IdleTurn u u
  | other (h : Nat) (p : Prim) (ps : List Prim) (hk : h ≠ u.cur) (hp : failPrim p = true) : IdleTurn u (prim h p ps u).state
  | engine : IdleTurn u (engineStep u)
  | entry (h : Nat) (c : Core) (he : Entry u h c) : IdleTurn u (u.setCore h c)

theorem idleTurn_of_turn {u : State} (t : Turn) (ho : OthersOnlyFail u) (ht : (u.core u.cur).todo = []) :
    IdleTurn u (turn t u).state := by
  cases t with
  | core h =>
    change IdleTurn u (coreTurn h u).state
    unfold coreTurn
    split
    · exact .none
    · rename_i p ps hp
      have hk : h ≠ u.cur := by rintro rfl; simp [ht] at hp
      exact .other h p ps hk (ho h hk p (by simp [hp]))
  | engine => exact .engine
  | trap h cause =>
    rcases trapTurn_cases h cause u with ⟨e, _⟩ | ⟨hh, _, e⟩ <;> rw [e]
    · exact .none
    · obtain ⟨c, e, he⟩ := takeTrap_entry cause hh
      rw [e]
      exact .entry h c he
  | call h code isTrap =>
    rcases callTurn_cases h code isTrap u with e | ⟨_, _, _, _, e⟩ <;> rw [e]
    · exact .none
    · obtain ⟨c, e, _, he⟩ := enterFail_entry h code isTrap u
      rw [e]
      exact .entry h c he

/-- A step in which the executing core does nothing is such a turn, listed or not. -/
theorem idleTurn_of_idleStep {u : State} (ho : OthersOnlyFail u) (ht : (u.core u.cur).todo = []) :
    ∃ ts, IdleTurn { u with sched := ts } (idleStep u) := by
  unfold idleStep
  split
  · rename_i t ts _
    exact ⟨ts, idleTurn_of_turn (u := { u with sched := ts }) t ho ht⟩
  · refine ⟨u.sched, ?_⟩
    split
    · exact .engine
    · exact .none

/-! ## No byte comes -/

/-- R95: what any schedule leaves of an `rx` that started in `s` with both FIFOs empty: they are empty, nothing has been returned,
and the core is in its receive poll or has lost the operation. -/
structure NoByte (s u : State) : Prop where
  iface : u.cfg.iface = .reference
  txq : u.txq = []
  rxq : u.rxq = []
  idx : u.idx = s.idx
  results : u.results = s.results
  poll : (∃ ps, (u.core u.cur).todo = .pollRx :: ps) ∨ Lost u

/-- The FIFOs, the position and the results as before. -/
theorem NoByte.next {s u u' : State} (q : NoByte s u) (hcfg : u'.cfg = u.cfg) (htx : u'.txq = u.txq) (hrx : u'.rxq = u.rxq)
    (hi : u'.idx = u.idx) (hr : u'.results = u.results)
    (hc : (∃ ps, (u'.core u'.cur).todo = .pollRx :: ps) ∨ Lost u') : NoByte s u' :=
  ⟨hcfg ▸ q.iface, htx.trans q.txq, hrx.trans q.rxq, hi.trans q.idx, hr.trans q.results, hc⟩

/-- The executing core as before, too. -/
theorem NoByte.congr {s u u' : State} (q : NoByte s u) (hcfg : u'.cfg = u.cfg) (htx : u'.txq = u.txq) (hrx : u'.rxq = u.rxq)
    (hi : u'.idx = u.idx) (hr : u'.results = u.results) (hc : u'.core u'.cur = u.core u.cur) : NoByte s u' :=
  q.next hcfg htx hrx hi hr (q.poll.imp (fun h => by rwa [hc]) fun l => l.congr hc)

/-- R32, R87: the poll of the executing core finds nothing, and a primitive of `fail` leaves the FIFOs. -/
theorem NoByte.own {s u : State} {p : Prim} {ps : List Prim} (q : NoByte s u) (ht : (u.core u.cur).todo = p :: ps) :
    NoByte s (prim u.cur p ps u).state := by
  have same := primSame u.cur p ps u
  rcases q.poll with ⟨qs, hp⟩ | l
  · obtain ⟨rfl, rfl⟩ : p = .pollRx ∧ ps = qs := by simpa [hp, eq_comm] using ht
    have hread : readRxrdy u.cur u = (false, 0, u.drawn.record (.ioR u.cur u.cfg.offRxrdy (rxrdyRead u))) := by
      simp [readRxrdy, q.iface, q.rxq]
    have hcase := prim_case u.cur .pollRx ps u
    generalize prim u.cur .pollRx ps u = m at hcase
    cases hcase with
    | foreign =>
      refine q.next rfl rfl rfl rfl rfl (.inr ?_)
      unfold Lost
      rw [moved_state, stopCore_cur, core_stopCore_self _ (lt_of_todo_ne_nil (by simp [ht]))]
      simp
    | pollRx _ hr => simp [hread] at hr
    | spinRx =>
      rw [hread]
      exact q.congr (by simp) (by simp) (by simp) (by simp) (by simp) (by simp [State.core])
  · obtain ⟨hret, _, _, hsend, hpoll, hreadRx⟩ := failPrim_ne (l.1 p (by simp [ht]))
    exact q.next same.cfg (same.tx hsend).1 (same.rx hpoll hreadRx) (same.ret hret).1 (same.ret hret).2 (.inr (l.own ht))

/-- R31: the engine has nothing to send. -/
theorem NoByte.engine {s u : State} (q : NoByte s u) : NoByte s (engineStep u) := by
  rcases engineStep_state u with ⟨e, _⟩ | ⟨_, _, _, _, _, _, hq, _⟩
  · rw [e]
    exact q
  · simp [q.txq] at hq

theorem NoByte.other {s u : State} {h : Nat} {p : Prim} (q : NoByte s u) (hk : h ≠ u.cur) (hp : failPrim p = true)
    (ps : List Prim) : NoByte s (prim h p ps u).state := by
  obtain ⟨hret, _, _, hsend, hpoll, hreadRx⟩ := failPrim_ne hp
  have same := primSame h p ps u
  exact q.congr same.cfg (same.tx hsend).1 (same.rx hpoll hreadRx) (same.ret hret).1 (same.ret hret).2 (other_own p ps hk)

theorem NoByte.entry {s u : State} {h : Nat} {c : Core} (q : NoByte s u) (he : Entry u h c) : NoByte s (u.setCore h c) := by
  rcases lost_or_same_of_entry he with l | e
  · exact q.next rfl rfl rfl rfl rfl (.inr l)
  · exact q.congr rfl rfl rfl rfl rfl e

/-- R95: so it is in a run, in any schedule. -/
theorem noByte_kept (s : State) : OwnKept (NoByte s) where
  sched _ _ q := q.congr rfl rfl rfl rfl rfl rfl
  own _ _ _ _ q ht := q.own ht
  other _ _ _ ps _ q hk hp := q.other hk hp ps
  engine _ _ q := q.engine
  enter _ _ _ _ q _ he := q.entry he

/-- R95: and in every step: the executing core goes on, or it has lost its operation and starts no other one. -/
theorem NoByte.step {s u v : State} (q : NoByte s u) (ho : OthersOnlyFail u) (h : step u = .next v) : NoByte s v := by
  have notReady : ¬ Ready u := fun hr => q.poll.elim (fun ⟨ps, hp⟩ => by simp [hr.2.2.1] at hp) fun l => l.not_ready hr
  cases stepCase h with
  | goesOn => exact ((noByte_kept s).run ho q).2.1
  | idle ht =>
    obtain ⟨ts, hturn⟩ := idleTurn_of_idleStep ho ht
    have q' : NoByte s { u with sched := ts } := q.congr rfl rfl rfl rfl rfl rfl
    generalize idleStep u = v at hturn
    cases hturn with
    | none => exact q'
    | other h p ps hk hp => exact q'.other hk hp ps
    | engine => exact q'.engine
    | entry h c he => exact q'.entry he
  | starts i hr => exact absurd hr notReady
  | unknown hr => exact absurd hr notReady

/-- R95: and after any number of steps. -/
theorem NoByte.core_run {s u v : State} {n : Nat} (q : NoByte s u) (ho : OthersOnlyFail u) (h : core.run n u = .next v) :
    NoByte s v := by
  induction n generalizing u with
  | zero =>
    cases h
    exact q
  | succ n ih =>
    rw [core_run_succ] at h
    cases hs : Machine.step u with
    | next u' =>
      rw [hs] at h
      exact ih (q.step ho hs) (othersOnlyFail_kept.step ho hs) h
    | fault r => simp [hs] at h
    | refused r => simp [hs] at h

/-- Settles O31: in any schedule no byte comes (`NoByte`), and with no turn listed the poll is wedged (`Wedged`). -/
theorem rxOnEmptyFifosNeverReturns : Obligations.RxOnEmptyFifosNeverReturns := by
  intro s hl hr ho hi htx hrx
  let u : State := starting s .rx
  have hexec : exec .rx s = .next (run u) := exec_starting hr rfl (by simp)
  have hq : planOf s.cfg .rx = .pollRx :: (planOf s.cfg .rx).tail := by
    simp only [planOf, rxPlan]
    split <;> rfl
  have hpoll : (u.core u.cur).todo = .pollRx :: (planOf s.cfg .rx).tail := (starting_todo hr.1.1 _).trans hq
  refine ⟨fun t ht n v hv => ?_, fun hsched => ?_⟩
  · have hu : NoByte s u := ⟨hi, htx, hrx, rfl, rfl, .inl ⟨_, hpoll⟩⟩
    obtain ⟨ho', q, -⟩ := (noByte_kept s).run (othersOnlyFail_issue ho _) hu
    rw [hexec] at ht
    cases ht
    have q' := q.core_run ho' hv
    exact ⟨q'.idx, q'.results, q'.rxq⟩
  · have w : Wedged u s.cfg.offRxrdy := {
      launch := (launchOk_setCore s _ _).trans hl
      iface := hi
      sched := hsched
      lead := hr.2
      engine := by simp [engineDue, u, starting, htx]
      poll := .inr ⟨_, hpoll, rfl, hrx⟩ }
    obtain ⟨x, ds, m, hrun⟩ := w.run_eq
    refine ⟨_, hexec.trans (congrArg _ hrun), fun n => ?_⟩
    obtain ⟨vs, ds', m', -, h⟩ := (w.reads [.ioR u.cur s.cfg.offRxrdy x] ds m).core_run n
    exact ⟨_, h, ((w.reads _ ds m).reads _ ds' m').polling⟩

end Sys2Proof.Proofs
end

section
/-! PROOFS. The statements of spec/40_spi_byte.md, third part: a `txrx` from empty FIFOs, in any schedule (R97). -/

namespace Sys2Proof.Proofs

open Sys2Proof Sys2Proof.Machine Sys2Proof.Laws

/-! ## The byte of a `txrx` -/

/-- R97: where the one byte of a `txrx` from empty FIFOs is: not sent, in `txq`, answered with the answer in `rxq`, answered with
the answer received, or answered into an `rxq` of no depth (R37). -/
inductive Flight where
  | unsent
  | inTx
  | inRx (r : Byte)
  | received (r : Byte)
  | dropped (r : Byte)

/-- What `txq` holds, if the byte is `b`. -/
def Flight.txq (b : Byte) : Flight → List Byte
  | .inTx => [b]
  | _ => []

/-- What `rxq` holds. -/
def Flight.rxq : Flight → List Byte
  | .inRx r => [r]
  | _ => []

/-- The device's answer, once it is given. -/
def Flight.answer : Flight → Option Byte
  | .unsent | .inTx => none
  | .inRx r | .received r | .dropped r => some r

/-- R97: since `s`, where the FIFOs were empty, only the byte `b` has been on its way, and it is where `f` says: the FIFOs and the
wire say so, and, if `rxq` has any depth, the engine has recorded no new fault. -/
structure Flies (s : State) (b : Byte) (f : Flight) (u : State) : Prop where
  cfg : u.cfg = s.cfg
  cur : u.cur = s.cur
  inh : u.inh = s.inh
  txq : u.txq = f.txq b
  rxq : u.rxq = f.rxq
  wire : u.wire = s.wire ++ (f.answer.map (Exchange.mk (inhLevel s.cfg.inhibitBit s.inh) b)).toList
  fault : 0 < s.cfg.rxDepth → u.engineFault = s.engineFault

/-- The byte goes on within the controller and the core, and not over the wire. -/
theorem Flies.next {s u u' : State} {b : Byte} {f f' : Flight} (q : Flies s b f u) (hcfg : u'.cfg = u.cfg)
    (hcur : u'.cur = u.cur) (hinh : u'.inh = u.inh) (hwire : u'.wire = u.wire) (hfault : u'.engineFault = u.engineFault)
    (hans : f'.answer = f.answer) (htx : u'.txq = f'.txq b) (hrx : u'.rxq = f'.rxq) : Flies s b f' u' where
  cfg := hcfg.trans q.cfg
  cur := hcur.trans q.cur
  inh := hinh.trans q.inh
  txq := htx
  rxq := hrx
  wire := by rw [hwire, q.wire, hans]
  fault h := hfault.trans (q.fault h)

/-- Nothing of the controller changes. -/
theorem Flies.congr {s u u' : State} {b : Byte} {f : Flight} (q : Flies s b f u) (hcfg : u'.cfg = u.cfg)
    (hcur : u'.cur = u.cur) (hinh : u'.inh = u.inh) (hwire : u'.wire = u.wire) (hfault : u'.engineFault = u.engineFault)
    (htx : u'.txq = u.txq) (hrx : u'.rxq = u.rxq) : Flies s b f u' :=
  q.next hcfg hcur hinh hwire hfault rfl (htx.trans q.txq) (hrx.trans q.rxq)

/-- A primitive of `fail`, of any core. -/
theorem Flies.failPrim {s u : State} {b : Byte} {f : Flight} (q : Flies s b f u) {p : Prim} (hp : failPrim p = true) (h : Nat)
    (ps : List Prim) : Flies s b f (prim h p ps u).state := by
  obtain ⟨_, hinh, _, hsend, hpoll, hread⟩ := failPrim_ne hp
  have same := primSame h p ps u
  exact q.congr same.cfg same.cur (same.inh hinh) same.wire (prim_queues h p ps u).2.2.2.2.2.1 (same.tx hsend).1
    (same.rx hpoll hread)

/-! ## What is left of it -/

/-- R82, R96: what a core inside `txrx b` has left to do, by where the byte is. -/
inductive Left (cfg : Config) (b : Byte) (c : Core) : Flight → Prop
  | pollTx (ht : c.todo = .pollTx :: .send b :: (rxPlan cfg ++ [.retByte])) : Left cfg b c .unsent
  | send (ht : c.todo = .send b :: (rxPlan cfg ++ [.retByte])) : Left cfg b c .unsent
  | pollRx {f : Flight} (hu : f ≠ .unsent) (hr : ∀ r, f ≠ .received r) (ht : c.todo = rxPlan cfg ++ [.retByte]) :
      Left cfg b c f
  | readRx {r : Byte} (hs : cfg.rxSameRead = false) (ht : c.todo = [.readRx, .retByte]) : Left cfg b c (.inRx r)
  | retByte (ht : c.todo = [.retByte]) : Left cfg b c (.received c.rxByte)

/-- How far a `txrx` that started in `s` has come. -/
inductive Stage (s : State) (b : Byte) (u : State) : Flight → Prop
  /-- it goes on -/
  | pending {f : Flight} (idx : u.idx = s.idx) (results : u.results = s.results) (left : Left s.cfg b (u.core u.cur) f) :
      Stage s b u f
  /-- it has returned the answer -/
  | returned {r : Byte} (results : u.results = s.results ++ [.byte r]) (todo : (u.core u.cur).todo = []) :
      Stage s b u (.received r)
  /-- it never returns -/
  | lost {f : Flight} (idx : u.idx = s.idx) (todo : ∀ p ∈ (u.core u.cur).todo, failPrim p = true) : Stage s b u f

/-- The stage is the position's, the results' and the executing core's. -/
theorem Stage.congr {s u u' : State} {b : Byte} {f : Flight} (q : Stage s b u f) (hi : u'.idx = u.idx)
    (hr : u'.results = u.results) (hc : u'.core u'.cur = u.core u.cur) : Stage s b u' f := by
  cases q with
  | pending a b c => exact .pending (hi.trans a) (hr.trans b) (hc ▸ c)
  | returned a b => exact .returned (hr.trans a) (hc ▸ b)
  | lost a b => exact .lost (hi.trans a) (hc ▸ b)

/-- The executing core's run has not ended in an overflow of `txq`, if that has any depth. -/
def NoTxOverflow (cfg : Config) (c : Core) : Prop := 0 < cfg.txDepth → ∀ b, c.stop ≠ some (.fault (.txOverflow b))

/-- R97: one byte in flight. -/
structure OneByte (s : State) (b : Byte) (u : State) : Prop where
  flight : ∃ f, Flies s b f u ∧ Stage s b u f
  noOverflow : NoTxOverflow s.cfg (u.core u.cur)

/-! ## The engine, and the executing core's primitives -/

/-- R31, R37: the engine exchanges the byte in `txq`, or does nothing. -/
theorem flies_engineStep {s u : State} {b : Byte} {f : Flight} (q : Flies s b f u) :
    ∃ f', Flies s b f' (engineStep u) ∧ ∀ c, Left s.cfg b c f → Left s.cfg b c f' := by
  rcases engineStep_state u with ⟨e, _⟩ | ⟨x, xs, rx, g, _, hf, htx, hrx, e⟩
  · exact ⟨f, e.symm ▸ q, fun _ => id⟩
  · obtain ⟨rfl, rfl, rfl⟩ : f = .inTx ∧ x = b ∧ xs = [] := by
      have := htx.symm.trans q.txq
      cases f <;> simp_all [Flight.txq]
    have hrxq : u.rxq = [] := q.rxq
    let r : Byte := u.answer (inhLevel u.cfg.inhibitBit u.inh) x
    have hwire : (engineStep u).wire = s.wire ++ [⟨inhLevel s.cfg.inhibitBit s.inh, x, r⟩] := by
      rw [e, ← q.cfg, ← q.inh]
      exact congrArg (· ++ _) (q.wire.trans (List.append_nil _))
    have on : ∀ f' : Flight, f'.answer = some r → f'.txq x = [] → rx = f'.rxq → (0 < s.cfg.rxDepth → g = none) →
        Flies s x f' (engineStep u) := by
      intro f' hans htx' hrx' hg
      refine ⟨by rw [e]; exact q.cfg, by rw [e]; exact q.cur, by rw [e]; exact q.inh, by rw [e]; exact htx'.symm,
        by rw [e]; exact hrx', by rw [hwire, hans]; rfl, fun hd => ?_⟩
      rw [e, ← q.fault hd, hf]
      exact hg hd
    have left : ∀ f' : Flight, f' ≠ .unsent → (∀ r, f' ≠ .received r) → ∀ c, Left s.cfg x c .inTx → Left s.cfg x c f' := by
      intro f' h1 h2 c hl
      cases hl with
      | pollRx _ _ ht => exact .pollRx h1 h2 ht
    rcases hrx with ⟨hfull, hrx, _⟩ | ⟨_, hrx, hg⟩ <;> rw [hrxq] at hrx
    · have hd : ¬ 0 < s.cfg.rxDepth := by rw [hrxq, q.cfg] at hfull; simp [← hfull]
      exact ⟨.dropped r, on _ rfl rfl hrx fun h => absurd h hd, left _ (by simp) (by simp)⟩
    · exact ⟨.inRx r, on _ rfl rfl hrx fun _ => hg, left _ (by simp) (by simp)⟩

/-- The executing core goes on with `c`. -/
theorem OneByte.pending {s u u' : State} {b : Byte} {f : Flight} {c : Core} (q : OneByte s b u) (hidx : u'.idx = s.idx)
    (hres : u'.results = s.results) (hc : u'.core u'.cur = c) (hs : c.stop = (u.core u.cur).stop) (hl : Left s.cfg b c f)
    (hf : Flies s b f u') : OneByte s b u' := by
  subst hc
  refine ⟨⟨f, hf, .pending hidx hres hl⟩, ?_⟩
  unfold NoTxOverflow
  rw [hs]
  exact q.noOverflow

/-- R85: the transmit poll. -/
theorem OneByte.pollTx {s u : State} {b : Byte} {ps : List Prim} (q : OneByte s b u) (hlead : u.cur = u.cfg.leadHart)
    (hf : Flies s b .unsent u) (hidx : u.idx = s.idx) (hres : u.results = s.results)
    (ht : (u.core u.cur).todo = .pollTx :: ps) (hps : ps = .send b :: (rxPlan s.cfg ++ [.retByte])) :
    OneByte s b (prim u.cur .pollTx ps u).state := by
  have hlen : u.cur < u.cores.length := lt_of_todo_ne_nil (by simp [ht])
  obtain ⟨w, e, -⟩ := readTxcnt_state u.cur u
  rw [prim_pollTx hlead, e]
  split
  · refine q.pending (c := { u.core u.cur with todo := ps }) (by simpa using hidx) (by simpa using hres) ?_ rfl (.send hps)
      (hf.congr (by simp) (by simp) (by simp) (by simp) (by simp) (by simp) (by simp))
    simp [State.setTodo, State.setCore, State.core, hlen]
  · exact q.pending (c := u.core u.cur) (by simpa using hidx) (by simpa using hres) (by simp [State.core]) rfl
      (.pollTx (hps ▸ ht)) (hf.congr (by simp) (by simp) (by simp) (by simp) (by simp) (by simp) (by simp))

/-- R35: a TXDATA write of the reference controller that does not fault. -/
theorem writeTxdata_reference {h : Nat} {b : Byte} {s s' : State} (hi : s.cfg.iface = .reference)
    (hw : writeTxdata h b s = some s') : s' = { s.record (.ioW h s.cfg.offTxdata (txWord s.cfg.txByteLsb b)) with
      txdata := txWord s.cfg.txByteLsb b
      txq := s.txq ++ [getField s.cfg.txByteLsb (txWord s.cfg.txByteLsb b)] } := by
  simp only [writeTxdata, hi] at hw
  split at hw
  · cases hw
  · exact (Option.some.inj hw).symm

/-- R35, R66: the TXDATA write: the byte is in `txq`, or `txq` has no depth. -/
theorem OneByte.send {s u : State} {b : Byte} {ps : List Prim} (q : OneByte s b u) (hlead : u.cur = u.cfg.leadHart)
    (hi : s.cfg.iface = .reference) (hlsb : s.cfg.txByteLsb ≤ 24) (hf : Flies s b .unsent u) (hidx : u.idx = s.idx)
    (hres : u.results = s.results) (ht : (u.core u.cur).todo = .send b :: ps) (hps : ps = rxPlan s.cfg ++ [.retByte]) :
    OneByte s b (prim u.cur (.send b) ps u).state := by
  have hlen : u.cur < u.cores.length := lt_of_todo_ne_nil (by simp [ht])
  have htxq : u.txq = [] := hf.txq
  have hcase := prim_case u.cur (.send b) ps u
  generalize prim u.cur (.send b) ps u = m at hcase
  cases hcase with
  | foreign _ hl => exact absurd hlead hl
  | overflow _ hw =>
    have hfull := full_of_writeTxdata hw
    have hd : ¬ 0 < s.cfg.txDepth := by rw [htxq, hf.cfg] at hfull; simp [← hfull]
    refine ⟨⟨.unsent, hf.congr rfl rfl rfl rfl rfl rfl rfl, .lost hidx ?_⟩, fun h => absurd h hd⟩
    rw [moved_state, stopCore_cur, todo_stopCore_self]
    simp
  | send _ hw =>
    obtain rfl := writeTxdata_reference (hf.cfg ▸ hi) hw
    refine q.pending (c := { u.core u.cur with todo := ps }) (f := .inTx) hidx hres ?_ rfl (.pollRx (by simp) (by simp) hps)
      (hf.next rfl rfl rfl rfl rfl rfl ?_ hf.rxq)
    · simp [State.setTodo, State.setCore, State.core, hlen]
    · simp [htxq, Flight.txq, hf.cfg, getField_txWord hlsb]

/-- R32, R36, R87: the receive poll: it finds the answer, which it takes with `P_RX_SAME_READ`, or nothing. -/
theorem OneByte.pollRx {s u : State} {b : Byte} {f : Flight} {p : Prim} {ps : List Prim} (q : OneByte s b u)
    (hlead : u.cur = u.cfg.leadHart) (hi : s.cfg.iface = .reference) (hf : Flies s b f u) (hidx : u.idx = s.idx)
    (hres : u.results = s.results) (hu : f ≠ .unsent) (hr : ∀ r, f ≠ .received r) (ht : (u.core u.cur).todo = p :: ps)
    (hps : p :: ps = rxPlan s.cfg ++ [.retByte]) : OneByte s b (prim u.cur p ps u).state := by
  have hlen : u.cur < u.cores.length := lt_of_todo_ne_nil (by simp [ht])
  have hiu : u.cfg.iface = .reference := hf.cfg ▸ hi
  obtain rfl : p = .pollRx := by
    have := congrArg List.head? hps
    unfold rxPlan at this
    split at this <;> simpa using this
  -- The poll in vain, where `rxq` is empty.
  have vain : u.rxq = [] → OneByte s b (prim u.cur .pollRx ps u).state := by
    intro hq
    have hread : readRxrdy u.cur u = (false, 0, u.drawn.record (.ioR u.cur u.cfg.offRxrdy (rxrdyRead u))) := by
      simp [readRxrdy, hiu, hq]
    have hcase := prim_case u.cur .pollRx ps u
    generalize prim u.cur .pollRx ps u = m at hcase
    cases hcase with
    | foreign _ hl => exact absurd hlead hl
    | pollRx _ hready => simp [hread] at hready
    | spinRx =>
      rw [hread]
      exact q.pending (c := u.core u.cur) (by simpa using hidx) (by simpa using hres) (by simp [State.core]) rfl
        (.pollRx hu hr (ht.trans hps)) (hf.congr (by simp) (by simp) (by simp) (by simp) (by simp) (by simp) (by simp))
  cases f with
  | unsent => exact absurd rfl hu
  | received r => exact absurd rfl (hr r)
  | inTx | dropped r => exact vain hf.rxq
  | inRx r =>
    rw [prim_pollRx hlead (readRxrdy_reference hiu hf.rxq u.cur) ps]
    cases hs : s.cfg.rxSameRead with
    | true =>
      obtain rfl : ps = [.retByte] := by simpa [rxPlan, hs] using hps
      refine q.pending (c := { u.core u.cur with todo := [.retByte], rxByte := r }) (f := .received r) (by simpa using hidx)
        (by simpa using hres) ?_ rfl (.retByte rfl)
        (hf.next (by simp) (by simp) (by simp) (by simp) (by simp) rfl ?_ ?_)
      · simp [State.setCore, State.core, hlen, hf.cfg, hs]
      · exact (drawn_txq u).trans hf.txq
      · simp [Flight.rxq, hf.cfg, hs]
    | false =>
      obtain rfl : ps = [.readRx, .retByte] := by simpa [rxPlan, hs] using hps
      refine q.pending (c := { u.core u.cur with todo := [.readRx, .retByte] }) (f := .inRx r) (by simpa using hidx)
        (by simpa using hres) ?_ rfl (.readRx hs rfl)
        (hf.congr (by simp) (by simp) (by simp) (by simp) (by simp) (by simp) ?_)
      · simp [State.setCore, State.core, hlen, hf.cfg, hs]
      · simp [hf.cfg, hs]

/-- R36: the RXDATA read takes the answer. -/
theorem OneByte.readRx {s u : State} {b r : Byte} (q : OneByte s b u) (hlead : u.cur = u.cfg.leadHart)
    (hi : s.cfg.iface = .reference) (hf : Flies s b (.inRx r) u) (hidx : u.idx = s.idx) (hres : u.results = s.results)
    (ht : (u.core u.cur).todo = [.readRx, .retByte]) : OneByte s b (prim u.cur .readRx [.retByte] u).state := by
  have hlen : u.cur < u.cores.length := lt_of_todo_ne_nil (by simp [ht])
  rw [prim_readRx hlead (readRxdata_reference (hf.cfg ▸ hi) hf.rxq u.cur) [.retByte]]
  refine q.pending (c := { u.core u.cur with todo := [.retByte], rxByte := r }) (f := .received r) (by simpa using hidx)
    (by simpa using hres) ?_ rfl (.retByte rfl) (hf.next (by simp) (by simp) (by simp) (by simp) (by simp) rfl ?_ rfl)
  · simp [State.setCore, State.core, hlen]
  · exact (drawn_txq u).trans hf.txq

/-- R93: the return of the answer. -/
theorem OneByte.retByte {s u : State} {b : Byte} (q : OneByte s b u) (hf : Flies s b (.received (u.core u.cur).rxByte) u)
    (hres : u.results = s.results) (ht : (u.core u.cur).todo = [.retByte]) :
    OneByte s b (prim u.cur .retByte [] u).state := by
  have hlen : u.cur < u.cores.length := lt_of_todo_ne_nil (by simp [ht])
  have hc : ((prim u.cur .retByte [] u).state.core u.cur) = { u.core u.cur with op := none, todo := [] } :=
    core_setCore_self _ hlen
  refine ⟨⟨_, hf.congr rfl rfl rfl rfl rfl rfl rfl, .returned ?_ (congrArg Core.todo hc)⟩, ?_⟩
  · exact congrArg (· ++ _) hres
  · unfold NoTxOverflow
    rw [show (prim u.cur .retByte [] u).state.cur = u.cur from rfl, hc]
    exact q.noOverflow

/-- A primitive of the executing core. -/
theorem OneByte.own {s u : State} {b : Byte} {p : Prim} {ps : List Prim} (q : OneByte s b u)
    (hlead : s.cur = s.cfg.leadHart) (hi : s.cfg.iface = .reference) (hlsb : s.cfg.txByteLsb ≤ 24)
    (ht : (u.core u.cur).todo = p :: ps) : OneByte s b (prim u.cur p ps u).state := by
  obtain ⟨f, hf, hstage⟩ := q.flight
  have hl : u.cur = u.cfg.leadHart := by rw [hf.cur, hf.cfg, hlead]
  cases hstage with
  | pending hidx hres hleft =>
    cases hleft with
    | pollTx hp =>
      obtain ⟨rfl, rfl⟩ := List.cons.inj (ht.symm.trans hp)
      exact q.pollTx hl hf hidx hres ht rfl
    | send hp =>
      obtain ⟨rfl, rfl⟩ := List.cons.inj (ht.symm.trans hp)
      exact q.send hl hi hlsb hf hidx hres ht rfl
    | pollRx hu hr hp => exact q.pollRx hl hi hf hidx hres hu hr ht (ht.symm.trans hp)
    | readRx _ hp =>
      obtain ⟨rfl, rfl⟩ := List.cons.inj (ht.symm.trans hp)
      exact q.readRx hl hi hf hidx hres ht
    | retByte hp =>
      obtain ⟨rfl, rfl⟩ := List.cons.inj (ht.symm.trans hp)
      exact q.retByte hf hres ht
  | returned _ htodo => simp [ht] at htodo
  | lost hidx htodo =>
    have hp : failPrim p = true := htodo p (by simp [ht])
    refine ⟨⟨f, hf.failPrim hp _ _, .lost (((primSame u.cur p ps u).ret (failPrim_ne hp).1).1.trans hidx)
      (own_todo ht (ht ▸ htodo) fun a n hc => by simp [failPrim] at hc)⟩, ?_⟩
    rcases own_prim ht with ⟨hc, _⟩ | hm
    · rw [hc]
      exact q.noOverflow
    · cases hm with
      | on _ hs | returned _ _ hs | copied _ _ _ _ hs | halted _ _ hs =>
        unfold NoTxOverflow
        rw [hs]
        exact q.noOverflow
      | faulted _ hbus => cases p <;> simp [failPrim, onBus] at hp hbus

/-- R97: in any schedule, while the other cores only fail. -/
theorem oneByte_kept {s : State} (b : Byte) (hlead : s.cur = s.cfg.leadHart) (hi : s.cfg.iface = .reference)
    (hlsb : s.cfg.txByteLsb ≤ 24) : OwnKept (OneByte s b) where
  sched u ts q := by
    obtain ⟨f, hf, hstage⟩ := q.flight
    exact ⟨⟨f, hf.congr rfl rfl rfl rfl rfl rfl rfl, hstage.congr rfl rfl rfl⟩, q.noOverflow⟩
  own _ _ _ _ q ht := q.own hlead hi hlsb ht
  other u h p ps _ q hk hp := by
    obtain ⟨f, hf, hstage⟩ := q.flight
    obtain ⟨hidx, hres⟩ := (primSame h p ps u).ret (failPrim_ne hp).1
    have hc := other_own p ps hk
    exact ⟨⟨f, hf.failPrim hp h ps, hstage.congr hidx hres hc⟩, hc ▸ q.noOverflow⟩
  engine u hne q := by
    obtain ⟨f, hf, hstage⟩ := q.flight
    obtain ⟨f', hf', hleft⟩ := flies_engineStep hf
    obtain ⟨_, _, hidx, hres, _⟩ := engine_same u
    have hc := engine_own u
    refine ⟨⟨f', hf', ?_⟩, hc ▸ q.noOverflow⟩
    cases hstage with
    | pending h1 h2 h3 => exact .pending (hidx.trans h1) (hres.trans h2) (hc ▸ hleft _ h3)
    | returned _ htodo => exact absurd htodo hne
    | lost h1 h2 => exact .lost (hidx.trans h1) (hc ▸ h2)
  enter u h c hne q _ he := by
    obtain ⟨f, hf, hstage⟩ := q.flight
    have hf' : Flies s b f (u.setCore h c) := hf.congr rfl rfl rfl rfl rfl rfl rfl
    rcases core_setCore_cases u h u.cur c with ⟨e, rfl, -⟩ | e
    · have hidx : u.idx = s.idx := by
        cases hstage with
        | pending h1 | lost h1 => exact h1
        | returned _ htodo => exact absurd htodo hne
      refine ⟨⟨f, hf', .lost hidx (by rw [setCore_cur, e]; exact he.todo)⟩, ?_⟩
      unfold NoTxOverflow
      rw [setCore_cur, e]
      rcases he with ⟨_, _, _, _, hs, _⟩ | ⟨_, _, ⟨x, hx, ⟨r, rfl⟩ | ⟨code, rfl⟩⟩, _⟩
      · rw [hs]
        exact q.noOverflow
      · simp [hx]
      · simp [hx]
    · exact ⟨⟨f, hf', hstage.congr rfl rfl e⟩, by rw [setCore_cur, e]; exact q.noOverflow⟩

/-- Settles O33: the run of a `txrx` keeps `OneByte`, in which only a returned one has a new position. -/
theorem txrxHasOneByteInFlight : Obligations.TxrxHasOneByteInFlight := by
  intro s t b hr ho hi hlsb htx hrx h
  rw [exec_starting hr rfl (by simp)] at h
  cases h
  have hcore : (starting s (.txrx b)).core (starting s (.txrx b)).cur = _ := starting_core hr.1.1 (.txrx b)
  have hstart : OneByte s b (starting s (.txrx b)) := by
    have hf : Flies s b .unsent (starting s (.txrx b)) := ⟨rfl, rfl, rfl, htx, hrx, (List.append_nil _).symm, fun _ => rfl⟩
    refine ⟨⟨.unsent, hf, .pending rfl rfl ?_⟩, ?_⟩ <;> rw [hcore]
    · exact .pollTx (by simp [planOf, txrxPlan, txPlan])
    · simp [NoTxOverflow, hr.1.2.2.2]
  obtain ⟨-, q, -⟩ := (oneByte_kept b hr.2 hi hlsb).run (othersOnlyFail_issue ho _) hstart
  obtain ⟨f, hf, hstage⟩ := q.flight
  refine ⟨fun hidx => ?_, fun htd hrd => ⟨q.noOverflow htd, hf.fault hrd⟩⟩
  cases hstage with
  | pending h1 | lost h1 => exact absurd (h1.symm.trans hidx) (Nat.lt_succ_self _).ne
  | returned hres => exact ⟨_, hres, hf.txq, hf.rxq, hf.wire⟩

end Sys2Proof.Proofs
end

section
/-! PROOFS. The statements of spec/40_spi_byte.md, fourth part: a `txrx` alone with a live engine (R96, R97, R180). -/

namespace Sys2Proof.Proofs

open Sys2Proof Sys2Proof.Machine Sys2Proof.Laws

/-- R31, R33, R87, R180: a poll that finds `rxq` empty, and then the engine's exchange, at the level that the inhibit bit has.
(`run_exchange` is for the level of a frame.) -/
theorem run_pollRx_exchange {s : State} (hs : LiveLead s) {d : Transfer} {b : Byte} {ps : List Prim} (hq : d.txq = [b])
    (hr : d.rxq = []) (ht : d.todo = .pollRx :: ps) :
    let level := inhLevel s.cfg.inhibitBit d.inh
    let r := (d.state s).answer level b
    ∃ w ds n, run (d.state s) = run (({ d with
      txq := []
      rxq := [r]
      miso := d.miso.tail
      wire := d.wire ++ [⟨level, b, r⟩]
      hist := d.hist ++ [.ioR s.cur s.cfg.offRxrdy w, .ex b r]
      draws := ds
      nDraws := n } : Transfer).state s) := by
  intro level r
  let s1 : State := d.state s
  let s2 : State := s1.drawn.record (.ioR s.cur s.cfg.offRxrdy (rxrdyRead s1))
  have hi : s.cfg.iface = .reference := hs.iface
  have hread : readRxrdy s1.cur s1 = (false, 0, s2) := by
    simp [readRxrdy, s1, s2, Transfer.state, hi, hr]
  have hturn : coreTurn s1.cur s1 = .spun s2 := by
    rw [coreTurn_pollRx_vain (s := s1) hs.lead ((d.state_todo hs.lt).trans ht) (by rw [hread]), hread]
  have hwait : waitTurn s2 = some (engineStep s2) := by
    simp [waitTurn, engineDue, s1, s2, Transfer.state, hi, hs.live, hs.noFault, hq]
  have hdepth : 0 ≠ s.cfg.rxDepth := Nat.ne_of_lt hs.rxDepth
  refine ⟨rxrdyRead s1, s1.drawn.draws, s1.drawn.nDraws,
    (run_waited (s := s1) hs.sched hturn hwait).trans (congrArg run ?_)⟩
  simp only [s2, drawn_eq]
  simp [engineStep, s1, r, level, Transfer.state, hi, hs.noFault, hq, hr, hdepth, State.answer, State.answered, State.record]

/-- R96, R97: a byte sent and the answer received, from empty FIFOs. -/
theorem run_txrx {s : State} (hs : LiveLead s) {d : Transfer} {b : Byte} {ps : List Prim} (htx : d.txq = []) (hrx : d.rxq = [])
    (ht : d.todo = txrxPlan s.cfg b ++ ps) :
    let level := inhLevel s.cfg.inhibitBit d.inh
    ∃ r all ds n, exchangeOne level (d.miso, d.wire) b = (d.miso.tail, d.wire ++ [⟨level, b, r⟩]) ∧
      all.filter (fun e => !isRead e) = [.ioW s.cur s.cfg.offTxdata (txWord s.cfg.txByteLsb b), .ex b r] ∧
      run (d.state s) = run (({ d with
        todo := ps
        rxByte := r
        txq := []
        rxq := []
        txdata := txWord s.cfg.txByteLsb b
        miso := d.miso.tail
        wire := d.wire ++ [⟨level, b, r⟩]
        hist := d.hist ++ all
        draws := ds
        nDraws := n } : Transfer).state s) := by
  intro level
  obtain ⟨w, ds, n, h1⟩ := run_send hs (b := b) (ps := rxPlan s.cfg ++ ps) htx (by rw [ht]; simp [txrxPlan])
  generalize hd1 : ({ d with
    todo := _, txq := _, txdata := _, hist := _, draws := ds, nDraws := n } : Transfer) = d1 at h1
  obtain ⟨qs, hq⟩ : ∃ qs, rxPlan s.cfg = .pollRx :: qs := by unfold rxPlan; split <;> exact ⟨_, rfl⟩
  obtain ⟨v, ds', n', h2⟩ := run_pollRx_exchange hs (d := d1) (b := b) (ps := qs ++ ps) (by rw [← hd1])
    (by rw [← hd1]; exact hrx) (by rw [← hd1]; simp [hq])
  generalize hd2 : ({ d1 with
    txq := _, rxq := _, miso := _, wire := _, hist := _, draws := ds', nDraws := n' } : Transfer) = d2 at h2
  obtain ⟨reads, ds'', n'', hreads, h3⟩ := run_receive hs (d := d2) (ps := ps) (by rw [← hd2]) (by rw [← hd2, ← hd1])
  subst hd2 hd1
  let r : Byte := (d.state s).answer level b
  refine ⟨r, [.ioR s.cur s.cfg.offTxcnt w, .ioW s.cur s.cfg.offTxdata (txWord s.cfg.txByteLsb b),
    .ioR s.cur s.cfg.offRxrdy v, .ex b r] ++ reads, ds'', n'', exchangeOne_eq (d.state s) level b, ?_, ?_⟩
  · rw [List.filter_append, hreads]
    rfl
  · refine h1.trans (h2.trans (h3.trans ?_))
    simp only [List.append_assoc, List.cons_append, List.nil_append]
    rfl

/-- Settles O32: the run of the `txrx` (`run_txrx`) and the return, field by field. -/
theorem txrxExchangesByte : Obligations.TxrxExchangesByte := by
  intro s b hr ⟨⟨hi, hsched⟩, hlive, hfault⟩ hfields htxq hrxq hroom htx hrx x r
  have hc : s.cur < s.cores.length := hr.1.1
  have hlsb : s.cfg.txByteLsb ≤ 24 := by simp [fieldsOk] at hfields; tauto
  let s0 : State := starting s (.txrx b)
  have hs : LiveLead s0 := ⟨starting_alone hr hsched _, hi, hlive, hfault, hlsb, hroom, htx, hrx⟩
  obtain ⟨a, all, ds, n, hans, hevents, hrun⟩ := run_txrx hs (d := .of s0) (b := b) (ps := [.retByte]) htxq hrxq
    (starting_todo hc _)
  rw [Transfer.of_state hs.lt] at hrun
  generalize hd : ({ Transfer.of s0 with
    todo := _, rxByte := _, txq := _, rxq := _, txdata := _, miso := _, wire := _, hist := _
    draws := ds, nDraws := n } : Transfer) = d at hrun
  have ha := hs.alone_state d
  have hret := run_retByte ha.sched ha.lt ((d.state_todo hs.lt).trans (by rw [← hd]))
  rw [d.state_core hs.lt] at hret
  have hx : x = (d.miso, d.wire) := by rw [← hd]; exact hans
  have hr' : r = d.rxByte := by simp [r, hx, ← hd]
  have hinhWord : d.inhWord = (s.core s.cur).inhWord := by
    rw [← hd]
    exact (congrArg Core.inhWord (starting_core hc (.txrx b)) :)
  have hhist : d.hist = s.hist ++ all := by rw [← hd]; rfl
  refine ⟨_, (exec_starting hr rfl (by simp)).trans (congrArg _ (hrun.trans hret)), ?_, ⟨all, hhist.symm⟩, ?_⟩
  · rw [Transfer.starting_returns hc, hinhWord, hx, hr']
    subst hd
    simp [State.returns, State.withRxByte, State.withInhWord, Transfer.of, State.core, hc, htxq, hrxq, s0, starting, txWord]
  · rw [show ((d.state s0).returns _).hist = d.hist from rfl, hhist, List.drop_left, hevents, hr', ← hd]
    rfl

end Sys2Proof.Proofs
end

section
/-! PROOFS. The statements of spec/41_spi_copy_clock.md, first part: the clock divisor (R111 to R115). -/

namespace Sys2Proof.Proofs

open Sys2Proof Sys2Proof.Machine Sys2Proof.Laws

/-! ## The divisor as a rounded-up quotient -/

/-- R115: the operands that `clkdiv` accepts. -/
def ClkdivDomain (input target : Word) : Prop := target ≠ 0 ∧ input.toNat + 2 * target.toNat - 1 ≤ 2 ^ 32 - 1

/-- R115: outside the domain there is no divisor. -/
theorem clkdivValue_outside {input target : Word} (h : ¬ ClkdivDomain input target) : clkdivValue input target = none := by
  unfold clkdivValue
  split_ifs with h0 h1
  · rfl
  · rfl
  · exact absurd ⟨fun e => h0 (by simp [e]), Nat.not_lt.1 h1⟩ h

/-- R112: in the domain the divisor is the quotient, rounded up, less 1, and it fits its word. -/
theorem clkdivValue_inside {input target : Word} (h : ClkdivDomain input target) :
    ∃ d, clkdivValue input target = some d ∧ d.toNat = input.toNat ⌈/⌉ (2 * target.toNat) - 1 := by
  obtain ⟨h0, h1⟩ := h
  have ht : target.toNat ≠ 0 := (BitVec.toNat_pos_of_ne_zero h0).ne'
  have hclamp : ∀ q : Nat, (if q = 0 then 0 else q - 1) = q - 1 := fun q => by split_ifs <;> omega
  have hfits : input.toNat ⌈/⌉ (2 * target.toNat) - 1 < 2 ^ 32 := by
    have := Nat.div_le_self (input.toNat + 2 * target.toNat - 1) (2 * target.toNat)
    rw [Nat.ceilDiv_eq_add_pred_div]
    omega
  refine ⟨BitVec.ofNat 32 (input.toNat ⌈/⌉ (2 * target.toNat) - 1), ?_, Nat.mod_eq_of_lt hfits⟩
  unfold clkdivValue
  rw [if_neg ht, if_neg (Nat.not_lt.2 h1)]
  simp only [hclamp, Nat.ceilDiv_eq_add_pred_div]

/-- R115: `clkdiv` outside its domain ends the core's run in the refusal. -/
theorem exec_clkdiv_outside {s : State} (hr : Ready s) {input target : Word} (h : ¬ ClkdivDomain input target) :
    exec (.clkdiv input target) s = .next (s.endsIn (.refused .clkdivDomain)) := by
  rw [exec_clkdiv hr, clkdivValue_outside h]

/-- R112, R116: `clkdiv` in its domain returns the divisor, and does nothing else. -/
theorem exec_clkdiv_inside {s : State} (hr : Ready s) {input target : Word} (h : ClkdivDomain input target) :
    ∃ d, exec (.clkdiv input target) s = .next (s.retire (.divisor d)) ∧
      d.toNat = input.toNat ⌈/⌉ (2 * target.toNat) - 1 := by
  obtain ⟨d, hd, hv⟩ := clkdivValue_inside h
  exact ⟨d, by rw [exec_clkdiv hr, hd], hv⟩

/-- R112, R116: `clkdiv` in its domain returns the word that the rounded-up quotient, less 1, is. -/
theorem exec_clkdiv_eq {s : State} (hr : Ready s) {input target d : Word} (h : ClkdivDomain input target)
    (hd : input.toNat ⌈/⌉ (2 * target.toNat) - 1 = d.toNat) :
    exec (.clkdiv input target) s = .next (s.retire (.divisor d)) := by
  obtain ⟨d', he, hv⟩ := exec_clkdiv_inside hr h
  rwa [BitVec.eq_of_toNat_eq (hv.trans hd)] at he

/-! ## Exact division -/

/-- R113: whether the serial clock of a divisor exceeds the target. -/
theorem serialClock_le_iff (input : Nat) {target : Nat} (ht : 0 < target) (e : Nat) :
    (input : ℚ) / (2 * ((e : ℚ) + 1)) ≤ (target : ℚ) ↔ input ⌈/⌉ (2 * target) ≤ e + 1 := by
  rw [div_le_iff₀ (by positivity), ceilDiv_le_iff_le_mul (by omega),
    show (target : ℚ) * (2 * ((e : ℚ) + 1)) = ((2 * target * (e + 1) : ℕ) : ℚ) by push_cast; ring, Nat.cast_le]

/-- The ceiling of an exact quotient is the quotient rounded up. -/
theorem ceil_div_eq_ceilDiv (a : Nat) {b : Nat} (hb : 0 < b) : ⌈(a : ℚ) / (b : ℚ)⌉₊ = a ⌈/⌉ b := by
  refine eq_of_forall_ge_iff fun c => ?_
  rw [Nat.ceil_le, div_le_iff₀ (by exact_mod_cast hb), ceilDiv_le_iff_le_mul hb, mul_comm]
  exact_mod_cast Iff.rfl

/-- Settles O22: the two sides of the domain, and the quotient rounded up as the ceiling of the exact one. -/
theorem clkdivIsTheFormula : Obligations.ClkdivIsTheFormula := by
  intro s input target hr
  refine ⟨fun h => exec_clkdiv_outside hr fun ⟨h0, h1⟩ => h.elim h0 (Nat.not_lt.2 h1), fun h0 h1 => ?_⟩
  obtain ⟨d, he, hv⟩ := exec_clkdiv_inside hr ⟨h0, h1⟩
  refine ⟨d, he, ?_⟩
  have hpos := BitVec.toNat_pos_of_ne_zero h0
  rw [hv, ← ceil_div_eq_ceilDiv _ (by omega), Nat.cast_mul, Nat.cast_ofNat]

/-- Settles O23: by `serialClock_le_iff` a divisor is slow enough if and only if it is at least the one returned. -/
theorem clkdivIsSmallest : Obligations.ClkdivIsSmallest := by
  intro s input target hr hi ht h
  obtain ⟨d, he, hv⟩ := exec_clkdiv_inside hr ⟨by rintro rfl; simp at ht, h⟩
  have slow : ∀ e : Nat, (input.toNat : ℚ) / (2 * ((e : ℚ) + 1)) ≤ (target.toNat : ℚ) ↔ d.toNat ≤ e := fun e => by
    rw [serialClock_le_iff _ ht, hv, Nat.sub_le_iff_le_add]
  refine ⟨d, he, (slow _).2 le_rfl, fun hd => ?_, fun e => (slow e).1⟩
  obtain ⟨e, hde⟩ := Nat.exists_eq_succ_of_ne_zero hd.ne'
  have fast : ¬ d.toNat ≤ e := by omega
  rw [← slow, not_le] at fast
  rw [hde]
  exact_mod_cast fast

/-- R114: no divisor is above 2^31 - 2. -/
theorem ceilDiv_pred_le {input target : Word} (h : ClkdivDomain input target) :
    input.toNat ⌈/⌉ (2 * target.toNat) - 1 ≤ 2 ^ 31 - 2 := by
  obtain ⟨h0, h1⟩ := h
  have ht := BitVec.toNat_pos_of_ne_zero h0
  have hq : input.toNat ⌈/⌉ (2 * target.toNat) ≤ (2 ^ 32 - 1) / 2 := by
    rw [Nat.ceilDiv_eq_add_pred_div]
    exact Nat.div_le_div h1 (by omega) (by decide)
  omega

/-- Settles O24: the quotient rounded up is at most 1 where the input is at most twice the target; the rest are values. -/
theorem clkdivCorners : Obligations.ClkdivCorners := by
  intro s hr gives
  have small : ∀ input target : Word, 0 < target.toNat → input.toNat + 2 * target.toNat - 1 ≤ 2 ^ 32 - 1 →
      input.toNat ≤ 2 * target.toNat → gives input target 0 := by
    intro input target ht h hle
    have hq : input.toNat ⌈/⌉ (2 * target.toNat) ≤ 1 := (ceilDiv_le_iff_le_mul (by omega)).2 (by omega)
    exact exec_clkdiv_eq hr ⟨by rintro rfl; simp at ht, h⟩ (Nat.sub_eq_zero_of_le hq)
  refine ⟨fun input target _ => small input target, fun target ht h => small 0 target ht (by simpa using h) (by simp),
    fun input => exec_clkdiv_outside hr fun h => h.1 rfl, exec_clkdiv_eq hr ⟨by decide, by decide⟩ (by decide),
    fun input target d h => ?_, exec_clkdiv_eq hr ⟨by decide, by decide⟩ (by decide),
    exec_clkdiv_eq hr ⟨by decide, by decide⟩ (by decide)⟩
  by_cases hdom : ClkdivDomain input target
  · obtain ⟨d', he, hv⟩ := exec_clkdiv_inside hr hdom
    obtain rfl : d' = d := by simpa [State.retire] using he.symm.trans h
    exact hv ▸ ceilDiv_pred_le hdom
  · have hresults := congrArg State.results (Host.Outcome.next.inj ((exec_clkdiv_outside hr hdom).symm.trans h))
    simp [State.endsIn] at hresults

end Sys2Proof.Proofs
end

section
/-! PROOFS. The statements of spec/41_spi_copy_clock.md, second part: the operations that have nothing to do with the controller
(R116, R128, R135). -/

namespace Sys2Proof.Proofs

open Sys2Proof Sys2Proof.Machine Sys2Proof.Laws

/-- The controller, the wire and memory are as they were. -/
structure SameController (s u : State) : Prop where
  txq : u.txq = s.txq
  rxq : u.rxq = s.rxq
  inh : u.inh = s.inh
  txdata : u.txdata = s.txdata
  wire : u.wire = s.wire
  mem : u.mem = s.mem

theorem SameController.trans {s u v : State} (h : SameController s u) (k : SameController u v) : SameController s v :=
  ⟨k.txq.trans h.txq, k.rxq.trans h.rxq, k.inh.trans h.inh, k.txdata.trans h.txdata, k.wire.trans h.wire, k.mem.trans h.mem⟩

/-- R135: a primitive of `fail` has nothing to do with the controller. -/
theorem sameController_failPrim {p : Prim} (hp : failPrim p = true) (h : Nat) (ps : List Prim) (u : State) :
    SameController u (prim h p ps u).state := by
  obtain ⟨_, hinh, hstore, hsend, hpoll, hread⟩ := failPrim_ne hp
  have same := primSame h p ps u
  obtain ⟨htxq, htxdata⟩ := same.tx hsend
  exact ⟨htxq, same.rx hpoll hread, same.inh hinh, htxdata, same.wire, same.mem hstore⟩

/-- Since `s`, where `fail` started, every core has had nothing but primitives of `fail` to do, and the engine no turn. -/
structure OnlyFailing (s u : State) : Prop where
  others : OthersOnlyFail u
  own : ∀ p ∈ (u.core u.cur).todo, failPrim p = true
  noEngine : ∀ t ∈ u.sched, t ≠ .engine
  same : SameController s u

/-- A turn, by what it does to the executing core's list and to the controller. -/
theorem OnlyFailing.next {s u : State} (q : OnlyFailing s u) (t : Turn)
    (own : ∀ p ∈ ((turn t u).state.core (turn t u).state.cur).todo, failPrim p = true)
    (same : SameController u (turn t u).state) : OnlyFailing s (turn t u).state := by
  obtain ⟨hsched, _, hcur, _⟩ := turn_queues t u
  exact ⟨othersOnlyFail_turn q.others hcur (turn_cores t u), own, hsched ▸ q.noEngine, q.same.trans same⟩

/-- The turn of any agent but the engine. -/
theorem OnlyFailing.turn_of_ne_engine {s u : State} (q : OnlyFailing s u) {t : Turn} (ht : t ≠ .engine) :
    OnlyFailing s (turn t u).state := by
  have still : turn t u = .moved u → OnlyFailing s (turn t u).state := fun e => by rw [e]; exact q
  have entry : ∀ h c, turn t u = .moved (u.setCore h c) → Entry u h c → OnlyFailing s (turn t u).state := by
    intro h c e he
    have own := enter_own (fun p => failPrim p = true) q.own (fun _ => id) he
    exact q.next t (by rw [e]; exact own) (by rw [e]; exact ⟨rfl, rfl, rfl, rfl, rfl, rfl⟩)
  cases t with
  | engine => exact absurd rfl ht
  | core h =>
    cases hl : (u.core h).todo with
    | nil => exact still (by simp [turn, coreTurn, hl])
    | cons p ps =>
      have e : turn (.core h) u = prim h p ps u := by simp [turn, coreTurn, hl]
      have hp : failPrim p = true := by
        by_cases hk : h = u.cur
        · exact q.own p (by simp [← hk, hl])
        · exact q.others h hk p (by simp [hl])
      refine q.next (.core h) ?_ (by rw [e]; exact sameController_failPrim hp h ps u)
      rw [e]
      by_cases hk : h = u.cur
      · subst hk
        exact own_todo hl (hl ▸ q.own) fun a n hc => by simp [failPrim] at hc
      · rw [other_own p ps hk]
        exact q.own
  | trap h cause =>
    rcases trapTurn_cases h cause u with ⟨e, _⟩ | ⟨hh, _, e⟩
    · exact still e
    · obtain ⟨c, e', he⟩ := takeTrap_entry cause hh
      exact entry h c (e' ▸ e) he
  | call h code isTrap =>
    rcases callTurn_cases h code isTrap u with e | ⟨_, _, _, _, e⟩
    · exact still e
    · obtain ⟨c, e', _, he⟩ := enterFail_entry h code isTrap u
      exact entry h c (e' ▸ e) he

/-- R135: a run of `fail` with no engine turn listed has none: no primitive of it is a poll. -/
theorem onlyFailing_run {s u : State} (q : OnlyFailing s u) : OnlyFailing s (run u) := by
  refine run_induct (P := OnlyFailing s) (Q := OnlyFailing s) (fun u u' q _ hr => ?_) (fun _ q _ => q)
    (fun u u' q _ hspun _ => ?_) q
  · cases hr with
    | @listed t ts h =>
      have q' : OnlyFailing s { u with sched := ts } :=
        ⟨q.others, q.own, fun x hx => q.noEngine x (by simp [h, hx]), { q.same with }⟩
      exact q'.turn_of_ne_engine (q.noEngine t (by simp [h]))
    | own => exact q.turn_of_ne_engine (t := .core u.cur) (by simp)
    | @engine p ps _ ht hp =>
      have := q.own p (by simp [ht])
      rcases hp with rfl | rfl <;> simp [failPrim] at this
  · have := q.turn_of_ne_engine (t := .core u.cur) (by simp)
    rwa [show turn (.core u.cur) u = .spun u' from hspun] at this

/-- Settles O60: the operation returns at once or is refused, or it is `fail`, whose run keeps `OnlyFailing`. -/
theorem failAndEncoderLeaveController : Obligations.FailAndEncoderLeaveController := by
  intro i s t hr ho hsched hi h
  have notSpi : isSpi i = false := by
    cases i with
    | tx | rx | txrx | frameBegin | frameEnd | copy => exact hi.elim
    | clkdiv | diagEncode | diagDecode | fail => rfl
  obtain ⟨t', ht, hc⟩ := execCase (i := i) hr
  obtain rfl : t = t' := by simpa using h.symm.trans ht
  cases hc with
  | pure | refused => exact ⟨rfl, rfl, rfl, rfl, rfl, rfl⟩
  | foreign hspi | spi hspi => simp [notSpi] at hspi
  | fail c f d =>
    have start : OnlyFailing s (s.setCore s.cur { s.core s.cur with
        fstat := .failing d, op := some i, todo := failPlan d }) :=
      ⟨othersOnlyFail_issue ho _, by rw [issue_core hr]; exact failPlan_all d, hsched, ⟨rfl, rfl, rfl, rfl, rfl, rfl⟩⟩
    obtain ⟨-, -, -, txq, rxq, inh, txdata, wire, mem⟩ := onlyFailing_run start
    exact ⟨txq, rxq, inh, txdata, wire, mem⟩

end Sys2Proof.Proofs
end

section
/-! PROOFS. The statements of spec/41_spi_copy_clock.md, third part: a `copy` from empty FIFOs, in any schedule (R105 to R107). -/

namespace Sys2Proof.Proofs

open Sys2Proof Sys2Proof.Machine Sys2Proof.Laws

/-! ## The order of a `copy`'s primitives -/

/-- R105: where a `copy` is in its frame. -/
inductive CopyPhase where
  /-- the frame is not open yet -/
  | before
  /-- the frame is open, and every byte sent has its answer received -/
  | between
  /-- the last byte sent has no answer that the core has seen -/
  | flying
  /-- its answer has been seen in `rxq`, and not taken -/
  | ready
  /-- the frame is closed -/
  | closed
  | returned

/-- The frame is open. -/
def CopyPhase.inFrame : CopyPhase → Bool
  | .between | .flying | .ready => true
  | .before | .closed | .returned => false

/-- How many bytes are sent whose answer is not received. -/
def CopyPhase.inFlight : CopyPhase → Nat
  | .flying | .ready => 1
  | .before | .between | .closed | .returned => 0

/-- What has been returned. -/
def CopyPhase.results : CopyPhase → List Result
  | .returned => [.ok]
  | .before | .between | .flying | .ready | .closed => []

/-- How far a `copy` has come: its phase, the bytes written to TXDATA, and how many answers are in memory. -/
structure CopyPoint where
  phase : CopyPhase
  sent : List Byte
  stored : Nat

/-- R102, R105, R106: what a primitive of a `copy` to `dst` takes the `copy` to, and in which order they may come: a byte is sent
only when the one before it has its answer, and the answer to byte `4 + i` is stored at `dst + i` before the next byte is sent. -/
inductive Advance (cfg : Config) (dst : Nat) : Prim → CopyPoint → CopyPoint → Prop
  | readInh {ph bs m} (h : ph = .before ∨ ph = .between) : Advance cfg dst .readInh ⟨ph, bs, m⟩ ⟨ph, bs, m⟩
  | opens : Advance cfg dst (.writeInh true) ⟨.before, [], 0⟩ ⟨.between, [], 0⟩
  | pollTx {bs m} : Advance cfg dst .pollTx ⟨.between, bs, m⟩ ⟨.between, bs, m⟩
  | send {b bs m} : Advance cfg dst (.send b) ⟨.between, bs, m⟩ ⟨.flying, bs ++ [b], m⟩
  | pollRx {bs m} : Advance cfg dst .pollRx ⟨.flying, bs, m⟩ ⟨if cfg.rxSameRead then .between else .ready, bs, m⟩
  | readRx {bs m} : Advance cfg dst .readRx ⟨.ready, bs, m⟩ ⟨.between, bs, m⟩
  | store {bs m} (h : bs.length = 5 + m) : Advance cfg dst (.store (dst + m)) ⟨.between, bs, m⟩ ⟨.between, bs, m + 1⟩
  | copyBytes {bs m n} (h : bs.length = 4 + m) :
      Advance cfg dst (.copyBytes (dst + m) n) ⟨.between, bs, m⟩ ⟨.between, bs ++ List.replicate n 0, m + n⟩
  | closes {bs m} : Advance cfg dst (.writeInh false) ⟨.between, bs, m⟩ ⟨.closed, bs, m⟩
  | ret {bs m} : Advance cfg dst (.ret .ok) ⟨.closed, bs, m⟩ ⟨.returned, bs, m⟩

/-- The primitives take a `copy` from the first point given to the second. -/
def InOrder (cfg : Config) (dst : Nat) : CopyPoint → List Prim → CopyPoint → Prop
  | pt, [], e => pt = e
  | pt, p :: ps, e => ∃ pt', Advance cfg dst p pt pt' ∧ InOrder cfg dst pt' ps e

section
variable {cfg : Config} {dst : Nat}

theorem InOrder.append {pt mid e : CopyPoint} {ps qs : List Prim} (h : InOrder cfg dst pt ps mid) (k : InOrder cfg dst mid qs e) :
    InOrder cfg dst pt (ps ++ qs) e := by
  induction ps generalizing pt with
  | nil => exact h ▸ k
  | cons p ps ih =>
    obtain ⟨pt', ha, h⟩ := h
    exact ⟨pt', ha, ih h⟩

/-- R96: a byte sent and its answer received. -/
theorem inOrder_txrxPlan (b : Byte) (bs : List Byte) (m : Nat) :
    InOrder cfg dst ⟨.between, bs, m⟩ (txrxPlan cfg b) ⟨.between, bs ++ [b], m⟩ := by
  have hpoll := Advance.pollRx (cfg := cfg) (dst := dst) (bs := bs ++ [b]) (m := m)
  refine ⟨_, .pollTx, _, .send, ?_⟩
  unfold rxPlan
  cases hs : cfg.rxSameRead with
  | true => exact ⟨_, by simpa [hs] using hpoll, rfl⟩
  | false => exact ⟨_, by simpa [hs] using hpoll, _, .readRx, rfl⟩

/-- R75: the command bytes. -/
theorem inOrder_command (cs bs : List Byte) (m : Nat) :
    InOrder cfg dst ⟨.between, bs, m⟩ (cs.flatMap (txrxPlan cfg)) ⟨.between, bs ++ cs, m⟩ := by
  induction cs generalizing bs with
  | nil => simp [InOrder]
  | cons c cs ih =>
    have h := (inOrder_txrxPlan (cfg := cfg) (dst := dst) c bs m).append (ih (bs ++ [c]))
    simpa using h

/-- R102: a `copy`'s primitives are in order, and send all its bytes and store all its data. -/
theorem inOrder_copy (cfg : Config) (dst addr size : Word) :
    InOrder cfg dst.toNat ⟨.before, [], 0⟩ (planOf cfg (.copy dst addr size))
      ⟨.returned, copyMosi cfg addr size, size.toNat⟩ := by
  have opening : InOrder cfg dst.toNat ⟨.before, [], 0⟩ (framePlan true) ⟨.between, [], 0⟩ :=
    ⟨_, .readInh (.inl rfl), _, .opens, rfl⟩
  have command : InOrder cfg dst.toNat ⟨.between, [], 0⟩ (commandPlan cfg addr)
      ⟨.between, cfg.readOpcode :: addrBytes addr, 0⟩ :=
    inOrder_command (cfg.readOpcode :: addrBytes addr) [] 0
  have data : InOrder cfg dst.toNat ⟨.between, cfg.readOpcode :: addrBytes addr, 0⟩ [.copyBytes dst.toNat size.toNat]
      ⟨.between, copyMosi cfg addr size, size.toNat⟩ := by
    rw [copyMosi_eq, ← Nat.zero_add size.toNat]
    exact ⟨_, .copyBytes (m := 0) rfl, by simp [InOrder]⟩
  have closing : InOrder cfg dst.toNat ⟨.between, copyMosi cfg addr size, size.toNat⟩ (framePlan false ++ [.ret .ok])
      ⟨.returned, copyMosi cfg addr size, size.toNat⟩ := ⟨_, .readInh (.inr rfl), _, .closes, _, .ret, rfl⟩
  have whole := ((opening.append command).append data).append closing
  simpa only [planOf, copyPlan, List.append_assoc] using whole

/-- R102: a round of `copy`'s loop, written out, is in order where the loop is. -/
theorem InOrder.round {pt e : CopyPoint} {a n : Nat} {ps : List Prim} (h : InOrder cfg dst pt (.copyBytes a (n + 1) :: ps) e) :
    InOrder cfg dst pt (txrxPlan cfg 0 ++ ([.store a, .copyBytes (a + 1) n] ++ ps)) e := by
  obtain ⟨pt', ha, h⟩ := h
  cases ha with
  | @copyBytes bs m _ hlen =>
    have hlen' : (bs ++ [0]).length = 5 + m := by simp [hlen]; omega
    refine (inOrder_txrxPlan 0 bs m).append ⟨_, .store hlen', _, .copyBytes (m := m + 1) (by omega), ?_⟩
    rw [List.append_assoc, Nat.add_assoc m 1 n, Nat.add_comm 1 n]
    exact h

/-- The loop is over. -/
theorem InOrder.looped {pt e : CopyPoint} {a : Nat} {ps : List Prim} (h : InOrder cfg dst pt (.copyBytes a 0 :: ps) e) :
    InOrder cfg dst pt ps e := by
  obtain ⟨pt', ha, h⟩ := h
  cases ha with
  | copyBytes => simpa using h

/-- R87: while a byte is in flight the core is in the receive poll. -/
theorem InOrder.pollRx_of_flying {bs : List Byte} {m : Nat} {ps : List Prim} {e : CopyPoint}
    (h : InOrder cfg dst ⟨.flying, bs, m⟩ ps e) (hne : ps ≠ []) : ∃ qs, ps = .pollRx :: qs := by
  cases ps with
  | nil => exact absurd rfl hne
  | cons p ps =>
    obtain ⟨pt', ha, -⟩ := h
    cases ha with
    | readInh h => simp at h
    | pollRx => exact ⟨ps, rfl⟩

/-- What has something left to do has not returned. -/
theorem InOrder.results_of_ne_nil {pt e : CopyPoint} {ps : List Prim} (h : InOrder cfg dst pt ps e) (hne : ps ≠ []) :
    pt.phase.results = [] := by
  cases ps with
  | nil => exact absurd rfl hne
  | cons p ps =>
    obtain ⟨pt', ha, -⟩ := h
    cases ha with
    | readInh h => rcases h with rfl | rfl <;> rfl
    | opens | pollTx | send | pollRx | readRx | store | copyBytes | closes | ret => rfl

/-- What has returned has come to its end. -/
theorem InOrder.eq_of_returned {bs : List Byte} {m : Nat} {ps : List Prim} {e : CopyPoint}
    (h : InOrder cfg dst ⟨.returned, bs, m⟩ ps e) : e = ⟨.returned, bs, m⟩ := by
  cases ps with
  | nil => exact h.symm
  | cons => simpa [CopyPhase.results] using h.results_of_ne_nil

end

/-! ## What has come over the wire -/

/-- R105, R106, R107: what a `copy` to `dst` that started in `s` with empty FIFOs has done where it has come to `pt`: the exchanges
in its frame are of the bytes sent, but for what is in `txq`, their answers are those received and what is in `rxq`, and those
to the data bytes stored are in memory. -/
structure Tally (s : State) (dst : Nat) (pt : CopyPoint) (frame : List Exchange) (got : List Byte) (u : State) : Prop where
  cfg : u.cfg = s.cfg
  cur : u.cur = s.cur
  idx : u.idx = s.idx + pt.phase.results.length
  results : u.results = s.results ++ pt.phase.results
  wire : u.wire = s.wire ++ frame
  mosi : frame.map Exchange.mosi ++ u.txq = pt.sent
  miso : frame.map Exchange.miso = got ++ u.rxq
  levels : ∀ x ∈ frame, x.level = s.cfg.inhBegin
  flight : pt.sent.length = got.length + pt.phase.inFlight
  ready : pt.phase = .ready → u.rxq ≠ []
  inh : pt.phase ≠ .before → inhLevel s.cfg.inhibitBit u.inh = frameLevel s.cfg pt.phase.inFrame
  stored : pt.stored ≤ got.length - 4
  mem : ∀ i < pt.stored, readMem u.mem (dst + i) = got[4 + i]?

section
variable {s u : State} {dst : Nat} {pt : CopyPoint} {frame : List Exchange} {got : List Byte}

/-- R97: the byte in flight is the only one in the FIFOs. -/
theorem Tally.fifos (q : Tally s dst pt frame got u) : u.txq.length + u.rxq.length = pt.phase.inFlight := by
  have h1 := congrArg List.length q.mosi
  have h2 := congrArg List.length q.miso
  have h3 := q.flight
  simp at h1 h2
  omega

/-- A primitive that only looks, or has nothing to do with the controller and memory. -/
theorem Tally.prim (q : Tally s dst pt frame got u) {p : Prim} (hret : isRet p = false) (hinh : ∀ b, p ≠ .writeInh b)
    (hstore : ∀ a, p ≠ .store a) (hsend : ∀ b, p ≠ .send b) {h : Nat} {ps : List Prim}
    (hrxq : (prim h p ps u).state.rxq = u.rxq) : Tally s dst pt frame got (prim h p ps u).state := by
  have same := primSame h p ps u
  obtain ⟨hidx, hres⟩ := same.ret hret
  exact {
    cfg := same.cfg.trans q.cfg
    cur := same.cur.trans q.cur
    idx := hidx.trans q.idx
    results := hres.trans q.results
    wire := same.wire.trans q.wire
    mosi := by rw [(same.tx hsend).1]; exact q.mosi
    miso := by rw [hrxq]; exact q.miso
    levels := q.levels
    flight := q.flight
    ready := by rw [hrxq]; exact q.ready
    inh := by rw [same.inh hinh]; exact q.inh
    stored := q.stored
    mem := by rw [same.mem hstore]; exact q.mem }

/-- R36, R88: the answer at the head of `rxq` received. -/
theorem Tally.receive {ph : CopyPhase} {bs : List Byte} {m : Nat} {r : Byte} {rs : List Byte}
    (q : Tally s dst ⟨ph, bs, m⟩ frame got u) (hph : ph = .flying ∨ ph = .ready) (hr : u.rxq = r :: rs) :
    Tally s dst ⟨.between, bs, m⟩ frame (got ++ [r]) { u with rxq := rs } := by
  have hlevel : inhLevel s.cfg.inhibitBit u.inh = frameLevel s.cfg true := by rcases hph with rfl | rfl <;> exact q.inh (by simp)
  have hidx : u.idx = s.idx ∧ u.results = s.results := by
    rcases hph with rfl | rfl <;> exact ⟨q.idx, q.results.trans (List.append_nil _)⟩
  have hflight : bs.length = got.length + 1 := by rcases hph with rfl | rfl <;> exact q.flight
  have hstored : m ≤ got.length - 4 := q.stored
  exact { q with
    idx := hidx.1
    results := hidx.2.trans (List.append_nil _).symm
    miso := by rw [q.miso, hr]; simp
    flight := by simpa [CopyPhase.inFlight] using hflight
    ready := by simp
    inh := fun _ => hlevel
    stored := by simp; omega
    mem := fun i hi => by
      rw [List.getElem?_append_left (by have : i < m := hi; omega)]
      exact q.mem i hi }

/-- R31, R33, R34: the engine exchanges the byte in flight, at the frame's level, or does nothing, or has no room for the answer. -/
theorem Tally.engine (q : Tally s dst pt frame got u) : (∃ frame', Tally s dst pt frame' got (engineStep u)) ∨
    (pt.phase = .flying ∧ (engineStep u).txq = [] ∧ (engineStep u).rxq = []) := by
  rcases engineStep_state u with ⟨e, _⟩ | ⟨b, bs, rx, g, _, _, htx, hrx, e⟩
  · exact .inl ⟨frame, e.symm ▸ q⟩
  · have hfifos := q.fifos
    rw [htx, List.length_cons] at hfifos
    have hone : pt.phase.inFlight ≤ 1 := by cases pt.phase <;> simp [CopyPhase.inFlight]
    obtain rfl : bs = [] := List.eq_nil_of_length_eq_zero (by omega)
    have hrxq : u.rxq = [] := List.eq_nil_of_length_eq_zero (by omega)
    have hphase : pt.phase = .flying := by
      cases hp : pt.phase with
      | flying => rfl
      | ready => exact absurd hrxq (q.ready hp)
      | before | between | closed | returned => simp [hp, CopyPhase.inFlight] at hfifos
    rcases hrx with ⟨_, rfl, _⟩ | ⟨_, rfl, _⟩
    · exact .inr ⟨hphase, by rw [e], by rw [e]; exact hrxq⟩
    · have hlevel : inhLevel u.cfg.inhibitBit u.inh = s.cfg.inhBegin := by
        rw [q.cfg, q.inh (by simp [hphase]), hphase]
        rfl
      refine .inl ⟨frame ++ [⟨s.cfg.inhBegin, b, u.answer s.cfg.inhBegin b⟩], ?_⟩
      rw [e, hlevel]
      exact { q with
        wire := by simp [q.wire]
        mosi := by rw [← q.mosi, htx]; simp
        miso := by simp [q.miso, hrxq]
        levels := fun x hx => by
          rcases List.mem_append.1 hx with hx | hx
          · exact q.levels x hx
          · rw [List.mem_singleton.1 hx]
        ready := by simp }

end

/-! ## The run -/

/-- The core has the primitives from `pt` on left to do, and the last answer received in its byte. -/
structure CopyCore (cfg : Config) (dst : Nat) (e pt : CopyPoint) (got : List Byte) (c : Core) : Prop where
  order : InOrder cfg dst pt c.todo e
  byte : ∀ r, got.getLast? = some r → c.rxByte = r

/-- What any schedule makes of a `copy` to `dst` that started in `s`, and that would come to `e`: it is on its way or has come there,
or it never returns, since no byte comes any more or its core has lost it. -/
inductive Copying (s : State) (dst : Nat) (e : CopyPoint) (u : State) : Prop
  | going {pt : CopyPoint} {frame : List Exchange} {got : List Byte} (tally : Tally s dst pt frame got u)
      (core : CopyCore s.cfg dst e pt got (u.core u.cur))
  | never (idx : u.idx = s.idx) (h : NoByte s u ∨ Lost u)

/-- What a `copy` in any schedule asks of the state in which it starts. -/
structure CopyStart (s : State) : Prop where
  lead : s.cur = s.cfg.leadHart
  iface : s.cfg.iface = .reference
  lsb : s.cfg.txByteLsb ≤ 24
  bit : s.cfg.inhibitBit ≤ 31

/-- R145: a core whose run has ended has lost its operation. -/
theorem lost_stopCore {u : State} (hlen : u.cur < u.cores.length) (x : Stop) : Lost (u.stopCore u.cur x) := by
  unfold Lost
  rw [stopCore_cur, core_stopCore_self x hlen]
  simp

section
variable {s u : State} {dst : Nat} {e pt : CopyPoint} {frame : List Exchange} {got : List Byte} {ps : List Prim}

theorem Tally.lead (q : Tally s dst pt frame got u) (hs : CopyStart s) : u.cur = u.cfg.leadHart := by
  rw [q.cur, q.cfg, hs.lead]

theorem Tally.iface (q : Tally s dst pt frame got u) (hs : CopyStart s) : u.cfg.iface = .reference := by
  rw [q.cfg, hs.iface]

/-- The executing core replaced by one that has the primitives from `pt` on left to do. -/
theorem copyCore_of_set {cfg : Config} {u' : State} {c : Core} (hlen : u.cur < u.cores.length) (hcur : u'.cur = u.cur)
    (hset : u'.cores = u.cores.set u.cur c) (h : CopyCore cfg dst e pt got c) :
    CopyCore cfg dst e pt got (u'.core u'.cur) := by
  have hc : u'.core u'.cur = c := by simp [hcur, State.core, hset, List.getD, hlen]
  rwa [hc]

/-- R85: the transmit poll, whatever it reads. -/
theorem copying_pollTx (hs : CopyStart s) (q : Tally s dst pt frame got u) (c : CopyCore s.cfg dst e pt got (u.core u.cur))
    (ht : (u.core u.cur).todo = .pollTx :: ps) (order : InOrder s.cfg dst pt ps e) :
    Copying s dst e (prim u.cur .pollTx ps u).state := by
  have hlen : u.cur < u.cores.length := lt_of_todo_ne_nil (by simp [ht])
  have q' : Tally s dst pt frame got (prim u.cur .pollTx ps u).state :=
    q.prim rfl (by simp) (by simp) (by simp) ((primSame u.cur .pollTx ps u).rx (by simp) (by simp))
  refine .going q' ?_
  obtain ⟨w, hread, -⟩ := readTxcnt_state u.cur u
  rw [prim_pollTx (q.lead hs), hread]
  split
  · exact copyCore_of_set hlen (by simp) (setTodo_cores_of (by simp) _ _) ⟨order, c.byte⟩
  · simpa using c

/-- R35, R66: the TXDATA write: the byte is in `txq`, or the core's run ends in an overflow. -/
theorem copying_send (hs : CopyStart s) {b : Byte} {bs : List Byte} {m : Nat} (q : Tally s dst ⟨.between, bs, m⟩ frame got u)
    (c : CopyCore s.cfg dst e ⟨.between, bs, m⟩ got (u.core u.cur)) (ht : (u.core u.cur).todo = .send b :: ps)
    (order : InOrder s.cfg dst ⟨.flying, bs ++ [b], m⟩ ps e) : Copying s dst e (prim u.cur (.send b) ps u).state := by
  have hlen : u.cur < u.cores.length := lt_of_todo_ne_nil (by simp [ht])
  have hcase := prim_case u.cur (.send b) ps u
  generalize prim u.cur (.send b) ps u = x at hcase
  cases hcase with
  | foreign _ hl => exact absurd (q.lead hs) hl
  | overflow => exact .never q.idx (.inr (lost_stopCore hlen _))
  | send _ hw =>
    obtain rfl := writeTxdata_reference (q.iface hs) hw
    refine .going (pt := ⟨.flying, bs ++ [b], m⟩) (frame := frame) (got := got) { q with
      mosi := ?_, flight := ?_, ready := by simp, inh := fun _ => q.inh (by simp) }
      (copyCore_of_set hlen rfl (setTodo_cores_of rfl _ _) ⟨order, c.byte⟩)
    · have hsent : frame.map Exchange.mosi ++ u.txq = bs := q.mosi
      simp [State.setTodo, State.setCore, q.cfg, getField_txWord hs.lsb, ← hsent]
    · have : bs.length = got.length + 0 := q.flight
      simp [CopyPhase.inFlight, this]

/-- R32, R36, R87: the receive poll: nothing has come, or it finds the answer, which it takes with `P_RX_SAME_READ`. -/
theorem copying_pollRx (hs : CopyStart s) {bs : List Byte} {m : Nat} (q : Tally s dst ⟨.flying, bs, m⟩ frame got u)
    (c : CopyCore s.cfg dst e ⟨.flying, bs, m⟩ got (u.core u.cur)) (ht : (u.core u.cur).todo = .pollRx :: ps)
    (order : InOrder s.cfg dst ⟨if s.cfg.rxSameRead then .between else .ready, bs, m⟩ ps e) :
    Copying s dst e (prim u.cur .pollRx ps u).state := by
  have hlen : u.cur < u.cores.length := lt_of_todo_ne_nil (by simp [ht])
  have hi := q.iface hs
  cases hq : u.rxq with
  | nil =>
    have hread : readRxrdy u.cur u = (false, 0, u.drawn.record (.ioR u.cur u.cfg.offRxrdy (rxrdyRead u))) := by
      simp [readRxrdy, hi, hq]
    have hprim : prim u.cur .pollRx ps u = .spun (u.drawn.record (.ioR u.cur u.cfg.offRxrdy (rxrdyRead u))) := by
      refine (onController_lead _ (q.lead hs)).trans ?_
      rw [hread]
      rfl
    have q' : Tally s dst ⟨.flying, bs, m⟩ frame got (prim u.cur .pollRx ps u).state :=
      q.prim rfl (by simp) (by simp) (by simp) (by rw [hprim]; simp)
    exact .going q' (by rw [hprim]; simpa using c)
  | cons r rs =>
    have hprim := prim_pollRx (q.lead hs) (readRxrdy_reference hi hq u.cur) ps
    have hsame : u.cfg.rxSameRead = s.cfg.rxSameRead := by rw [q.cfg]
    rw [hprim, drawn_eq, hsame]
    cases hrx : s.cfg.rxSameRead with
    | true =>
      exact .going (pt := ⟨.between, bs, m⟩) (got := got ++ [r]) { q.receive (.inl rfl) hq with }
        (copyCore_of_set hlen rfl rfl ⟨by simpa [hrx] using order, by simp⟩)
    | false =>
      refine .going (pt := ⟨.ready, bs, m⟩) { q with
        ready := fun _ => by simp [hq], inh := fun _ => q.inh (by simp) }
        (copyCore_of_set hlen rfl rfl ⟨by simpa [hrx] using order, c.byte⟩)

/-- R36: the RXDATA read takes the answer. -/
theorem copying_readRx (hs : CopyStart s) {bs : List Byte} {m : Nat} (q : Tally s dst ⟨.ready, bs, m⟩ frame got u)
    (ht : (u.core u.cur).todo = .readRx :: ps) (order : InOrder s.cfg dst ⟨.between, bs, m⟩ ps e) :
    Copying s dst e (prim u.cur .readRx ps u).state := by
  have hlen : u.cur < u.cores.length := lt_of_todo_ne_nil (by simp [ht])
  obtain ⟨r, rs, hq⟩ := List.exists_cons_of_ne_nil (q.ready rfl)
  rw [prim_readRx (q.lead hs) (readRxdata_reference (q.iface hs) hq u.cur) ps, drawn_eq]
  exact .going (got := got ++ [r]) { q.receive (.inr rfl) hq with } (copyCore_of_set hlen rfl rfl ⟨order, by simp⟩)

/-- R24, R32: the INH read. -/
theorem copying_readInh (hs : CopyStart s) (q : Tally s dst pt frame got u)
    (c : CopyCore s.cfg dst e pt got (u.core u.cur)) (ht : (u.core u.cur).todo = .readInh :: ps)
    (order : InOrder s.cfg dst pt ps e) : Copying s dst e (prim u.cur .readInh ps u).state := by
  have hlen : u.cur < u.cores.length := lt_of_todo_ne_nil (by simp [ht])
  have q' : Tally s dst pt frame got (prim u.cur .readInh ps u).state :=
    q.prim rfl (by simp) (by simp) (by simp) ((primSame u.cur .readInh ps u).rx (by simp) (by simp))
  refine .going q' ?_
  rw [prim_readInh_lead (q.lead hs), readInhWord_written (.inl ⟨q.iface hs, rfl⟩)]
  exact copyCore_of_set hlen rfl rfl ⟨order, c.byte⟩

/-- R23, R100, R101: the INH write opens or closes the frame. -/
theorem copying_writeInh (hs : CopyStart s) {begins : Bool} {ph ph' : CopyPhase} {bs : List Byte} {m : Nat}
    (q : Tally s dst ⟨ph, bs, m⟩ frame got u) (c : CopyCore s.cfg dst e ⟨ph, bs, m⟩ got (u.core u.cur))
    (ht : (u.core u.cur).todo = .writeInh begins :: ps) (order : InOrder s.cfg dst ⟨ph', bs, m⟩ ps e)
    (hframe : ph'.inFrame = begins) (hflight : ph'.inFlight = ph.inFlight) (hresults : ph'.results = ph.results)
    (hready : ph' ≠ .ready) : Copying s dst e (prim u.cur (.writeInh begins) ps u).state := by
  have hlen : u.cur < u.cores.length := lt_of_todo_ne_nil (by simp [ht])
  rw [prim_writeInh_lead (q.lead hs)]
  simp only [writeInhWord, q.iface hs]
  exact .going (pt := ⟨ph', bs, m⟩) { q with
    idx := by rw [hresults]; exact q.idx
    results := by rw [hresults]; exact q.results
    flight := by rw [hflight]; exact q.flight
    ready := fun h => absurd h hready
    inh := fun _ => by
      rw [hframe, ← q.cfg]
      exact inhLevel_withInhibit (q.cfg ▸ hs.bit) _ _ } (copyCore_of_set hlen rfl rfl ⟨order, c.byte⟩)

/-- R44, R106: the answer last received is stored at the place of its byte. -/
theorem copying_store {bs : List Byte} {m : Nat} (q : Tally s dst ⟨.between, bs, m⟩ frame got u)
    (c : CopyCore s.cfg dst e ⟨.between, bs, m⟩ got (u.core u.cur)) (ht : (u.core u.cur).todo = .store (dst + m) :: ps)
    (hbs : bs.length = 5 + m) (order : InOrder s.cfg dst ⟨.between, bs, m + 1⟩ ps e) :
    Copying s dst e (prim u.cur (.store (dst + m)) ps u).state := by
  have hlen : u.cur < u.cores.length := lt_of_todo_ne_nil (by simp [ht])
  have hgot : got.length = 5 + m := (show bs.length = got.length from q.flight).symm.trans hbs
  have hlast : got[4 + m]? = some (u.core u.cur).rxByte := by
    have h : got.getLast? = some (got[4 + m]'(by omega)) := by
      rw [List.getLast?_eq_getElem?, List.getElem?_eq_getElem (by omega)]
      simp [hgot, show 5 + m - 1 = 4 + m by omega]
    rw [c.byte _ h, List.getElem?_eq_getElem]
  refine .going (pt := ⟨.between, bs, m + 1⟩) (got := got) { q with
    ready := by simp
    stored := show m + 1 ≤ got.length - 4 by omega
    mem := fun i hi => ?_ } (copyCore_of_set hlen rfl rfl ⟨order, c.byte⟩)
  change readMem (writeMem u.mem (dst + m) (u.core u.cur).rxByte) (dst + i) = _
  by_cases him : i = m
  · rw [him, readMem_writeMem_self, hlast]
  · have : i < m + 1 := hi
    rw [readMem_writeMem_ne _ _ (by omega)]
    exact q.mem i (show i < m by omega)

/-- R102: the head of `copy`'s loop, written out or over. -/
theorem copying_copyBytes {a n : Nat} (q : Tally s dst pt frame got u) (c : CopyCore s.cfg dst e pt got (u.core u.cur))
    (ht : (u.core u.cur).todo = .copyBytes a n :: ps) : Copying s dst e (prim u.cur (.copyBytes a n) ps u).state := by
  have hlen : u.cur < u.cores.length := lt_of_todo_ne_nil (by simp [ht])
  have order := c.order
  rw [ht] at order
  cases n with
  | zero => exact .going { q with } (copyCore_of_set hlen rfl rfl ⟨order.looped, c.byte⟩)
  | succ n =>
    have hcfg : u.cfg = s.cfg := q.cfg
    exact .going { q with } (copyCore_of_set hlen rfl rfl ⟨hcfg ▸ order.round, c.byte⟩)

/-- R16, R108: the return. -/
theorem copying_ret {bs : List Byte} {m : Nat} (q : Tally s dst ⟨.closed, bs, m⟩ frame got u)
    (c : CopyCore s.cfg dst e ⟨.closed, bs, m⟩ got (u.core u.cur)) (ht : (u.core u.cur).todo = .ret .ok :: ps)
    (order : InOrder s.cfg dst ⟨.returned, bs, m⟩ ps e) : Copying s dst e (prim u.cur (.ret .ok) ps u).state := by
  have hlen : u.cur < u.cores.length := lt_of_todo_ne_nil (by simp [ht])
  exact .going (pt := ⟨.returned, bs, m⟩) { q with
    idx := congrArg (· + 1) q.idx
    results := congrArg (· ++ [Result.ok]) (q.results.trans (List.append_nil _))
    ready := by simp
    inh := fun _ => q.inh (by simp) } (copyCore_of_set hlen rfl rfl ⟨order.eq_of_returned.symm, c.byte⟩)

/-- A primitive of the executing core, by the point that the `copy` has come to. -/
theorem Copying.own {p : Prim} (q : Copying s dst e u) (hs : CopyStart s) (ht : (u.core u.cur).todo = p :: ps) :
    Copying s dst e (prim u.cur p ps u).state := by
  cases q with
  | never idx h =>
    rcases h with h | l
    · exact .never (h.own ht).idx (.inl (h.own ht))
    · have hret := (failPrim_ne (l.1 p (by simp [ht]))).1
      exact .never (((primSame u.cur p ps u).ret hret).1.trans idx) (.inr (l.own ht))
  | going q c =>
    have order := c.order
    rw [ht] at order
    obtain ⟨pt', ha, order⟩ := order
    cases ha with
    | readInh => exact copying_readInh hs q c ht order
    | opens => exact copying_writeInh hs q c ht order rfl rfl rfl (by simp)
    | pollTx => exact copying_pollTx hs q c ht order
    | send => exact copying_send hs q c ht order
    | pollRx => exact copying_pollRx hs q c ht order
    | readRx => exact copying_readRx hs q ht order
    | store hbs => exact copying_store q c ht hbs order
    | copyBytes => exact copying_copyBytes q c ht
    | closes => exact copying_writeInh hs q c ht order rfl rfl rfl (by simp)
    | ret => exact copying_ret q c ht order

/-- While it has something left to do, it has not returned. -/
theorem Copying.idx (q : Copying s dst e u) (hne : (u.core u.cur).todo ≠ []) : u.idx = s.idx := by
  cases q with
  | never idx => exact idx
  | going q c => rw [q.idx, c.order.results_of_ne_nil hne]; rfl

/-- R31, R37: an engine step; after one that has no room for the answer, no byte comes. -/
theorem Copying.engine (q : Copying s dst e u) (hs : CopyStart s) (hne : (u.core u.cur).todo ≠ []) :
    Copying s dst e (engineStep u) := by
  obtain ⟨hcfg, _, hidx, hres, _⟩ := engine_same u
  have hcore := engine_own u
  have idx := hidx.trans (q.idx hne)
  cases q with
  | never _ h => exact .never idx (h.imp (fun h => h.engine) fun l => l.congr hcore)
  | @going pt frame got q c =>
    rcases q.engine with ⟨frame', q'⟩ | ⟨hphase, htx, hrx⟩
    · exact .going q' (hcore ▸ c)
    · obtain ⟨ph, bs, m⟩ := pt
      obtain rfl : ph = .flying := hphase
      obtain ⟨qs, hpoll⟩ := c.order.pollRx_of_flying hne
      have hresults : u.results = s.results := q.results.trans (List.append_nil _)
      exact .never idx (.inl ⟨hcfg ▸ q.iface hs, htx, hrx, idx, hres.trans hresults, .inl ⟨qs, hcore ▸ hpoll⟩⟩)

/-- R97, R105: so it is in a run, in any schedule, while the other cores only fail. -/
theorem copying_kept (hs : CopyStart s) (dst : Nat) (e : CopyPoint) : OwnKept (Copying s dst e) where
  sched u ts q := by
    cases q with
    | going q c => exact .going { q with } c
    | never idx h =>
      exact .never idx (h.imp (fun h => h.congr rfl rfl rfl rfl rfl rfl) fun l => l.congr rfl)
  own _ _ _ _ q ht := q.own hs ht
  other u h p ps hne q hk hp := by
    obtain ⟨hret, hinh, hstore, hsend, hpoll, hread⟩ := failPrim_ne hp
    have same := primSame h p ps u
    have hcore := other_own p ps hk
    cases q with
    | going q c => exact .going (q.prim hret hinh hstore hsend (same.rx hpoll hread)) (hcore ▸ c)
    | never idx h => exact .never ((same.ret hret).1.trans idx) (h.imp (fun h => h.other hk hp ps) fun l => l.congr hcore)
  engine _ hne q := q.engine hs hne
  enter u h c hne q _ he := by
    rcases lost_or_same_of_entry he with l | hcore
    · exact .never (q.idx hne) (.inr l)
    · cases q with
      | going q c => exact .going { q with } (hcore ▸ c)
      | never idx h => exact .never idx (h.imp (fun h => h.congr rfl rfl rfl rfl rfl hcore) fun l => l.congr hcore)

end

/-- R105, R107: what a `copy` that has returned has done. -/
theorem Tally.returned {s u : State} {dst : Nat} {bs : List Byte} {m : Nat} {frame : List Exchange} {got : List Byte}
    (q : Tally s dst ⟨.returned, bs, m⟩ frame got u) :
    u.txq = [] ∧ u.rxq = [] ∧ frame.map Exchange.mosi = bs ∧
      ∀ i < m, readMem u.mem (dst + i) = (frame[4 + i]?).map Exchange.miso := by
  have hfifos : u.txq.length + u.rxq.length = 0 := q.fifos
  have htx : u.txq = [] := List.eq_nil_of_length_eq_zero (by omega)
  have hrx : u.rxq = [] := List.eq_nil_of_length_eq_zero (by omega)
  refine ⟨htx, hrx, by simpa [htx] using q.mosi, fun i hi => ?_⟩
  rw [← List.getElem?_map, q.miso, hrx, List.append_nil]
  exact q.mem i hi

/-- Settles O39: the run of a `copy` keeps `Copying`, in which only one that has come to its end has a new position; that no other
address is written is `onlyCopyWritesMemory`. -/
theorem copyFrameInAnySchedule : Obligations.CopyFrameInAnySchedule := by
  intro s t dst addr size hr ho hi hf htx hrx hrange h hidx
  obtain ⟨hlsb, hbit⟩ : s.cfg.txByteLsb ≤ 24 ∧ s.cfg.inhibitBit ≤ 31 := by simp [fieldsOk] at hf; tauto
  have outside : ∀ a, a < dst.toNat ∨ dst.toNat + size.toNat ≤ a → readMem t.mem a = readMem s.mem a := fun a ha =>
    onlyCopyWritesMemory.1 _ s t hr.1 ho h a fun d x z e => by cases e; exact ha
  rw [exec_starting hr rfl fun d a z e => by cases e; exact hrange] at h
  obtain rfl := Host.Outcome.next.inj h
  have start : Copying s dst.toNat ⟨.returned, copyMosi s.cfg addr size, size.toNat⟩ (starting s (.copy dst addr size)) := by
    refine .going (pt := ⟨.before, [], 0⟩) (frame := []) (got := [])
      ⟨rfl, rfl, rfl, (List.append_nil _).symm, (List.append_nil _).symm, htx, hrx.symm, by simp, rfl, by simp, by simp, by simp,
        by simp⟩ ?_
    rw [starting_core hr.1.1]
    exact ⟨inOrder_copy s.cfg dst addr size, by simp⟩
  obtain ⟨-, q, -⟩ := (copying_kept ⟨hr.2, hi, hlsb, hbit⟩ _ _).run (othersOnlyFail_issue ho _) start
  cases q with
  | never idx => exact absurd (idx.symm.trans hidx) (Nat.lt_succ_self _).ne
  | @going pt frame got q c =>
    obtain ⟨ph, bs, m⟩ := pt
    obtain rfl : ph = .returned := by
      have hone : ph.results.length = 1 := Nat.add_left_cancel (q.idx.symm.trans hidx)
      cases ph with
      | returned => rfl
      | before | between | flying | ready | closed => simp [CopyPhase.results] at hone
    obtain ⟨rfl, rfl⟩ : copyMosi s.cfg addr size = bs ∧ size.toNat = m := by simpa using c.order.eq_of_returned
    obtain ⟨htxq, hrxq, hmosi, hmem⟩ := q.returned
    exact ⟨q.results, htxq, hrxq, q.inh (by simp), frame, q.wire, hmosi, q.levels, hmem, outside⟩

end Sys2Proof.Proofs
end

section
/-! PROOFS. The statements of spec/42_diagnostic.md, first part: the code of a cause or an enumerant, and what it decodes to (R119,
R121, R127, R131, R132). -/

namespace Sys2Proof.Proofs

open Sys2Proof Sys2Proof.Machine Sys2Proof.Laws

/-! ## Decoding what was encoded -/

/-- R84, R126: a code put together from a stage, a flag and a payload decodes to them. -/
theorem decodeCode_packCode (stage : BitVec 4) (flag : Byte) (p : BitVec 56) :
    (decodeCode (packCode stage flag p)).stage = stage ∧ (decodeCode (packCode stage flag p)).trap = flag.setWidth 4 ∧
      (decodeCode (packCode stage flag p)).payload = p := by
  obtain ⟨hstage, htrap, hpayload⟩ := decodeCode_fields (packCode stage flag p)
  exact ⟨hstage.trans (packCode_stage ..), htrap.trans (packCode_trap ..), hpayload.trans (packCode_payload ..)⟩

/-- R131: the code of a logic code decodes to the stage, flag 0 and the logic code. -/
theorem decodeCode_of_logic {stage : BitVec 4} {code d : Code} (h : composeCode stage 0 code = .ok d) :
    (decodeCode d).stage = stage ∧ (decodeCode d).trap = 0 ∧ (decodeCode d).payload.toNat = code.toNat := by
  rcases composeCode_ok h with ⟨h1, _⟩ | ⟨_, hw, rfl⟩
  · exact absurd h1 (by decide)
  · obtain ⟨hstage, htrap, hpayload⟩ := decodeCode_packCode stage 0 (code.extractLsb' 0 56)
    refine ⟨hstage, htrap, ?_⟩
    have hcode := congrArg BitVec.toNat (setWidth_logicPayload hw)
    rwa [BitVec.toNat_setWidth_of_le (by decide), ← hpayload] at hcode

/-- R132: the code of a cause decodes to the stage, flag 1, bit 63 of the cause and its bits 54 to 0. -/
theorem decodeCode_of_trap (stage : BitVec 4) (cause : Code) :
    let r := decodeCode (packCode stage 1 (trapPayload cause))
    r.stage = stage ∧ r.trap = 1 ∧ r.intr = some (cause.extractLsb' 63 1) ∧ r.causeLow = some (cause.extractLsb' 0 55) := by
  obtain ⟨hstage, htrap, _⟩ := decodeCode_packCode stage 1 (trapPayload cause)
  obtain ⟨hintr, hlow, _⟩ := decodeCode_one htrap
  obtain ⟨htop, hbits⟩ := packCode_low stage 1 (trapPayload cause)
  obtain ⟨htop', hbits'⟩ := trapPayload_parts cause
  exact ⟨hstage, htrap, by rw [hintr, htop, htop'], by rw [hlow, hbits, hbits']⟩

/-- R16, R128, R129: `diag_encode` of operands that have a code, and then `diag_decode` of that code, both complete. -/
theorem exec_encode_decode {s : State} (hr : Ready s) {stage : BitVec 4} {flag : Byte} {code d : Code}
    (h : composeCode stage flag code = .ok d) :
    ∃ t u, exec (.diagEncode stage flag code) s = .next t ∧ t.results = s.results ++ [.code d] ∧
      exec (.diagDecode d) t = .next u ∧ u.results = t.results ++ [.fields (decodeCode d)] :=
  have hr' : Ready (s.retire (.code d)) := hr
  ⟨_, _, exec_diagEncode_ok hr h, rfl, exec_diagDecode hr' d, rfl⟩

/-- Settles O16: both operations complete (`exec_encode_decode`), with the record of `decodeCode_of_logic`. -/
theorem logicRoundTrip : Obligations.LogicRoundTrip := by
  intro s x y hr hy
  have hd := composeCode_logic x hy
  obtain ⟨t, u, ht, htr, hu, hur⟩ := exec_encode_decode hr hd
  exact ⟨t, _, u, _, ht, htr, hu, hur, decodeCode_of_logic hd⟩

/-! ## Bits of a cause -/

/-- One bit, as a bit vector. -/
theorem extractLsb'_one {w : Nat} (x : BitVec w) (i : Nat) : x.extractLsb' i 1 = BitVec.ofBool (x.getLsbD i) := by
  apply BitVec.eq_of_getLsbD_eq
  intro j hj
  obtain rfl : j = 0 := by omega
  simp

/-- Bits 54 to 0, by the mask of the statement. -/
theorem setWidth_causeLow (c : Code) : (c.extractLsb' 0 55).setWidth 64 = c &&& BitVec.ofNat 64 (2 ^ 55 - 1) := by
  apply BitVec.eq_of_getLsbD_eq
  intro i hi
  rw [BitVec.getLsbD_and, show (BitVec.ofNat 64 (2 ^ 55 - 1)).getLsbD i = decide (i < 55) from getLsbD_causeMask i]
  simp [hi, Bool.and_comm]

/-- A negative cause has bit 63 set. -/
theorem getLsbD_of_negative {c : Code} (h : c.toInt < 0) : c.getLsbD 63 = true := by
  have hm : c.msb = true := by rw [BitVec.msb_eq_toInt]; exact decide_eq_true h
  rwa [BitVec.msb_eq_getLsbD_last] at hm

/-- Settles O17: both operations complete (`exec_encode_decode`), with the record of `decodeCode_of_trap`. -/
theorem trapLaw : Obligations.TrapLaw := by
  intro s x cause hr
  obtain ⟨t, u, ht, htr, hu, hur⟩ := exec_encode_decode hr (composeCode_trap x cause)
  obtain ⟨hstage, htrap, hintr, hlow⟩ := decodeCode_of_trap x cause
  rw [extractLsb'_one] at hintr
  refine ⟨t, _, u, _, ht, htr, hu, hur, hstage, htrap, hintr, ⟨_, hlow, setWidth_causeLow cause⟩, fun hneg => ?_⟩
  rw [hintr, getLsbD_of_negative hneg]
  rfl

/-- R121: the bits of a cause that its payload keeps: bits 54 to 0, and bit 63. -/
theorem getLsbD_keptMask (i : Nat) : (0x807FFFFFFFFFFFFF : Code).getLsbD i = (decide (i < 55) || decide (i = 63)) := by
  have hm : (0x807FFFFFFFFFFFFF : Code) = 0x007FFFFFFFFFFFFF ||| BitVec.twoPow 64 63 := by decide
  rw [hm, BitVec.getLsbD_or, getLsbD_causeMask, BitVec.getLsbD_twoPow]
  simp [eq_comm]

/-- Two words agree under a mask exactly when they have the mask's bits in common. -/
theorem xor_and_eq_zero_iff {w : Nat} (x y m : BitVec w) :
    (x ^^^ y) &&& m = 0 ↔ ∀ i, m.getLsbD i = true → x.getLsbD i = y.getLsbD i := by
  have hbit : ∀ i, ((x ^^^ y) &&& m).getLsbD i = false ↔ (m.getLsbD i = true → x.getLsbD i = y.getLsbD i) := fun i => by
    cases hm : m.getLsbD i <;> simp [hm]
  refine ⟨fun h i => (hbit i).1 (by simp [h]), fun h => BitVec.eq_of_getLsbD_eq fun i _ => ?_⟩
  simpa using (hbit i).2 (h i)

/-- R121, R127: two causes have one payload exactly when they agree on bits 54 to 0 and on bit 63. -/
theorem trapPayload_eq_iff (c c' : Code) : trapPayload c = trapPayload c' ↔ (∀ i < 55, c.getLsbD i = c'.getLsbD i) ∧
    c.getLsbD 63 = c'.getLsbD 63 := by
  have hkept : ∀ x : Code, (trapPayload x).getLsbD 55 = x.getLsbD 63 := fun x => by
    rw [getLsbD_trapPayload, if_neg (by decide)]
    simp
  refine ⟨fun h => ⟨fun i hi => ?_, by rw [← hkept, h, hkept]⟩, fun ⟨hlow, htop⟩ => ?_⟩
  · simpa [getLsbD_trapPayload, hi] using congrArg (BitVec.getLsbD · i) h
  · have hbits : c.extractLsb' 0 55 = c'.extractLsb' 0 55 :=
      BitVec.eq_of_getLsbD_eq fun i hi => by simp [hi, hlow i hi]
    simp only [trapPayload, extractLsb'_one, htop, hbits]

/-- Settles O19: one outcome means one code, one code one payload, and that is agreement on the bits kept. -/
theorem causeBitsDropped : Obligations.CauseBitsDropped := by
  intro s stage c c' hr
  have hcode : exec (.diagEncode stage 1 c) s = exec (.diagEncode stage 1 c') s ↔ trapPayload c = trapPayload c' := by
    rw [exec_diagEncode_ok hr (composeCode_trap stage c), exec_diagEncode_ok hr (composeCode_trap stage c')]
    refine ⟨fun h => ?_, fun h => by rw [h]⟩
    have hpack : packCode stage 1 (trapPayload c) = packCode stage 1 (trapPayload c') := by
      simpa [State.retire] using h
    rw [← packCode_payload stage 1 (trapPayload c), hpack, packCode_payload]
  rw [hcode, trapPayload_eq_iff, xor_and_eq_zero_iff]
  simp only [getLsbD_keptMask, Bool.or_eq_true, decide_eq_true_eq]
  exact ⟨fun ⟨hlow, htop⟩ i hi => hi.elim (hlow i) (fun e => e ▸ htop), fun h => ⟨fun i hi => h i (.inl hi), h 63 (.inr rfl)⟩⟩

/-! ## Enumerants -/

/-- Settles O21: the decoded payload is the value composed (`decodeCode_of_logic`), and no two enumerants have one value. -/
theorem enumerantsAreDecodable : Obligations.EnumerantsAreDecodable := by
  intro cfg e e' d hcfg
  obtain ⟨hlt, hinj⟩ := errCode_of_errCodesOk (cfg := cfg) (by simp [configOk] at hcfg; tauto)
  refine ⟨hlt e, fun hd hp => hinj e e' (BitVec.eq_of_toNat_eq ?_)⟩
  obtain ⟨_, _, hpayload⟩ := decodeCode_of_logic hd
  exact hpayload.symm.trans hp

end Sys2Proof.Proofs
end

section
/-! PROOFS. The statements of spec/42_diagnostic.md, second part: the fail path of a core that goes on alone, and where it stops (R130,
R133, R134, R136, R137, R140, R141, R152). -/

namespace Sys2Proof.Proofs

open Sys2Proof Sys2Proof.Machine Sys2Proof.Laws

/-! ## The primitives of `fail`, alone -/

/-- R134, R137: what a console event or an operation on the fault indicator does, its core's list aside. -/
def failEffect (h : Nat) (s : State) : Prim → State
  | .con e => consoleOut h e s
  | .gpio r => gpioAmo h r s
  | _ => s

/-- R133: a primitive of `fail` before `halt` has its effect and is then off the list. -/
theorem prim_eq_failEffect {p : Prim} (hp : failPrim p = true) (hne : p ≠ .halt) (h : Nat) (ps : List Prim) (s : State) :
    prim h p ps s = .moved ((failEffect h s p).setTodo h ps) := by
  cases p with
  | con | gpio => rfl
  | halt => exact absurd rfl hne
  | pollTx | send | pollRx | readRx | readInh | writeInh | store | copyBytes | ret | retByte => simp [failPrim] at hp

/-- The effect has nothing to do with the cores. -/
theorem failEffect_setCore (h : Nat) (s : State) (p : Prim) (k : Nat) (c : Core) :
    failEffect h (s.setCore k c) p = (failEffect h s p).setCore k c := by
  cases p with
  | gpio r => cases r <;> rfl
  | con | halt | pollTx | send | pollRx | readRx | readInh | writeInh | store | copyBytes | ret | retByte => rfl

theorem failEffect_frame (h : Nat) (s : State) (p : Prim) : (failEffect h s p).cores = s.cores ∧
    (failEffect h s p).cur = s.cur ∧ (failEffect h s p).sched = s.sched := by
  cases p with
  | gpio r => cases r <;> exact ⟨rfl, rfl, rfl⟩
  | con | halt | pollTx | send | pollRx | readRx | readInh | writeInh | store | copyBytes | ret | retByte => exact ⟨rfl, rfl, rfl⟩

/-- Of two replacements of a core the second one stands. -/
theorem setCore_setCore (s : State) (h : Nat) (c c' : Core) : (s.setCore h c).setCore h c' = s.setCore h c' := by
  simp [State.setCore]

/-- Cutting the list of a core just replaced. -/
theorem setTodo_setCore {s : State} {h : Nat} (hh : h < s.cores.length) (c : Core) (ps : List Prim) :
    (s.setCore h c).setTodo h ps = s.setCore h { c with todo := ps } := by
  rw [State.setTodo, core_setCore_self c hh, setCore_setCore]

/-- R59: primitives of `fail` before `halt` have their effects in order. -/
theorem run_failEffects {s : State} (hs : s.sched = []) (hc : s.cur < s.cores.length) (c : Core) {ps : List Prim}
    (hps : ∀ p ∈ ps, failPrim p = true ∧ p ≠ .halt) (qs : List Prim) :
    run (s.setCore s.cur { c with todo := ps ++ qs }) =
      run ((ps.foldl (failEffect s.cur) s).setCore s.cur { c with todo := qs }) := by
  induction ps generalizing s with
  | nil => rfl
  | cons p ps ih =>
    obtain ⟨⟨hp, hne⟩, hps⟩ := List.forall_mem_cons.1 hps
    obtain ⟨hcores, hcur, hsched⟩ := failEffect_frame s.cur s p
    have htodo := congrArg Core.todo (core_setCore_self { c with todo := p :: ps ++ qs } hc)
    have hmoved : prim s.cur p (ps ++ qs) (s.setCore s.cur { c with todo := p :: ps ++ qs }) =
        .moved ((failEffect s.cur s p).setCore s.cur { c with todo := ps ++ qs }) := by
      rw [prim_eq_failEffect hp hne, failEffect_setCore, setTodo_setCore (by rwa [hcores])]
    have hrest := ih (s := failEffect s.cur s p) (hsched.trans hs) (by rwa [hcur, hcores]) hps
    rw [hcur] at hrest
    exact (run_prim (s := s.setCore s.cur _) hs htodo hmoved).trans hrest

/-- R139: a failing core halts with the code that it failed with. -/
theorem prim_halt {s : State} {h : Nat} {d : Option Code} (hf : (s.core h).fstat = .failing d) (ps : List Prim) :
    prim h .halt ps s = .moved (s.setCore h { s.core h with fstat := .halted d, todo := [] }) := by
  simp [prim, hf]

/-- R139: the last primitive of `fail`. -/
theorem run_halt {s : State} (hs : s.sched = []) (hc : s.cur < s.cores.length) {c : Core} {d : Option Code}
    (hf : c.fstat = .failing d) : run (s.setCore s.cur { c with todo := [.halt] }) =
      s.setCore s.cur { c with fstat := .halted d, todo := [] } := by
  have hself := core_setCore_self { c with todo := [.halt] } hc
  have hmoved := prim_halt ((congrArg Core.fstat hself).trans hf) []
  rw [hself, setCore_setCore] at hmoved
  exact (run_prim (s := s.setCore s.cur _) hs (congrArg Core.todo hself) hmoved).trans
    (run_done (congrArg Core.todo (core_setCore_self _ hc)))

/-! ## The fail path as a whole -/

/-- R134, R136: what a core that fails with this code, or with none, hands the console. -/
def reported : Option Code → List ConEvent
  | some d => reportOf d
  | none => []

/-- R133, R134: `fail` is the report, the three operations on the fault indicator, and `halt`. -/
theorem failPlan_eq (d : Option Code) :
    failPlan d = ((reported d).map .con ++ [.gpio .val, .gpio .en, .gpio .inv]) ++ [.halt] := by
  cases d with
  | none => rfl
  | some d =>
    have hhi : (d >>> 32).setWidth 32 = hiHalf d := BitVec.setWidth_ushiftRight_eq_extractLsb
    have hlo : d.setWidth 32 = loHalf d := BitVec.setWidth_eq_extractLsb' (by decide)
    simp [failPlan, reported, reportOf, hhi, hlo]

/-- R28, R134: console events one after the other. -/
theorem foldl_failEffect_con (h : Nat) (s : State) (es : List ConEvent) : (es.map .con).foldl (failEffect h) s =
    { s with console := s.console ++ es, hist := s.hist ++ es.map (.con h) } := by
  induction es generalizing s with
  | nil => simp
  | cons e es ih => simp [ih, failEffect, consoleOut, State.record]

/-- R137: the three operations on the fault indicator. -/
theorem foldl_failEffect_gpio (h : Nat) (s : State) : [.gpio .val, .gpio .en, .gpio .inv].foldl (failEffect h) s =
    { s.signalled with hist := s.hist ++ signalEvents s h } := by
  cases hop : s.cfg.gpioInvertOp <;>
    simp [failEffect, gpioAmo, State.setGpio, State.gpio, State.record, gpioOp, gpioOff, amoResult, faultMask, State.signalled,
      signalEvents, hop]

/-- R133, R134, R137, R139: a core that has entered `fail` reports, signals and halts. -/
theorem run_failPlan {s : State} (hs : s.sched = []) (hc : s.cur < s.cores.length) {c : Core} {d : Option Code}
    (hf : c.fstat = .failing d) : run (s.setCore s.cur { c with todo := failPlan d }) = { s.signalled with
      console := s.console ++ reported d
      hist := s.hist ++ (reported d).map (.con s.cur) ++ signalEvents s s.cur
      cores := s.cores.set s.cur { c with fstat := .halted d, todo := [] } } := by
  have hps : ∀ p ∈ (reported d).map Prim.con ++ [.gpio .val, .gpio .en, .gpio .inv], failPrim p = true ∧ p ≠ .halt := by
    simp +contextual [or_imp, failPrim]
  let u : State := { s with console := s.console ++ reported d, hist := s.hist ++ (reported d).map (.con s.cur) }
  rw [failPlan_eq, run_failEffects hs hc c hps, List.foldl_append, foldl_failEffect_con, foldl_failEffect_gpio]
  exact run_halt (s := { u.signalled with hist := u.hist ++ signalEvents u s.cur }) hs hc hf

/-! ## `fail` as an operation -/

/-- R133, R136: `fail` on a core that goes on alone, with the code that it fails with. -/
theorem exec_fail_alone {s : State} (hr : Ready s) (hs : s.sched = []) {code : Code} {isTrap : Byte} {d : Option Code}
    (he : enterFail s.cur code isTrap s = s.setCore s.cur { s.core s.cur with
      fstat := .failing d, op := some (.fail code isTrap), todo := failPlan d }) :
    exec (.fail code isTrap) s = .next (({ s.signalled with
      console := s.console ++ reported d
      hist := s.hist ++ (reported d).map (.con s.cur) ++ signalEvents s s.cur } : State).haltedWith d code isTrap) := by
  let c : Core := { s.core s.cur with fstat := .failing d, op := some (.fail code isTrap) }
  rw [exec_fail hr, he]
  exact congrArg _ (run_failPlan (c := c) hs hr.1 rfl)

/-- R126: the code of operands that `fail` does not refuse, by shifts. -/
theorem composeCode_shifts (stage : BitVec 4) {code : Code} {isTrap : Byte}
    (h : isTrap = 1 ∨ (isTrap = 0 ∧ code.toNat < 2 ^ 56)) :
    composeCode stage isTrap code = .ok (codeByShifts stage isTrap (if isTrap = 1 then causeByShifts code else code)) := by
  rcases h with rfl | ⟨rfl, hw⟩
  · exact composeCode_trap_shifts stage code
  · exact composeCode_logic_shifts stage hw

/-- Settles O42: the lead core composes the code (`composeCode_shifts`) and goes through with it (`exec_fail_alone`). -/
theorem failOnLeadReportsAndHalts : Obligations.FailOnLeadReportsAndHalts := by
  intro s code isTrap hr hs hflag d
  refine exec_fail_alone hr.1 hs (d := some d) ?_
  rw [enterFail_lead hr.1.2.1 hr.2, composeCode_shifts _ hflag]

/-- Settles O43: another core enters `fail` without a code and goes through with it (`exec_fail_alone`). -/
theorem failOnOtherCoreOnlySignals : Obligations.FailOnOtherCoreOnlySignals := by
  intro s code isTrap hr hl hs
  rw [exec_fail_alone hr hs (enterFail_other hr.2.1 hl)]
  simp [reported, State.signalled]

/-- R125, R130: `fail` of operands that have no code ends the lead core's run before any primitive. -/
theorem exec_fail_refused {s : State} (hr : LeadReady s) {code : Code} {isTrap : Byte} {r : Refusal}
    (h : composeCode s.cfg.bootstage isTrap code = .error r) :
    exec (.fail code isTrap) s = .next (s.endsIn (.refused r)) := by
  rw [exec_fail hr.1, enterFail_lead hr.1.2.1 hr.2, h]
  exact congrArg _ (run_stopCore s _)

/-- R152: `fail` on a core that is failing or halted. -/
theorem exec_fail_nested {s : State} (hf : (s.core s.cur).fstat ≠ .running) (hn : (s.core s.cur).stop = none) (code : Code)
    (isTrap : Byte) : exec (.fail code isTrap) s = .next (s.endsIn (.fault (.nestedFail s.cur code))) := by
  simp [exec, execFail, hn, hf, enterFail_not hf, run_stopCore, endsIn_eq]

/-- Settles O44: the two refusals of the encoder, and the nested fault. -/
theorem failRefusedOrNested : Obligations.FailRefusedOrNested := by
  intro s code isTrap
  refine ⟨fun hr h0 h1 => ?_, fun hr h0 hw => ?_, fun hf hn => exec_fail_nested hf hn code isTrap⟩
  · exact exec_fail_refused hr (composeCode_flag _ code h0 h1)
  · subst h0
    exact exec_fail_refused hr (composeCode_wide _ (Nat.not_lt.2 hw))

/-- Settles O45: `fail` composes ACMD41's value and completes (`exec_fail_alone`), and the code decodes to it
(`decodeCode_of_logic`). -/
theorem acmd41EndToEnd : Obligations.Acmd41EndToEnd := by
  intro s hr hs hcfg
  have hok : errCodesOk s.cfg = true := by simp [configOk] at hcfg; tauto
  have hd := composeCode_logic s.cfg.bootstage ((errCode_of_errCodesOk hok).1 .sdAcmd41)
  set d := packCode s.cfg.bootstage 0 ((errCode s.cfg .sdAcmd41).extractLsb' 0 56)
  have he := exec_fail_alone hr.1 hs (d := some d) (by rw [enterFail_lead hr.1.2.1 hr.2, hd])
  have hjoin : (d >>> 32).setWidth 32 ++ d.setWidth 32 = d := by
    rw [BitVec.setWidth_ushiftRight_eq_extractLsb, BitVec.setWidth_eq_extractLsb' (by decide), append_halves]
  refine ⟨_, (d >>> 32).setWidth 32, d.setWidth 32, he, rfl, ?_, ?_⟩
  · rw [hjoin]
    exact congrArg Core.fstat (core_setCore_self (s := s.signalled) _ hr.1.1)
  · rw [hjoin]
    exact decodeCode_of_logic hd

end Sys2Proof.Proofs
end

section
/-! PROOFS. The statements of spec/42_diagnostic.md, third part: a core that has halted, or whose run has ended, has nothing left to
do, performs nothing and starts nothing (R139, R145, R146). -/

namespace Sys2Proof.Proofs

open Sys2Proof Sys2Proof.Machine Sys2Proof.Laws

/-! ## Halted and ended cores are at rest -/

/-- R139, R145, R146: `HaltedAtRest` for one core. -/
def CoreRests (c : Core) : Prop := (∃ d, c.fstat = .halted d) ∨ c.stop ≠ none → c.todo = []

/-- A core with nothing left to do rests, whatever its status. -/
theorem coreRests_of_todo {c : Core} (h : c.todo = []) : CoreRests c := fun _ => h

/-- A core that neither has halted nor has ended its run rests, whatever it has left to do. -/
theorem coreRests_of_goesOn {c : Core} (hf : ∀ d, c.fstat ≠ .halted d) (hn : c.stop = none) : CoreRests c :=
  fun h => h.elim (fun ⟨d, hd⟩ => absurd hd (hf d)) (absurd hn)

/-- A core that rests and has a primitive left has not halted, and its run has not ended. -/
theorem CoreRests.goesOn {c : Core} (r : CoreRests c) {p : Prim} {ps : List Prim} (ht : c.todo = p :: ps) :
    (∀ d, c.fstat ≠ .halted d) ∧ c.stop = none := by
  have hne : c.todo ≠ [] := ht ▸ List.cons_ne_nil p ps
  exact ⟨fun d hd => hne (r (.inl ⟨d, hd⟩)), by_contra fun hn => hne (r (.inr hn))⟩

theorem haltedAtRest_iff (s : State) : HaltedAtRest s ↔ ∀ h, CoreRests (s.core h) := by
  refine ⟨fun r h => ?_, fun r c hc => ?_⟩
  · rcases Nat.lt_or_ge h s.cores.length with hh | hh
    · have hcore : s.core h = s.cores[h] := by simp [State.core, hh]
      exact hcore ▸ r _ (List.getElem_mem hh)
    · rw [core_of_length_le hh]
      exact coreRests_of_todo rfl
  · obtain ⟨h, hh, rfl⟩ := List.getElem_of_mem hc
    have hcore : s.core h = s.cores[h] := by simp [State.core, hh]
    exact hcore ▸ r h

/-! ## What every step keeps -/

/-- R139, R145, R146: in `t` the halted and ended cores rest, and each core whose run had ended in `s` has the same end. -/
structure RestsWithEnds (s t : State) : Prop where
  rests : ∀ h, CoreRests (t.core h)
  ends : ∀ h x, (s.core h).stop = some x → (t.core h).stop = some x

/-- Replacing a core whose run has not ended by one that rests. -/
theorem RestsWithEnds.setCore {s u : State} (r : RestsWithEnds s u) {h : Nat} {c : Core} (hn : (u.core h).stop = none)
    (hc : CoreRests c) : RestsWithEnds s (u.setCore h c) where
  rests k := by
    rcases core_setCore_cases u h k c with ⟨e, _, _⟩ | e <;> rw [e]
    · exact hc
    · exact r.rests k
  ends k x hx := by
    rcases core_setCore_cases u h k c with ⟨_, rfl, _⟩ | e
    · exact absurd ((r.ends k x hx).symm.trans hn) (by simp)
    · rw [e]; exact r.ends k x hx

/-- It depends on the cores alone. -/
theorem RestsWithEnds.congr {s u u' : State} (r : RestsWithEnds s u) (e : u'.cores = u.cores) : RestsWithEnds s u' where
  rests k := core_congr e k ▸ r.rests k
  ends k x hx := core_congr e k ▸ r.ends k x hx

/-- A core that has performed a primitive rests: it goes on as it did before, or it has nothing left to do. -/
theorem coreRests_moved {s s' : State} {h : Nat} {p : Prim} {ps : List Prim} {c : Core}
    (hf : ∀ d, (s.core h).fstat ≠ .halted d) (hn : (s.core h).stop = none) (hm : Moved s s' h p ps c) : CoreRests c := by
  cases hm with
  | on fstat stop => exact coreRests_of_goesOn (fstat ▸ hf) (stop.trans hn)
  | copied _ _ _ fstat stop => exact coreRests_of_goesOn (fstat ▸ hf) (stop.trans hn)
  | returned _ _ _ _ todo | halted _ _ _ _ _ todo | faulted _ _ _ _ _ todo => exact coreRests_of_todo todo

/-- R133, R152: a core that enters `fail` is failing, or its run ends with nothing left to do. -/
theorem coreRests_entry {s : State} {h : Nat} {c : Core} (hn : (s.core h).stop = none) (he : Entry s h c) : CoreRests c := by
  rcases he with ⟨d, _, hf, _, hs, _⟩ | ⟨_, ht, _⟩
  · exact coreRests_of_goesOn (by simp [hf]) (hs.trans hn)
  · exact coreRests_of_todo ht

/-- A turn replaces no core, or one that goes on. -/
theorem RestsWithEnds.turn {s u u' : State} (r : RestsWithEnds s u) (ht : TurnCores u u') : RestsWithEnds s u' := by
  cases ht with
  | same e => exact r.congr e
  | prim h p ps c ht e hm =>
    obtain ⟨hf, hn⟩ := (r.rests h).goesOn ht
    exact (r.setCore hn (coreRests_moved hf hn hm)).congr e
  | entry h c _ hn e he =>
    rw [e]
    exact r.setCore hn (coreRests_entry hn he)

/-- Turns, issues, entries of `fail`, returns and the ends of runs keep it. -/
theorem restsWithEnds_kept (s : State) : Kept (RestsWithEnds s) where
  turn u t ts _ r := (r.congr (u' := { u with sched := ts }) rfl).turn (turn_cores t _)
  issue u _ _ r _ hr _ hn _ := r.setCore hn (coreRests_of_goesOn (by simp [hr]) hn)
  fail u c f r hn := by
    obtain ⟨k, e, _, he⟩ := enterFail_entry u.cur c f u
    rw [e]
    exact r.setCore hn (coreRests_entry hn he)
  retire _ _ r := r.congr rfl
  stop _ _ r hn := r.setCore hn (coreRests_of_todo rfl)
  sched _ _ _ r := r.congr rfl

/-- Settles O51: `restsWithEnds_kept`, over a step. -/
theorem haltedAtRestIsKept : Obligations.HaltedAtRestIsKept := by
  intro s t hrest h
  have r := (restsWithEnds_kept s).step ⟨(haltedAtRest_iff s).1 hrest, fun _ _ => id⟩ h
  exact ⟨(haltedAtRest_iff t).2 r.rests, r.ends⟩

/-! ## What a halted or ended core does -/

/-- R145, R146: an operation on a core whose run has ended answers how. -/
theorem exec_ended {s : State} {x : Stop} (hx : (s.core s.cur).stop = some x) (i : Instr) : exec i s = x.outcome := by
  have op : ∀ k, operate k s = x.outcome := fun k => by simp [operate, hx]
  cases i with
  | fail => simp [exec, execFail, hx]
  | tx | rx | txrx | frameBegin | frameEnd | copy => exact op _
  | clkdiv | diagEncode | diagDecode => simp only [exec, execClkdiv, execDiagEncode, execDiagDecode, op]

/-- R139: an operation other than `fail` on a core that is no longer running, with nothing left to do, leaves the state. -/
theorem exec_not_running {s : State} (hn : (s.core s.cur).stop = none) (ht : (s.core s.cur).todo = [])
    (hf : (s.core s.cur).fstat ≠ .running) {i : Instr} (hi : ∀ c f, i ≠ .fail c f) : exec i s = .next s := by
  have op : ∀ k, operate k s = .next s := fun k => by simp [operate, hn, State.busy, ht, hf]
  cases i with
  | fail c f => exact absurd rfl (hi c f)
  | tx | rx | txrx | frameBegin | frameEnd | copy => exact op _
  | clkdiv | diagEncode | diagDecode => simp only [exec, execClkdiv, execDiagEncode, execDiagDecode, op]

/-- R139: the step of a machine whose executing core is no longer running and has nothing left to do is an idle one. -/
theorem step_not_running {s : State} (hl : launchOk s = true) (hn : (s.core s.cur).stop = none)
    (ht : (s.core s.cur).todo = []) (hf : (s.core s.cur).fstat ≠ .running) : step s = .next (idleStep s) := by
  unfold step
  simp [hl, State.busy, ht, hn, hf]

/-- R145, R146: so is that of one whose executing core's run has ended, while something else can happen. -/
theorem step_ended {s : State} {x : Stop} (hl : launchOk s = true) (hx : (s.core s.cur).stop = some x)
    (ht : (s.core s.cur).todo = []) (hq : quiet s = false) : step s = .next (idleStep s) := by
  unfold step
  simp [hl, State.busy, ht, hx, hq]

/-- At rest an idle step leaves the state. -/
theorem idleStep_atRest {s : State} (h : AtRest s) : idleStep s = s := by
  have hq := quiet_of_atRest h
  have hdue : engineDue s = false := by simpa [quiet, h.1] using hq
  unfold idleStep
  rw [h.1]
  exact if_neg (by simp [hdue])

/-- A turn of a core that has nothing left to do is only taken. -/
theorem idleStep_core {s : State} {h : Nat} {ts : List Turn} (hs : s.sched = .core h :: ts) (ht : (s.core h).todo = []) :
    idleStep s = { s with sched := ts } := by
  have hturn : coreTurn h { s with sched := ts } = .moved { s with sched := ts } := by
    unfold coreTurn
    rw [show (State.core { s with sched := ts } h).todo = [] from ht]
  unfold idleStep
  rw [hs]
  exact congrArg Micro.state hturn

/-- Settles O48: an operation on such a core and a step at rest, by how the core stands, and its own turn. -/
theorem haltedCoreDoesNothing : Obligations.HaltedCoreDoesNothing := by
  intro s i hrest _
  have rests : (∃ d, (s.core s.cur).fstat = .halted d) ∨ (s.core s.cur).stop ≠ none → (s.core s.cur).todo = [] :=
    (haltedAtRest_iff s).1 hrest s.cur
  have ended : ∀ x, (s.core s.cur).stop = some x → (s.core s.cur).todo = [] := fun x hx => rests (.inr (by simp [hx]))
  refine ⟨fun d hd hn => ⟨fun hi => ?_, fun hl hat => ?_⟩, fun r hx => ⟨?_, fun hl hat => ?_⟩,
    fun r hx => ⟨?_, fun hl hat => ?_⟩, fun h ts hl hs => ?_⟩
  · exact exec_not_running hn (rests (.inl ⟨d, hd⟩)) (by simp [hd]) hi
  · rw [step_not_running hl hn (rests (.inl ⟨d, hd⟩)) (by simp [hd]), idleStep_atRest hat]
  · exact exec_ended hx i
  · exact step_ended_atRest hl (ended _ hx) hx hat
  · exact exec_ended hx i
  · exact step_ended_atRest hl (ended _ hx) hx hat
  · rw [← idleStep_core hs (rests h)]
    cases hx : (s.core s.cur).stop with
    | none =>
      obtain ⟨d, hd⟩ := h.resolve_right (by simp [hx])
      exact step_not_running hl hx (rests h) (by simp [hd])
    | some x => exact step_ended hl hx (rests h) (by simp [quiet, hs])

end Sys2Proof.Proofs
end

section
/-! PROOFS. The statements of spec/60_exceptions.md: where the run of an operation stops (R147, R175), and a trap in the middle of
one (R150, R151). -/

namespace Sys2Proof.Proofs

open Sys2Proof Sys2Proof.Machine Sys2Proof.Laws

/-! ## Where a run stops -/

/-- R147, R175: the executing core has no primitive left, or it waits in a poll. -/
def OverOrPolling (s : State) : Prop := (s.core s.cur).todo = [] ∨ Polling s

/-- R89: a poll that reads in vain is still to come after the read. -/
theorem polling_of_spun {s s' : State} (h : coreTurn s.cur s = .spun s') : Polling s' := by
  obtain ⟨hcores, hcur, _, _, _, _, _, p, ps, ht, hp⟩ := coreTurn_spun h
  exact ⟨p, ps, by rw [hcur, core_congr hcores, ht], hp⟩

/-- R147, R175: in any schedule a run goes on until the operation is over or its core waits in a poll: no count of turns ends
it. -/
theorem run_overOrPolling (s : State) : OverOrPolling (run s) :=
  run_induct (P := fun _ => True) (fun _ _ _ _ _ => trivial) (fun _ _ ht => .inl ht)
    (fun _ _ _ _ hspun _ => .inr (polling_of_spun hspun)) trivial

/-- Settles O7, by what an operation that starts comes to (`execCase`): it returns at once or its core's run ends, and then nothing
is left, or its primitives run (`run_overOrPolling`). -/
theorem operationReturnsOrPolls : Obligations.OperationReturnsOrPolls := by
  intro i s t hr h
  obtain ⟨t', h', hcase⟩ := execCase (i := i) hr
  obtain rfl : t = t' := Host.Outcome.next.inj (h.symm.trans h')
  cases hcase with
  | pure r =>
    obtain ⟨_, _, hidle, _⟩ := hr
    exact .inl ((congrArg Core.todo (retire_core s r s.cur)).trans hidle)
  | refused | foreign => exact .inl (todo_stopCore_self s s.cur _)
  | spi | fail => exact run_overOrPolling _

/-! ## A trap in the middle of an operation -/

/-- R150, R151: a trap turn in the middle of the lead core's operation: what was left of it is replaced by the fail path, with
the trap's code. -/
theorem run_trap_lead {s : State} {cause : Code} {ts : List Turn} (hl : s.cur = s.cfg.leadHart)
    (hr : (s.core s.cur).fstat = .running) (hn : (s.core s.cur).stop = none) (ht : (s.core s.cur).todo ≠ [])
    (hs : s.sched = .trap s.cur cause :: ts) :
    let d := some (codeByShifts s.cfg.bootstage 1 (causeByShifts cause))
    run s = run (({ s with sched := ts } : State).setCore s.cur { s.core s.cur with
      fstat := .failing d, op := some (.fail cause 1), todo := failPlan d, cause := cause }) := by
  intro d
  let u : State := { s with sched := ts }
  have hc : s.cur < s.cores.length := lt_of_todo_ne_nil ht
  have htrap := takeTrap_running (s := u) hc hr cause
  rw [if_pos (show s.cur = u.cfg.leadHart from hl)] at htrap
  rw [run_turn ht hs, turn_trap (s := u) ⟨hc, hn⟩, htrap]
  rfl

/-- Settles O47: the step is the run (`step_busy`), which takes the trap (`run_trap_lead`) and then goes through the fail path
alone (`run_failPlan`). -/
theorem trapAbandonsOperation : Obligations.TrapAbandonsOperation := by
  intro s cause hok hl hr hn ht hs d
  have hc : s.cur < s.cores.length := lt_of_todo_ne_nil ht
  let u : State := { s with sched := [] }
  let c : Core := { s.core s.cur with fstat := .failing (some d), op := some (.fail cause 1), cause := cause }
  have hfail := run_failPlan (s := u) (c := c) rfl hc rfl
  rw [step_busy hok ht, run_trap_lead hl hr hn ht hs, hfail]
  simp [State.haltedWith, State.signalled, State.core, reported, signalEvents, u, c, hc]

end Sys2Proof.Proofs
end

section
/-! PROOFS. The statements of spec/70_reset_and_hazards.md: a run that has returned has come to none of the other ends, and
stays as it is (R181). -/

namespace Sys2Proof.Proofs

open Sys2Proof Sys2Proof.Machine Sys2Proof.Laws

/-! ## The ends of a run (R181) -/

/-- What holds of every core of the machine, and of a core at reset, holds of core `h`, whether or not the machine has it. -/
theorem core_of_forall_mem {P : Core → Prop} {s : State} (hreset : P Core.reset) (hall : ∀ c ∈ s.cores, P c) (h : Nat) :
    P (s.core h) := by
  rcases Nat.lt_or_ge h s.cores.length with hh | hh
  · have hcore : s.core h = s.cores[h] := by simp [State.core, hh]
    exact hcore ▸ hall _ (List.getElem_mem hh)
  · exact (core_of_length_le hh).symm ▸ hreset

/-- R181: the program's end excludes a halted core, and a recorded fault or refusal. -/
theorem no_other_end_of_endReturned {s : State} (h : EndReturned s) :
    ¬ EndFailed s ∧ ¬ EndFaulted s ∧ ¬ EndRefused s := by
  obtain ⟨hl, _, _, hcores, hengine, _⟩ := h
  have unmarked : ∀ c ∈ s.cores, ∀ x, c.stop ≠ some x := fun c hc x hx => by simp [(hcores c hc).2.2] at hx
  refine ⟨?failed, ?faulted, ?refused⟩
  case failed =>
    rintro ⟨c, hc, d, hd⟩
    simp [(hcores c hc).1] at hd
  case faulted =>
    rintro (⟨c, hc, r, hr⟩ | ⟨r, hr⟩)
    · exact unmarked c hc _ hr
    · simp [hengine] at hr
  case refused =>
    rintro (⟨c, hc, r, hr⟩ | hbad)
    · exact unmarked c hc _ hr
    · simp [hl] at hbad

/-- At the program's end the executing core runs, and has nothing left to do and no recorded end. -/
theorem core_of_atProgramEnd {s : State} (h : AtProgramEnd s) :
    (s.core s.cur).fstat = .running ∧ (s.core s.cur).todo = [] ∧ (s.core s.cur).stop = none :=
  core_of_forall_mem (P := fun c => c.fstat = .running ∧ c.todo = [] ∧ c.stop = none) ⟨rfl, rfl, rfl⟩ h.2.1 s.cur

/-- At the program's end, with no turn listed, nothing is left to happen: the engine has no byte to send. -/
theorem atRest_of_atProgramEnd {s : State} (h : AtProgramEnd s) (hs : s.sched = []) : AtRest s := by
  obtain ⟨_, _, _, hsent⟩ := h
  refine ⟨hs, ?_⟩
  cases hi : s.cfg.iface with
  | generic => exact .inl rfl
  | reference => exact .inr (.inl (hsent hi))

/-- R16: past the program's end there is no slot to fetch. -/
theorem fetch_eq_none {s : State} (h : s.prog.length ≤ s.idx) : fetch s = none :=
  List.getElem?_eq_none h

/-- At the program's end the executing core starts nothing: a step is an idle one, whatever turn is listed next. -/
theorem step_atProgramEnd {s : State} (hl : launchOk s = true) (h : AtProgramEnd s) : step s = .next (idleStep s) := by
  obtain ⟨_, htodo, hstop⟩ := core_of_atProgramEnd h
  unfold step
  simp [hl, State.busy, htodo, hstop, fetch_eq_none h.1]

/-- Settles O10: the other ends by `no_other_end_of_endReturned`; at the program's end a step is an idle one
(`step_atProgramEnd`), and one at rest leaves the state (`idleStep_atRest`). -/
theorem returnedRunStays : Obligations.ReturnedRunStays := by
  intro s
  refine ⟨no_other_end_of_endReturned, fun hl hend => ⟨?returned, fun hs => ?stays⟩⟩
  case returned => exact ⟨fun ⟨_, hlead, _⟩ => hlead, fun hlead => ⟨hl, hlead, hend⟩⟩
  case stays => rw [step_atProgramEnd hl hend, idleStep_atRest (atRest_of_atProgramEnd hend hs)]

end Sys2Proof.Proofs
end
